-- ==== Sys2Proof/Word.lean ====
section
/-! DEFINITION. The words of the block: the 32-bit data word, the 20-bit host word address (00_scope.md R4), and the
raw forms the host port carries, before decoding (30_encoding.md R80, R87). -/

namespace Sys2Proof

/-- A word of the host port, `DATA_W = 32` bits (R4, R65). -/
abbrev Word := BitVec 32

/-- A host word address `A[19:0]`, `ADDR_W = 20` bits (R4, R65). -/
abbrev Addr := BitVec 20

/-- One operation of the host port (R65, R87): `MemRead(A)`, or `MemWrite(A, v)`; a read has no `v`. -/
inductive HostOp where
  | read (a : Addr)
  | write (a : Addr) (v : Word)
deriving DecidableEq, Repr

/-- What the host does next: an operation of its port (R65), or reset (R200), between operations (R210). -/
inductive HostEvent where
  | op (o : HostOp)
  | reset
deriving DecidableEq, Repr

/-- The two formats of the opcode table (R80): a command word (format C), a host operation (format H). -/
inductive Encoding where
  | command (w : Word)
  | hostOp (o : HostOp)
deriving DecidableEq, Repr

end Sys2Proof
end

