-- ==== Sys2Proof/Syntax.lean ====
section
/-! DEFINITION. The instructions of the block: one constructor per row of spec/opcode_table.json. The eight commands
are what a word written to `CMD` decodes to (30_encoding.md R83); the seventeen host operations are R87's rows. -/

namespace Sys2Proof

/-- The rows of the opcode table, in its order. -/
inductive Instr where
  /-- build lengths (R100) -/
  | hlb
  /-- assign canonical codes (R120) -/
  | cca
  /-- build the decode table (R130) -/
  | hdt
  /-- build the encoder (R140) -/
  | encb
  /-- build the decoder (R150) -/
  | decb
  /-- encode symbol `sym = w[31:16]` (R141) -/
  | enc (sym : BitVec 16)
  /-- decode one symbol (R151) -/
  | dec
  /-- clear (R165) -/
  | clr
  /-- write of the word `v` to `CMD` (R24, R161) -/
  | wrCmd (v : Word)
  /-- read of `CMD` (R24) -/
  | rdCmd
  /-- read of `STATUS` (R25) -/
  | rdStatus
  /-- read of `ERRINFO` (R26) -/
  | rdErrinfo
  /-- read of `NSYM` (R27) -/
  | rdNsym
  /-- write of `v` to `NSYM` (R27) -/
  | wrNsym (v : Word)
  /-- read of `MAXLEN` (R31) -/
  | rdMaxlen
  /-- write of `v` to `MAXLEN` (R31) -/
  | wrMaxlen (v : Word)
  /-- read of `NPAD` (R28) -/
  | rdNpad
  /-- read of `SHRINK` (R29) -/
  | rdShrink
  /-- read of `RESULT` (R30) -/
  | rdResult
  /-- read of `WEIGHT[i]` (R32) -/
  | rdWeight (i : BitVec 16)
  /-- write of `v` to `WEIGHT[i]` (R32) -/
  | wrWeight (i : BitVec 16) (v : Word)
  /-- read of `LEN[i]` (R33) -/
  | rdLen (i : BitVec 16)
  /-- write of `v` to `LEN[i]` (R33) -/
  | wrLen (i : BitVec 16) (v : Word)
  /-- read of `CODE[i]` (R34) -/
  | rdCode (i : BitVec 16)
  /-- read of `DTAB[i]`; the row's pattern has `A[15] = 0` (R35, R87) -/
  | rdDtab (i : BitVec 16)
deriving DecidableEq, Repr

end Sys2Proof
end

