-- ==== Sys2Proof/WellFormed.lean ====
section
/-! DEFINITION. Which instructions have an encoding. Every operand of every row fills its field exactly, but for the
index of `RD DTAB`, whose pattern `0 0100 0vvvvvvvvvvvvvvv` fixes `A[15] = 0` (30_encoding.md R87). Whether an index is
below `N_CAP`, a value legal or a symbol active is no part of the encoding (R86): it is checked when the row runs. -/

namespace Sys2Proof

/-- The instruction is a row of the opcode table with operands its pattern admits (R83, R87). -/
def WellFormed : Instr → Bool
  | .hlb => true
  | .cca => true
  | .hdt => true
  | .encb => true
  | .decb => true
  | .enc _ => true
  | .dec => true
  | .clr => true
  | .wrCmd _ => true
  | .rdCmd => true
  | .rdStatus => true
  | .rdErrinfo => true
  | .rdNsym => true
  | .wrNsym _ => true
  | .rdMaxlen => true
  | .wrMaxlen _ => true
  | .rdNpad => true
  | .rdShrink => true
  | .rdResult => true
  | .rdWeight _ => true
  | .wrWeight _ _ => true
  | .rdLen _ => true
  | .wrLen _ _ => true
  | .rdCode _ => true
  | .rdDtab i => !i.getLsbD 15

end Sys2Proof
end

