-- ==== Sys2Proof/Decode.lean ====
section
/-! DEFINITION. Decoding and encoding, both formats (30_encoding.md R80 to R87). Decoding is total: `none` is
`Illegal` for a command word (R82) and "not in the table" for a host operation (R87). -/

namespace Sys2Proof

/-! ## Format C: command words -/

/-- `op = w[7:0]` (R81). -/
def opField (w : Word) : BitVec 8 := w.extractLsb' 0 8

/-- `zero = w[15:8]`, reserved, must be 0 (R81, R84). -/
def zeroField (w : Word) : BitVec 8 := w.extractLsb' 8 8

/-- `sym = w[31:16]` (R81). -/
def symField (w : Word) : BitVec 16 := w.extractLsb' 16 16

/-- A command without operand: `w[31:16]` must be 0 (R82, R84). -/
def noOperand (w : Word) (i : Instr) : Option Instr := if symField w = 0 then some i else none

/-- `decode(w)` of R82, total on all `2^32` words; `none` is `Illegal`. -/
def decodeCommand (w : Word) : Option Instr :=
  if zeroField w ≠ 0 then none
  else if opField w = 0x01 then noOperand w .hlb
  else if opField w = 0x02 then noOperand w .cca
  else if opField w = 0x03 then noOperand w .hdt
  else if opField w = 0x04 then noOperand w .encb
  else if opField w = 0x05 then noOperand w .decb
  else if opField w = 0x06 then some (.enc (symField w))
  else if opField w = 0x07 then noOperand w .dec
  else if opField w = 0x08 then noOperand w .clr
  else none

/-- The command word with the given `sym` and `op` fields and `zero = 0` (R81). -/
def commandWord (sym : BitVec 16) (op : BitVec 8) : Word := sym ++ (0 : BitVec 8) ++ op

/-! ## Format H: host operations -/

/-- `region = A[19:16]` (R66, R87). -/
def region (a : Addr) : BitVec 4 := a.extractLsb' 16 4

/-- `idx = A[15:0]` (R66, R87). -/
def index (a : Addr) : BitVec 16 := a.extractLsb' 0 16

/-- The address of index `i` of region `r` (R66). -/
def addr (r : BitVec 4) (i : BitVec 16) : Addr := r ++ i

/-- The registers the host may read, by index of region 0 (R23, R87). -/
def decodeRegisterRead (i : BitVec 16) : Option Instr :=
  if i = 0 then some .rdCmd
  else if i = 1 then some .rdStatus
  else if i = 2 then some .rdErrinfo
  else if i = 3 then some .rdNsym
  else if i = 4 then some .rdMaxlen
  else if i = 5 then some .rdNpad
  else if i = 6 then some .rdShrink
  else if i = 7 then some .rdResult
  else none

/-- The registers the host may write, by index of region 0 (R23, R87). -/
def decodeRegisterWrite (i : BitVec 16) (v : Word) : Option Instr :=
  if i = 0 then some (.wrCmd v)
  else if i = 3 then some (.wrNsym v)
  else if i = 4 then some (.wrMaxlen v)
  else none

/-- The rows of R87 with `rw = 0`. -/
def decodeRead (a : Addr) : Option Instr :=
  if region a = 0 then decodeRegisterRead (index a)
  else if region a = 1 then some (.rdWeight (index a))
  else if region a = 2 then some (.rdLen (index a))
  else if region a = 3 then some (.rdCode (index a))
  else if region a = 4 then (if (index a).getLsbD 15 then none else some (.rdDtab (index a)))
  else none

/-- The rows of R87 with `rw = 1`. -/
def decodeWrite (a : Addr) (v : Word) : Option Instr :=
  if region a = 0 then decodeRegisterWrite (index a) v
  else if region a = 1 then some (.wrWeight (index a) v)
  else if region a = 2 then some (.wrLen (index a) v)
  else none

/-- The row of R87 a host operation is, by `rw` and `A` alone; `none` for every `(rw, A)` not in the table. -/
def decodeHostOp : HostOp → Option Instr
  | .read a => decodeRead a
  | .write a v => decodeWrite a v

/-! ## Both formats -/

/-- The instruction an encoding stands for; `none` where the tables of R83 and R87 have no row for it. -/
def decode : Encoding → Option Instr
  | .command w => decodeCommand w
  | .hostOp o => decodeHostOp o

/-- The encoding of an instruction, from the tables of R83 and R87. -/
def encode : Instr → Encoding
  | .hlb => .command (commandWord 0 0x01)
  | .cca => .command (commandWord 0 0x02)
  | .hdt => .command (commandWord 0 0x03)
  | .encb => .command (commandWord 0 0x04)
  | .decb => .command (commandWord 0 0x05)
  | .enc sym => .command (commandWord sym 0x06)
  | .dec => .command (commandWord 0 0x07)
  | .clr => .command (commandWord 0 0x08)
  | .wrCmd v => .hostOp (.write (addr 0 0) v)
  | .rdCmd => .hostOp (.read (addr 0 0))
  | .rdStatus => .hostOp (.read (addr 0 1))
  | .rdErrinfo => .hostOp (.read (addr 0 2))
  | .rdNsym => .hostOp (.read (addr 0 3))
  | .wrNsym v => .hostOp (.write (addr 0 3) v)
  | .rdMaxlen => .hostOp (.read (addr 0 4))
  | .wrMaxlen v => .hostOp (.write (addr 0 4) v)
  | .rdNpad => .hostOp (.read (addr 0 5))
  | .rdShrink => .hostOp (.read (addr 0 6))
  | .rdResult => .hostOp (.read (addr 0 7))
  | .rdWeight i => .hostOp (.read (addr 1 i))
  | .wrWeight i v => .hostOp (.write (addr 1 i) v)
  | .rdLen i => .hostOp (.read (addr 2 i))
  | .wrLen i v => .hostOp (.write (addr 2 i) v)
  | .rdCode i => .hostOp (.read (addr 3 i))
  | .rdDtab i => .hostOp (.read (addr 4 i))

/-- The host operation that carries an encoding: a command is a write of its word to address 0x00000 (R80). -/
def issue : Encoding → HostOp
  | .command w => .write 0 w
  | .hostOp o => o

/-- The encoding the opcode table's bits stand for: 32 bits are a command word (format C), 21 bits, or 24 in whole
bytes, are the pattern `rw, A[19:16], A[15:0]` of a host operation (format H, R87), whose written value `v`, above the
pattern, is 0. Any other width or a pattern above 21 bits is no encoding. -/
def tableEncoding (nbits w : Nat) : Option Encoding :=
  if nbits = 32 then (if w < 2 ^ 32 then some (.command (BitVec.ofNat 32 w)) else none)
  else if nbits = 24 ∨ nbits = 21 then
    if w < 2 ^ 20 then some (.hostOp (.read (BitVec.ofNat 20 w)))
    else if w < 2 ^ 21 then some (.hostOp (.write (BitVec.ofNat 20 (w - 2 ^ 20)) 0))
    else none
  else none

/-- The instruction the decoder reads from a row's bits, numbered as spec/opcode_table.json numbers them. -/
def decodeTableWord (nbits w : Nat) : Option Instr := (tableEncoding nbits w).bind decode

end Sys2Proof
end

