-- ==== Sys2Proof/Config.lean ====
section
/-! DEFINITION. The implementation parameters of 00_scope.md R4. `N_CAP` is open in the spec (W9) and opaque here. -/

namespace Sys2Proof

/-- What the spec leaves open of `N_CAP` (R4, D5, W9): it has no body, so no proof can use a value of it (log 3). -/
opaque Config.nCapExtra : Fin 32768

/-- `N_CAP`, the largest legal `NSYM` and the depth of WEIGHT, LEN and CODE: even, `2 ≤ N_CAP ≤ 65536` (R4). -/
def Config.nCap : Nat := 2 * Config.nCapExtra.val + 2

/-- `MAXLEN_CAP`, the largest legal `MAXLEN` (R4). -/
def Config.maxlenCap : Nat := 15

/-- `DTAB_DEPTH = 2^MAXLEN_CAP` slots (R4). -/
def Config.dtabDepth : Nat := 32768

/-- `S_CAP`, the last shrink exponent tried (R4, R108). -/
def Config.sCap : Nat := 32

end Sys2Proof
end

