-- ==== Sys2Proof/Machine/State.lean ====
section
/-! DEFINITION. The state of the block and of its environment (10_state.md R20), as plain data, and its value at reset
(R41, R200). -/

namespace Sys2Proof.Machine

/-- A table memory: pairs of an index and a word of `n` bits, indices strictly rising, no word equal to what an unlisted
index reads as (`Memory.wf`, in Machine/Ops.lean). -/
abbrev Memory (n : Nat) := List (Nat × BitVec n)

/-- The nine faults of 60_exceptions.md R173. They do not stop the machine: raising one is a next state (R171). -/
inductive FaultName where
  /-- `WR CMD` of a word that matches no command (R174) -/
  | illegalCommand
  /-- unmapped address, index out of range, write to a read-only word (R68) -/
  | badAccess
  /-- value out of range in `WR NSYM`, `WR MAXLEN`, `WR LEN[i]` (R67) -/
  | invalidConfig
  /-- the table the command needs is not built (R175) -/
  | notReady
  /-- no attempt of `HLB` succeeded (R108) -/
  | lengthLimitInfeasible
  /-- a length above `MAXLEN`, or Kraft sum above 1 (R122, R123) -/
  | invalidLengthTable
  /-- `ENC` of a symbol outside the table or unused (R141) -/
  | invalidSymbol
  /-- `DEC` with fewer than `MAXLEN` bits at the source (R153) -/
  | truncatedStream
  /-- `DEC` of an index no codeword reaches (R152) -/
  | invalidCode
deriving DecidableEq, Repr

/-- The state of the block, of its bit ports and of the host. -/
structure State where
  /-- `NSYM[16:0]`, the alphabet size (R27) -/
  nsym : BitVec 17
  /-- `MAXLEN[3:0]`, the cap on codeword length (R31) -/
  maxlen : BitVec 4
  /-- `STATUS.CODEV`: CODE is current (R25, R39, R40) -/
  codev : Bool
  /-- `STATUS.DTABV`: DTAB is current (R25, R39, R40) -/
  dtabv : Bool
  /-- `STATUS.ERR[15:8]`: 0, or the code of the first fault (R25, R173) -/
  err : BitVec 8
  /-- `ERRINFO`: what the first fault recorded (R26) -/
  errinfo : BitVec 32
  /-- `SHRINK[5:0]`: shrink exponent of the last successful `HLB` or `ENCB` (R29) -/
  shrink : BitVec 6
  /-- `RESULT[15:0]`: the symbol the last successful `DEC` returned (R30) -/
  result : BitVec 16
  /-- `WEIGHT[0..N_CAP-1]` (R32) -/
  weight : Memory 32
  /-- `LEN[0..N_CAP-1]` (R33) -/
  len : Memory 8
  /-- `CODE[0..N_CAP-1]` (R34) -/
  code : Memory 16
  /-- `DTAB[0..32767]`, each `valid` at bit 16 and `sym` at bits 15:0 (R35) -/
  dtab : Memory 17
  /-- `SINK`: the bits put, first bit first (R36) -/
  sink : List Bool
  /-- `SRC`: the bits of the source, first bit first (R37) -/
  src : List Bool
  /-- `SRCPOS`: the read cursor of the source (R37) -/
  srcpos : Nat
  /-- the model's own field: what the host does next, in order (R20, R70; log 1) -/
  script : List HostEvent
  /-- the model's own field: the words the host's reads returned, in order (R65; log 2) -/
  replies : List Word
deriving DecidableEq, Repr

/-- What stops the machine: nothing. Every fault of the spec is a next state (R171, R186), so this type has no
constructor; that is safe, since no claim can rest on a stop. -/
inductive Fault where
deriving DecidableEq, Repr

/-- Why a step has no meaning. -/
inductive Refusal where
  /-- Raised by an arm of `exec` that gives its instruction no meaning; no arm of this model raises it. Safe: the model
  stops where the hardware goes on. -/
  | notModelled (mnemonic : String)
deriving DecidableEq, Repr

/-- The state after reset for given launch contents of the bit ports, which are parameters of the environment (R36, R37,
R200), and a given list of what the host will do (log 1): every piece of block state at its value of R41. -/
def State.launch (sink src : List Bool) (srcpos : Nat) (script : List HostEvent) : State where
  nsym := 0
  maxlen := 15
  codev := false
  dtabv := false
  err := 0
  errinfo := 0
  shrink := 0
  result := 0
  weight := []
  len := []
  code := []
  dtab := []
  sink := sink
  src := src
  srcpos := srcpos
  script := script
  replies := []

/-- The machine right after reset (R41, R200); the launch contents of the ports are empty (DESIGN CHOICE, log 4) and the
host has nothing to do yet (DESIGN CHOICE, log 1). -/
def State.reset : State := State.launch [] [] 0 []

end Sys2Proof.Machine
end

