-- ==== Sys2Proof/Machine/Ops.lean ====
section
/-! DEFINITION. The named operations over the tables, the registers, the bit ports and the host port; raising a fault and
leaving the faulted state, once each. -/

namespace Sys2Proof.Machine

/-! ## Table memories -/

/-- What an index that is not listed reads as: the reset value of every table word (R41, log 5). -/
abbrev Memory.unlisted (n : Nat) : BitVec n := 0

/-- The word at an index (R7). -/
def Memory.read {n : Nat} : Memory n → Nat → BitVec n
  | [], _ => Memory.unlisted n
  | (k, x) :: rest, i => if k = i then x else Memory.read rest i

/-- The table with word `v` at index `i` (R7), in canonical form. -/
def Memory.write {n : Nat} : Memory n → Nat → BitVec n → Memory n
  | [], i, v => if v = Memory.unlisted n then [] else [(i, v)]
  | (k, x) :: rest, i, v =>
    if i < k then (if v = Memory.unlisted n then (k, x) :: rest else (i, v) :: (k, x) :: rest)
    else if i = k then (if v = Memory.unlisted n then rest else (i, v) :: rest)
    else (k, x) :: Memory.write rest i v

/-- `for i in 0 .. p-1: old[i] <- new[i]`, the commit of a command's result (R9): the words below `p` are those of `new`,
the others are kept. -/
def Memory.replaceBelow {n : Nat} (p : Nat) (new old : Memory n) : Memory n :=
  new.filter (fun e => decide (e.1 < p)) ++ old.filter (fun e => decide (p ≤ e.1))

/-- `for j in 0 .. count-1: t[base + j] <- v`: a run of equal words, in canonical form. -/
def Memory.fill {n : Nat} (base count : Nat) (v : BitVec n) (m : Memory n) : Memory n :=
  m.filter (fun e => decide (e.1 < base)) ++
    ((if v = Memory.unlisted n then [] else (List.range count).map (fun j => (base + j, v))) ++
      m.filter (fun e => decide (base + count ≤ e.1)))

/-- The canonical form: indices strictly rising, no word equal to what an unlisted index reads as. -/
abbrev Memory.wf {n : Nat} (m : Memory n) : Prop :=
  m.Pairwise (fun a b => a.1 < b.1) ∧ ∀ e ∈ m, e.2 ≠ Memory.unlisted n

/-! ## Registers -/

/-- `NPAD = NSYM + (NSYM mod 2)`, computed, not stored (R28). -/
def npad (s : State) : Nat := s.nsym.toNat + s.nsym.toNat % 2

/-- The block is faulted (R186). -/
abbrev faulted (s : State) : Prop := s.err ≠ 0

/-- `NSYM <- v` alone (R27). -/
def setNsym (v : BitVec 17) (s : State) : State := { s with nsym := v }

/-- `MAXLEN <- v` alone (R31). -/
def setMaxlen (v : BitVec 4) (s : State) : State := { s with maxlen := v }

/-- `SHRINK <- v` (R29). -/
def setShrink (v : BitVec 6) (s : State) : State := { s with shrink := v }

/-- `RESULT <- v` (R30). -/
def setResult (v : BitVec 16) (s : State) : State := { s with result := v }

/-- `WEIGHT[i] <- v` alone (R32). -/
def setWeight (i : Nat) (v : BitVec 32) (s : State) : State := { s with weight := s.weight.write i v }

/-- `LEN[i] <- v` alone (R33). -/
def setLen (i : Nat) (v : BitVec 8) (s : State) : State := { s with len := s.len.write i v }

/-- `for i in 0 .. p-1: LEN[i] <- t[i]` (R100). -/
def commitLen (p : Nat) (t : Memory 8) (s : State) : State := { s with len := Memory.replaceBelow p t s.len }

/-- `for i in 0 .. p-1: CODE[i] <- t[i]` (R120). -/
def commitCode (p : Nat) (t : Memory 16) (s : State) : State := { s with code := Memory.replaceBelow p t s.code }

/-- `for v in 0 .. d-1: DTAB[v] <- t[v]` (R130). -/
def commitDtab (d : Nat) (t : Memory 17) (s : State) : State := { s with dtab := Memory.replaceBelow d t s.dtab }

/-! ## Decode-table slots -/

/-- The slot `(valid = 1, sym = i)`, as the host port reads it: `valid` at bit 16 (R35, R131). -/
def validSlot (i : BitVec 16) : BitVec 17 := (1 : BitVec 1) ++ i

/-- `DTAB[v].valid` (R35). -/
def slotValid (x : BitVec 17) : Bool := x.getLsbD 16

/-- `DTAB[v].sym` (R35). -/
def slotSym (x : BitVec 17) : BitVec 16 := x.extractLsb' 0 16

/-! ## Faults -/

/-- The code of a fault (R173). -/
def FaultName.code : FaultName → BitVec 8
  | .illegalCommand => 1
  | .badAccess => 2
  | .invalidConfig => 3
  | .notReady => 4
  | .lengthLimitInfeasible => 5
  | .invalidLengthTable => 6
  | .invalidSymbol => 7
  | .truncatedStream => 8
  | .invalidCode => 9

/-- Fault entry (R171, R9): `STATUS.ERR` and `ERRINFO` are written and nothing else changes. Every caller raises only
while `STATUS.ERR = 0` (R186). -/
def raise (f : FaultName) (info : Word) (s : State) : State := { s with err := f.code, errinfo := info }

/-- A host write or a command in the faulted block is ignored (R186); otherwise it has the effect `t`. -/
def ifLive (s t : State) : State := if faulted s then s else t

/-- `CLR` and reset (R41, R165, R187, R200): every piece of block state takes its reset value; the bit ports are not
touched, nor is what belongs to the host. It is the only way out of the faulted state. -/
def clearBlock (s : State) : State := { State.launch s.sink s.src s.srcpos s.script with replies := s.replies }

/-! ## Bit ports -/

/-- The `l` low bits of `v`, most significant first (R6, R62). -/
def bitsMsbFirst (l v : Nat) : List Bool := (List.range l).reverse.map v.testBit

/-- The value of a bit sequence, first bit most significant (R6). -/
def bitsValue (bs : List Bool) : Nat := bs.foldl (fun acc b => 2 * acc + b.toNat) 0

/-- `SinkPut(L, v)` (R62). -/
def sinkPut (l v : Nat) (s : State) : State := { s with sink := s.sink ++ bitsMsbFirst l v }

/-- `avail = |SRC| - SRCPOS` (R37). -/
def avail (s : State) : Nat := s.src.length - s.srcpos

/-- `SrcPeek(n)` (R63); called only when `n ≤ avail`. -/
def srcPeek (n : Nat) (s : State) : Nat := bitsValue ((s.src.drop s.srcpos).take n)

/-- `SrcSkip(n)` (R64). -/
def srcSkip (n : Nat) (s : State) : State := { s with srcpos := s.srcpos + n }

/-! ## Host port -/

/-- A read returns one 32-bit word to the host (R65). -/
def reply (w : Word) (s : State) : State := { s with replies := s.replies ++ [w] }

/-- The host's coming operations. -/
def setScript (l : List HostEvent) (s : State) : State := { s with script := l }

/-- A bad read (R68, R160): it returns 0; with `STATUS.ERR = 0` it raises `BadAccess(A)`, in the faulted block it raises
nothing (R186). -/
def badRead (a : Addr) (s : State) : State := reply 0 (ifLive s (raise .badAccess (a.zeroExtend 32) s))

/-- A bad write (R68, R161): with `STATUS.ERR = 0` it raises `BadAccess(A)`, in the faulted block it is ignored (R186). -/
def badWrite (a : Addr) (s : State) : State := ifLive s (raise .badAccess (a.zeroExtend 32) s)

/-- A host operation that is no row of R87: a bad access. -/
def badAccess : HostOp → State → State
  | .read a, s => badRead a s
  | .write a _, s => badWrite a s

/-- The next thing the host does, taken off its list: an instruction to run in the remaining state, or, on the left, the
state after an event that is no instruction (a bad access; reset, R200; with nothing to do the block does nothing and
keeps all state, R191). -/
def fetch (s : State) : State ⊕ (Instr × State) :=
  match s.script with
  | [] => .inl s
  | .reset :: rest => .inl (clearBlock (setScript rest s))
  | .op o :: rest =>
    match decodeHostOp o with
    | some i => .inr (i, setScript rest s)
    | none => .inl (badAccess o (setScript rest s))

/-- The host's next operation is the one the table's bits stand for (log 1); with bits that are no encoding, nothing
is placed. -/
def placeTableWord (s : State) (nbits w : Nat) : State :=
  match tableEncoding nbits w with
  | some e => setScript (.op (issue e) :: s.script) s
  | none => s

end Sys2Proof.Machine
end

