-- ==== Sys2Proof/Machine/Flags.lean ====
section
/-! DEFINITION. The flags of the block, all of them in `STATUS` (10_state.md R25): the validity flags `CODEV` and `DTABV`
and how each event sets them (R39), and `STATUS` as one word. -/

namespace Sys2Proof.Machine

/-- `STATUS.CODEV <- c; STATUS.DTABV <- d`. -/
def setFlags (c d : Bool) (s : State) : State := { s with codev := c, dtabv := d }

/-- `inval` of R39: CODE and DTAB are not current. -/
def inval (s : State) : State := setFlags false false s

/-- The codes were just assigned, the decode table was not built since (R39: `CCA`, `ENCB`). -/
def codesBuilt (s : State) : State := setFlags true false s

/-- `DTABV <- 1`, `CODEV` unchanged (R39: `HDT`). -/
def tableBuilt (s : State) : State := setFlags s.codev true s

/-- Codes and decode table were just built (R39: `DECB`). -/
def allBuilt (s : State) : State := setFlags true true s

/-- `STATUS` as read on the port: bit 0 `CODEV`, bit 1 `DTABV`, bits 15:8 `ERR`, every other bit 0 (R25, R160). -/
def statusWord (s : State) : Word :=
  (0 : BitVec 16) ++ s.err ++ (0 : BitVec 6) ++ BitVec.ofBool s.dtabv ++ BitVec.ofBool s.codev

end Sys2Proof.Machine
end

