-- ==== Sys2Proof/Machine/Operands.lean ====
section
/-! DEFINITION. The operand forms: a table word by index (45_host_access_and_control.md R160, R161: one addressing mode,
absolute), a value written to a register or a table, and the symbol operand of `ENC`. -/

namespace Sys2Proof.Machine

/-- The index names a word of WEIGHT, LEN or CODE: `i < N_CAP`, whatever `NSYM` (R66). -/
abbrev inTable (i : BitVec 16) : Prop := i.toNat < Config.nCap

/-- The index names a slot of DTAB: `v < 32768`, whatever `MAXLEN` (R66). -/
abbrev inDtab (i : BitVec 16) : Prop := i.toNat < Config.dtabDepth

/-- A read of the word `w` at address `a` (R160): it returns `w` if the address is mapped, in the faulted block too;
otherwise it is a bad read. No read of a mapped word changes any state of the block (R69). -/
def tableRead (mapped : Prop) [Decidable mapped] (a : Addr) (w : Word) (s : State) : State :=
  if mapped then reply w s else badRead a s

/-- A write at address `a` (R161, R185): ignored in the faulted block; an unmapped address raises `BadAccess(A)`, tested
before the value; a value out of range raises `InvalidConfig(v)`; else the effect `t`. A faulting write stores nothing. -/
def checkedWrite (mapped : Prop) [Decidable mapped] (legal : Prop) [Decidable legal] (a : Addr) (v : Word)
    (s t : State) : State :=
  ifLive s
    (if mapped then (if legal then t else raise .invalidConfig v s) else raise .badAccess (a.zeroExtend 32) s)

/-- A legal value of `NSYM`: `v ≤ N_CAP` (R27, R67). -/
abbrev legalNsym (v : Word) : Prop := v.toNat ≤ Config.nCap

/-- A legal value of `MAXLEN`: `1 ≤ v ≤ 15` (R31, R67). -/
abbrev legalMaxlen (v : Word) : Prop := 1 ≤ v.toNat ∧ v.toNat ≤ Config.maxlenCap

/-- A legal value of `LEN[i]`: `v[31:8] = 0` (R67). -/
abbrev legalLen (v : Word) : Prop := v.extractLsb' 8 24 = 0

/-- The length of the codeword of symbol `i`, `LEN[i]` (R33). -/
def lenOf (s : State) (i : BitVec 16) : Nat := (s.len.read i.toNat).toNat

/-- The code value of symbol `i`, `CODE[i]` (R34). -/
def codeOf (s : State) (i : BitVec 16) : Nat := (s.code.read i.toNat).toNat

end Sys2Proof.Machine
end

