-- ==== Sys2Proof/Machine/CodeAssigner.lean ====
section
/-! DEFINITION. The canonical code assigner, command `CCA` (41_code_assigner.md). -/

namespace Sys2Proof.Machine

/-- "ascending by length, then by symbol id" (R120, R121), on pairs of a length and a symbol. -/
abbrev pairLe (a b : Nat × Nat) : Prop := a.1 < b.1 ∨ (a.1 = b.1 ∧ a.2 ≤ b.2)

/-- The pairs of every symbol below `p` with nonzero length, by symbol (R121). -/
def lengthPairs (p : Nat) (len : Memory 8) : List (Nat × Nat) :=
  ((List.range p).filter (fun i => decide (len.read i ≠ 0))).map (fun i => ((len.read i).toNat, i))

/-- The pairs, sorted ascending by length, then by symbol id (R121). -/
def sortedPairs (p : Nat) (len : Memory 8) : List (Nat × Nat) := (lengthPairs p len).insertionSort pairLe

/-- The lowest index below `p` whose length exceeds `MAXLEN` (R122). -/
def overlong (p m : Nat) (len : Memory 8) : Option Nat :=
  (List.range p).find? (fun i => decide (m < (len.read i).toNat))

/-- The assignment over sorted pairs, with the running `bits` and `current_length` and the table made so far (R121); the
symbol at which `bits` would not fit its length (R123) is the error. -/
def assignFrom : List (Nat × Nat) → (bits cur : Nat) → Memory 16 → Except Nat (Memory 16)
  | [], _, _, c => .ok c
  | (l, i) :: rest, bits, cur, c =>
    let b := bits * 2 ^ (l - cur)
    if b < 2 ^ l then assignFrom rest (b + 1) l (c.write i (BitVec.ofNat 16 b)) else .error i

/-- What `CCA` computes from the length table (R120): the code table, or the symbol at which a check fails; the length
bound is checked first, for the whole table. -/
def assignCodes (p m : Nat) (len : Memory 8) : Except Nat (Memory 16) :=
  match overlong p m len with
  | some i => .error i
  | none => assignFrom (sortedPairs p len) 0 1 []

/-- The effect of `CCA` in a live block (R120). -/
def assignEffect (s : State) : State :=
  match assignCodes (npad s) s.maxlen.toNat s.len with
  | .error i => raise .invalidLengthTable (BitVec.ofNat 32 i) s
  | .ok c => codesBuilt (commitCode (npad s) c s)

/-- `CCA` (R120). -/
def execCca (s : State) : Host.Outcome State Fault Refusal := .next (ifLive s (assignEffect s))

end Sys2Proof.Machine
end

