-- ==== Sys2Proof/Machine/DecodeTable.lean ====
section
/-! DEFINITION. The decode table, command `HDT` (42_decode_table.md). -/

namespace Sys2Proof.Machine

/-- `for j in 0 .. count-1: T'[base + j] := (valid = 1, sym = i)` (R130). -/
def fillSlots (base count i : Nat) (t : Memory 17) : Memory 17 := t.fill base count (validSlot (BitVec.ofNat 16 i))

/-- The slots of symbol `i`, if it is active: its code, shifted left by `MAXLEN - L`, and the `2^(MAXLEN-L)` slots from
there on (R131). -/
def fillSymbol (m : Nat) (len : Memory 8) (code : Memory 16) (t : Memory 17) (i : Nat) : Memory 17 :=
  if len.read i = 0 then t
  else
    let l := (len.read i).toNat
    fillSlots ((code.read i).toNat * 2 ^ (m - l)) (2 ^ (m - l)) i t

/-- What `HDT` computes (R130): from a table of slots all `(0, 0)`, the slots of every active symbol below `p`. -/
def buildTable (p m : Nat) (len : Memory 8) (code : Memory 16) : Memory 17 :=
  (List.range p).foldl (fillSymbol m len code) []

/-- The effect of `HDT` in a live block (R130). -/
def tableEffect (s : State) : State :=
  if s.codev then
    tableBuilt (commitDtab (2 ^ s.maxlen.toNat) (buildTable (npad s) s.maxlen.toNat s.len s.code) s)
  else raise .notReady 0x00000003 s

/-- `HDT` (R130). -/
def execHdt (s : State) : Host.Outcome State Fault Refusal := .next (ifLive s (tableEffect s))

end Sys2Proof.Machine
end

