-- ==== Sys2Proof/Machine/Decoder.lean ====
section
/-! DEFINITION. The decoder, commands `DECB` and `DEC` (44_decoder.md). -/

namespace Sys2Proof.Machine

/-- The effect of `DECB` in a live block (R150): the values of `CCA`, then the values `HDT` computes from them, and one
commit. -/
def decoderEffect (s : State) : State :=
  match assignCodes (npad s) s.maxlen.toNat s.len with
  | .error i => raise .invalidLengthTable (BitVec.ofNat 32 i) s
  | .ok c =>
    allBuilt (commitDtab (2 ^ s.maxlen.toNat) (buildTable (npad s) s.maxlen.toNat s.len c)
      (commitCode (npad s) c s))

/-- `DECB` (R150). -/
def execDecb (s : State) : Host.Outcome State Fault Refusal := .next (ifLive s (decoderEffect s))

/-- The slot the next `MAXLEN` bits of the source name (R151). -/
def peekedSlot (s : State) : BitVec 17 := s.dtab.read (srcPeek s.maxlen.toNat s)

/-- The effect of `DEC` in a live block (R151): three checks in order, then the symbol's length is skipped and the symbol
is the result. -/
def decodeEffect (s : State) : State :=
  if s.dtabv then
    if s.maxlen.toNat ≤ avail s then
      if slotValid (peekedSlot s) then
        setResult (slotSym (peekedSlot s)) (srcSkip (lenOf s (slotSym (peekedSlot s))) s)
      else raise .invalidCode (BitVec.ofNat 32 (srcPeek s.maxlen.toNat s)) s
    else raise .truncatedStream (BitVec.ofNat 32 (avail s)) s
  else raise .notReady 0x00000007 s

/-- `DEC` (R151). -/
def execDec (s : State) : Host.Outcome State Fault Refusal := .next (ifLive s (decodeEffect s))

end Sys2Proof.Machine
end

