-- ==== Sys2Proof/Machine/LengthBuilder.lean ====
section
/-! DEFINITION. The length builder, command `HLB` (40_length_builder.md): Huffman tree construction on transformed weights,
with the weight-shrinking retry. All arithmetic is on naturals, exact (R10, R12, R103). -/

namespace Sys2Proof.Machine

/-- A node of an attempt's tree (R103): a leaf with its symbol and transformed weight, or an internal node with its
creation index, its weight and its two children. -/
inductive Node where
  | leaf (sym w : Nat)
  | internal (k w : Nat) (c0 c1 : Node)
deriving DecidableEq, Repr

/-- `w(a)` (R103). -/
def nodeWeight : Node → Nat
  | .leaf _ w => w
  | .internal _ w _ _ => w

/-- The tie-break between nodes of equal weight, clauses 2 to 4 of R104: an internal node before a leaf (clause 2, the
spec's own, log 9), of two leaves the higher symbol, of two internal nodes the one created earlier. -/
def tieBefore : Node → Node → Bool
  | .internal _ _ _ _, .leaf _ _ => true
  | .leaf _ _, .internal _ _ _ _ => false
  | .leaf i _, .leaf j _ => decide (j < i)
  | .internal k _ _ _, .internal l _ _ _ => decide (k < l)

/-- The extraction order (R104): node `a` is before node `b`. -/
def nodeBefore (a b : Node) : Bool :=
  decide (nodeWeight a < nodeWeight b) || (decide (nodeWeight a = nodeWeight b) && tieBefore a b)

/-- `extract_first(Q)` on the nonempty `Q = n, rest` (R104): the node before every other, and the others. -/
def extractFirst (n : Node) : List Node → Node × List Node
  | [] => (n, [])
  | m :: rest =>
    if nodeBefore m n then
      let r := extractFirst m rest
      (r.1, n :: r.2)
    else
      let r := extractFirst n rest
      (r.1, m :: r.2)

/-- The merging of R105 on the nonempty `Q = n, rest`: the two first nodes become the children of a new internal node
of their weights' sum, until one node, the root, is left. Each turn makes `Q` one node smaller, so `fuel = |Q| - 1` turns
are all there are. -/
def mergeNodes : (fuel k : Nat) → Node → List Node → Node
  | 0, _, n, _ => n
  | fuel + 1, k, n, rest =>
    match extractFirst n rest with
    | (a, []) => a
    | (a, m :: rest1) =>
      match extractFirst m rest1 with
      | (b, rest2) => mergeNodes fuel (k + 1) (.internal k (nodeWeight a + nodeWeight b) a b) rest2

/-- The leaves below a node, each symbol with its depth, when the node's own depth is `d` (R106). -/
def leafDepths : Node → Nat → List (Nat × Nat)
  | .leaf i _, d => [(i, d)]
  | .internal _ _ c0 c1, d => leafDepths c0 (d + 1) ++ leafDepths c1 (d + 1)

/-- The active symbols, ascending: `i < N` with `WEIGHT[i] ≠ 0` (R100). -/
def activeSymbols (n : Nat) (weight : Memory 32) : List Nat :=
  (List.range n).filter (fun i => decide (weight.read i ≠ 0))

/-- The transformed weight `max(w >> s, 1)` (R102, R10). -/
def transformed (s w : Nat) : Nat := max (w / 2 ^ s) 1

/-- The leaves an attempt starts from (R103). -/
def attemptLeaves (act : List Nat) (weight : Memory 32) (s : Nat) : List Node :=
  act.map (fun i => .leaf i (transformed s (weight.read i).toNat))

/-- One attempt with shrink exponent `s` (R102 to R106): every active symbol with the depth of its leaf. -/
def attempt (act : List Nat) (weight : Memory 32) (s : Nat) : List (Nat × Nat) :=
  match attemptLeaves act weight s with
  | [] => []
  | n :: rest => leafDepths (mergeNodes rest.length 0 n rest) 0

/-- The attempt's height is at most `MAXLEN` (R107). -/
def fits (m : Nat) (d : List (Nat × Nat)) : Bool := d.all (fun p => decide (p.2 ≤ m))

/-- The retry loop from exponent `s` on, `fuel` attempts long (R108): the first attempt that succeeds, and its exponent. -/
def retryFrom (act : List Nat) (weight : Memory 32) (m : Nat) : (fuel s : Nat) → Option (List (Nat × Nat) × Nat)
  | 0, _ => none
  | fuel + 1, s =>
    if fits m (attempt act weight s) then some (attempt act weight s, s)
    else retryFrom act weight m fuel (s + 1)

/-- The length table of recorded depths: `L'[i] := d[i]`, every other entry 0 (R100). -/
def lengthTable (d : List (Nat × Nat)) : Memory 8 :=
  d.foldl (fun t p => t.write p.1 (BitVec.ofNat 8 p.2)) []

/-- What `HLB` computes (R100): the length table and the shrink exponent, or the active count when no attempt with
`s = 0, 1, ..., 32` succeeds. The special cases (R101) build no tree. -/
def buildLengths (n m : Nat) (weight : Memory 32) : Except Nat (Memory 8 × Nat) :=
  match activeSymbols n weight with
  | [] => .ok ([], 0)
  | [a] => .ok (lengthTable [(a, 1)], 0)
  | act =>
    match retryFrom act weight m (Config.sCap + 1) 0 with
    | some (d, s) => .ok (lengthTable d, s)
    | none => .error act.length

/-- The effect of `HLB` in a live block (R100): on success LEN, `SHRINK` and the flags; on the fault nothing but the
fault. -/
def lengthEffect (s : State) : State :=
  match buildLengths s.nsym.toNat s.maxlen.toNat s.weight with
  | .error a => raise .lengthLimitInfeasible (BitVec.ofNat 32 a) s
  | .ok (t, sh) => inval (setShrink (BitVec.ofNat 6 sh) (commitLen (npad s) t s))

/-- `HLB` (R100). -/
def execHlb (s : State) : Host.Outcome State Fault Refusal := .next (ifLive s (lengthEffect s))

end Sys2Proof.Machine
end

