-- ==== Sys2Proof/Machine/Encoder.lean ====
section
/-! DEFINITION. The encoder, commands `ENCB` and `ENC` (43_encoder.md). -/

namespace Sys2Proof.Machine

/-- The effect of `ENCB` in a live block (R140): the values of `HLB`, then the values `CCA` computes from them, and one
commit. The second fault cannot happen on a table `HLB` made (R140; log 7). -/
def encoderEffect (s : State) : State :=
  match buildLengths s.nsym.toNat s.maxlen.toNat s.weight with
  | .error a => raise .lengthLimitInfeasible (BitVec.ofNat 32 a) s
  | .ok (t, sh) =>
    match assignCodes (npad s) s.maxlen.toNat t with
    | .error i => raise .invalidLengthTable (BitVec.ofNat 32 i) s
    | .ok c => codesBuilt (setShrink (BitVec.ofNat 6 sh) (commitCode (npad s) c (commitLen (npad s) t s)))

/-- `ENCB` (R140). -/
def execEncb (s : State) : Host.Outcome State Fault Refusal := .next (ifLive s (encoderEffect s))

/-- The effect of `ENC sym` in a live block (R141): three checks in order, then the codeword is put. -/
def encodeEffect (sym : BitVec 16) (s : State) : State :=
  if s.codev then
    if sym.toNat < npad s then
      if lenOf s sym ≠ 0 then sinkPut (lenOf s sym) (codeOf s sym) s
      else raise .invalidSymbol (sym.zeroExtend 32) s
    else raise .invalidSymbol (sym.zeroExtend 32) s
  else raise .notReady (commandWord sym 0x06) s

/-- `ENC sym` (R141). -/
def execEnc (sym : BitVec 16) (s : State) : Host.Outcome State Fault Refusal := .next (ifLive s (encodeEffect sym s))

end Sys2Proof.Machine
end

