-- ==== Sys2Proof/Machine/HostAccess.lean ====
section
/-! DEFINITION. The host operations `RD` and `WR` and the command `CLR` (45_host_access_and_control.md). -/

namespace Sys2Proof.Machine

/-- `CLR` (R165): the only command with an effect in the faulted block. -/
def execClr (s : State) : Host.Outcome State Fault Refusal := .next (clearBlock s)

/-- The command a word written to `CMD` is (R24, R82): the command's own meaning. What `decodeCommand` never gives, a
host operation, is no command. -/
def runCommand (v : Word) (s : State) : Host.Outcome State Fault Refusal :=
  match decodeCommand v with
  | some .hlb => execHlb s
  | some .cca => execCca s
  | some .hdt => execHdt s
  | some .encb => execEncb s
  | some .decb => execDecb s
  | some (.enc sym) => execEnc sym s
  | some .dec => execDec s
  | some .clr => execClr s
  | _ => .next (raise .illegalCommand v s)

/-- `WR CMD` (R24, R161): in the faulted block only the exact `CLR` word does anything (R186); in a live block the word is
decoded and the command executed, an illegal word raises `IllegalCommand(v)` (R174). -/
def execWrCmd (v : Word) (s : State) : Host.Outcome State Fault Refusal :=
  if faulted s then (if v = 0x00000008 then execClr s else .next s) else runCommand v s

/-- `RD CMD` returns 0 (R24). -/
def execRdCmd (s : State) : Host.Outcome State Fault Refusal := .next (reply 0 s)

/-- `RD STATUS` (R25). -/
def execRdStatus (s : State) : Host.Outcome State Fault Refusal := .next (reply (statusWord s) s)

/-- `RD ERRINFO` (R26). -/
def execRdErrinfo (s : State) : Host.Outcome State Fault Refusal := .next (reply s.errinfo s)

/-- `RD NSYM` (R27). -/
def execRdNsym (s : State) : Host.Outcome State Fault Refusal := .next (reply (s.nsym.zeroExtend 32) s)

/-- `WR NSYM, v` (R27, R161). -/
def execWrNsym (v : Word) (s : State) : Host.Outcome State Fault Refusal :=
  .next (checkedWrite True (legalNsym v) (addr 0 3) v s (inval (setNsym (v.setWidth 17) s)))

/-- `RD MAXLEN` (R31). -/
def execRdMaxlen (s : State) : Host.Outcome State Fault Refusal := .next (reply (s.maxlen.zeroExtend 32) s)

/-- `WR MAXLEN, v` (R31, R161). -/
def execWrMaxlen (v : Word) (s : State) : Host.Outcome State Fault Refusal :=
  .next (checkedWrite True (legalMaxlen v) (addr 0 4) v s (inval (setMaxlen (v.setWidth 4) s)))

/-- `RD NPAD` (R28). -/
def execRdNpad (s : State) : Host.Outcome State Fault Refusal := .next (reply (BitVec.ofNat 32 (npad s)) s)

/-- `RD SHRINK` (R29). -/
def execRdShrink (s : State) : Host.Outcome State Fault Refusal := .next (reply (s.shrink.zeroExtend 32) s)

/-- `RD RESULT` (R30). -/
def execRdResult (s : State) : Host.Outcome State Fault Refusal := .next (reply (s.result.zeroExtend 32) s)

/-- `RD WEIGHT[i]` (R32, R160). -/
def execRdWeight (i : BitVec 16) (s : State) : Host.Outcome State Fault Refusal :=
  .next (tableRead (inTable i) (addr 1 i) (s.weight.read i.toNat) s)

/-- `WR WEIGHT[i], v` (R32, R161): no flag is touched. -/
def execWrWeight (i : BitVec 16) (v : Word) (s : State) : Host.Outcome State Fault Refusal :=
  .next (checkedWrite (inTable i) True (addr 1 i) v s (setWeight i.toNat v s))

/-- `RD LEN[i]` (R33, R160). -/
def execRdLen (i : BitVec 16) (s : State) : Host.Outcome State Fault Refusal :=
  .next (tableRead (inTable i) (addr 2 i) ((s.len.read i.toNat).zeroExtend 32) s)

/-- `WR LEN[i], v` (R33, R161): CODE and DTAB are no longer current. -/
def execWrLen (i : BitVec 16) (v : Word) (s : State) : Host.Outcome State Fault Refusal :=
  .next (checkedWrite (inTable i) (legalLen v) (addr 2 i) v s (inval (setLen i.toNat (v.setWidth 8) s)))

/-- `RD CODE[i]` (R34, R160). -/
def execRdCode (i : BitVec 16) (s : State) : Host.Outcome State Fault Refusal :=
  .next (tableRead (inTable i) (addr 3 i) ((s.code.read i.toNat).zeroExtend 32) s)

/-- `RD DTAB[v]` (R35, R160): the slot, `valid` at bit 16 and `sym` below it. -/
def execRdDtab (i : BitVec 16) (s : State) : Host.Outcome State Fault Refusal :=
  .next (tableRead (inDtab i) (addr 4 i) ((s.dtab.read i.toNat).zeroExtend 32) s)

end Sys2Proof.Machine
end

