-- ==== Sys2Proof/Machine/Dispatch.lean ====
section
/-! DEFINITION. One arm per instruction, each one direct call of the instruction's meaning. -/

namespace Sys2Proof.Machine

def exec (i : Instr) (s : State) : Host.Outcome State Fault Refusal :=
  match i with
  | .hlb => Sys2Proof.Machine.execHlb s
  | .cca => Sys2Proof.Machine.execCca s
  | .hdt => Sys2Proof.Machine.execHdt s
  | .encb => Sys2Proof.Machine.execEncb s
  | .decb => Sys2Proof.Machine.execDecb s
  | .enc sym => Sys2Proof.Machine.execEnc sym s
  | .dec => Sys2Proof.Machine.execDec s
  | .clr => Sys2Proof.Machine.execClr s
  | .wrCmd v => Sys2Proof.Machine.execWrCmd v s
  | .rdCmd => Sys2Proof.Machine.execRdCmd s
  | .rdStatus => Sys2Proof.Machine.execRdStatus s
  | .rdErrinfo => Sys2Proof.Machine.execRdErrinfo s
  | .rdNsym => Sys2Proof.Machine.execRdNsym s
  | .wrNsym v => Sys2Proof.Machine.execWrNsym v s
  | .rdMaxlen => Sys2Proof.Machine.execRdMaxlen s
  | .wrMaxlen v => Sys2Proof.Machine.execWrMaxlen v s
  | .rdNpad => Sys2Proof.Machine.execRdNpad s
  | .rdShrink => Sys2Proof.Machine.execRdShrink s
  | .rdResult => Sys2Proof.Machine.execRdResult s
  | .rdWeight j => Sys2Proof.Machine.execRdWeight j s
  | .wrWeight j v => Sys2Proof.Machine.execWrWeight j v s
  | .rdLen j => Sys2Proof.Machine.execRdLen j s
  | .wrLen j v => Sys2Proof.Machine.execWrLen j v s
  | .rdCode j => Sys2Proof.Machine.execRdCode j s
  | .rdDtab j => Sys2Proof.Machine.execRdDtab j s

end Sys2Proof.Machine
end

