-- ==== Sys2Proof/Machine/Step.lean ====
section
/-! DEFINITION. One step: the next thing the host does, wholly (20_memory.md R70). -/

namespace Sys2Proof.Machine

/-- One step. The block fetches nothing (R22): the host's next operation is taken off `script`; a row of R87 runs, a bad
access or reset has its effect, and with nothing to do the state stays as it is (R191). -/
def step (s : State) : Host.Outcome State Fault Refusal :=
  match fetch s with
  | .inl t => .next t
  | .inr (i, t) => exec i t

/-- The state in which the host's next operation is the one with the table's bits (log 1): the very next step runs it. -/
def State.withFetchWord (s : State) (nbits w : Nat) : State := placeTableWord s nbits w

end Sys2Proof.Machine
end

