-- ==== Sys2Proof/Safety.lean ====
section
/-! DEFINITION. What counts as a legal state and a safe run of the block: the promises 10_state.md R20 to R41 make about
its state, the Kraft sum, codewords as bit sequences, and the value of the host port's map. -/

namespace Sys2Proof.Machine

/-! ## Legal states -/

/-- A table of `d` words in canonical form (R32 to R35). -/
abbrev Memory.tableOf {n : Nat} (d : Nat) (m : Memory n) : Prop := m.wf ∧ ∀ e ∈ m, e.1 < d

/-- The four tables are tables of their depth (R32 to R35, R66). -/
abbrev TablesCanonical (s : State) : Prop :=
  s.weight.tableOf Config.nCap ∧ s.len.tableOf Config.nCap ∧ s.code.tableOf Config.nCap ∧
    s.dtab.tableOf Config.dtabDepth

/-- The registers hold legal values: `NSYM ≤ N_CAP` (R27), `1 ≤ MAXLEN` (R31; at most 15 by its width), no `ERR` code above
9 (R173), `ERRINFO = 0` while `ERR = 0` (R26), `SHRINK ≤ 32` (R29), `DTABV = 1` only with `CODEV = 1` (R40). -/
abbrev RegistersLegal (s : State) : Prop :=
  s.nsym.toNat ≤ Config.nCap ∧ 1 ≤ s.maxlen.toNat ∧ s.err.toNat ≤ 9 ∧ (s.err = 0 → s.errinfo = 0) ∧
    s.shrink.toNat ≤ Config.sCap ∧ (s.dtabv = true → s.codev = true)

/-- `CODEV = 1`: the present length table passes the checks of `CCA` and CODE is what `CCA` computes from it (R25, R40). -/
def CodesCurrent (s : State) : Prop :=
  s.codev = true →
    ∃ c, assignCodes (npad s) s.maxlen.toNat s.len = .ok c ∧ ∀ i < npad s, s.code.read i = c.read i

/-- `DTABV = 1`: DTAB is what `HDT` computes from the present LEN, CODE and `MAXLEN` (R25, R40). -/
def TableCurrent (s : State) : Prop :=
  s.dtabv = true →
    ∀ v < 2 ^ s.maxlen.toNat, s.dtab.read v = (buildTable (npad s) s.maxlen.toNat s.len s.code).read v

/-- The read cursor is inside the source: `SRCPOS ≤ |SRC|` (R37). -/
abbrev CursorInside (s : State) : Prop := s.srcpos ≤ s.src.length

/-- Everything the spec promises of a state a run can be in. -/
structure Inv (s : State) : Prop where
  tables : TablesCanonical s
  registers : RegistersLegal s
  codes : CodesCurrent s
  table : TableCurrent s
  cursor : CursorInside s

/-- Every piece of block state holds its reset value (R41); the bit ports are no part of it. -/
def AtReset (s : State) : Prop :=
  s.codev = false ∧ s.dtabv = false ∧ s.err = 0 ∧ s.errinfo = 0 ∧ s.nsym = 0 ∧ npad s = 0 ∧ s.maxlen = 15 ∧
    s.shrink = 0 ∧ s.result = 0 ∧ (∀ i, s.weight.read i = 0) ∧ (∀ i, s.len.read i = 0) ∧ (∀ i, s.code.read i = 0) ∧
    ∀ v, s.dtab.read v = 0

/-! ## Length tables and codewords -/

/-- Symbol `i` is active in a length table of `p` entries: `i < p` and `LEN[i] ≠ 0` (00_scope.md, glossary). -/
abbrev activeIn (p : Nat) (len : Memory 8) (i : Nat) : Prop := i < p ∧ len.read i ≠ 0

/-- The Kraft sum of `LEN[0..p-1]`, scaled by `2^m` (00_scope.md, glossary): it is at most 1 iff this is at most `2^m`, for
lengths at most `m`. -/
def kraftScaled (m p : Nat) (len : Memory 8) : Nat :=
  ∑ i ∈ Finset.range p, if len.read i = 0 then 0 else 2 ^ (m - (len.read i).toNat)

/-- The codeword of symbol `i` as a bit sequence, most significant bit first (R6). -/
def codeword (s : State) (i : Nat) : List Bool := bitsMsbFirst (s.len.read i).toNat (s.code.read i).toNat

/-! ## The host port's map -/

/-- `value(A)` of R160: the word a read of a mapped address returns; `none` where no element is mapped (R66). -/
def portValue (s : State) (a : Addr) : Option Word :=
  let r := a.toNat / 65536
  let i := a.toNat % 65536
  if r = 0 then
    if i = 0 then some 0
    else if i = 1 then some (BitVec.ofNat 32 (s.err.toNat * 256 + s.dtabv.toNat * 2 + s.codev.toNat))
    else if i = 2 then some s.errinfo
    else if i = 3 then some (BitVec.ofNat 32 s.nsym.toNat)
    else if i = 4 then some (BitVec.ofNat 32 s.maxlen.toNat)
    else if i = 5 then some (BitVec.ofNat 32 (s.nsym.toNat + s.nsym.toNat % 2))
    else if i = 6 then some (BitVec.ofNat 32 s.shrink.toNat)
    else if i = 7 then some (BitVec.ofNat 32 s.result.toNat)
    else none
  else if r = 1 then (if i < Config.nCap then some (s.weight.read i) else none)
  else if r = 2 then (if i < Config.nCap then some (BitVec.ofNat 32 (s.len.read i).toNat) else none)
  else if r = 3 then (if i < Config.nCap then some (BitVec.ofNat 32 (s.code.read i).toNat) else none)
  else if r = 4 then (if i < 32768 then some (BitVec.ofNat 32 (s.dtab.read i).toNat) else none)
  else none

/-! ## Runs -/

/-- Instructions executed one after another, each wholly (R70). -/
def execAll : List Instr → State → Host.Outcome State Fault Refusal
  | [], s => .next s
  | i :: rest, s =>
    match exec i s with
    | .next t => execAll rest t
    | .fault f => .fault f
    | .refused r => .refused r

end Sys2Proof.Machine
end

