-- ==== Sys2Proof/Certificates/Slice0/Obligations.lean ====
section
/-! DEFINITION. The statements about the block, for the provers. Each docstring names the rule of spec/ it formalises. -/

open Sys2Proof Sys2Proof.Machine

/-! ## Encoding -/

/-- 30_encoding.md, tables of R83 and R87: decoding the encoding of a well-formed instruction gives it back. -/
def Obligations.DecodeInvertsEncode : Prop := ∀ i : Instr, WellFormed i = true → decode (encode i) = some i

/-- R83: a word is a command iff `w & mask = match`, and no word matches two rows. -/
def Obligations.CommandWordMatchesItsRow : Prop :=
  ∀ w : Word,
    (decodeCommand w = some .hlb ↔ w &&& 0xFFFFFFFF = 0x00000001) ∧
    (decodeCommand w = some .cca ↔ w &&& 0xFFFFFFFF = 0x00000002) ∧
    (decodeCommand w = some .hdt ↔ w &&& 0xFFFFFFFF = 0x00000003) ∧
    (decodeCommand w = some .encb ↔ w &&& 0xFFFFFFFF = 0x00000004) ∧
    (decodeCommand w = some .decb ↔ w &&& 0xFFFFFFFF = 0x00000005) ∧
    (∀ sym, decodeCommand w = some (.enc sym) ↔ w &&& 0x0000FFFF = 0x00000006 ∧ sym.toNat = w.toNat / 2 ^ 16) ∧
    (decodeCommand w = some .dec ↔ w &&& 0xFFFFFFFF = 0x00000007) ∧
    (decodeCommand w = some .clr ↔ w &&& 0xFFFFFFFF = 0x00000008) ∧
    [((0x00000001 : Word), (0xFFFFFFFF : Word)), (0x00000002, 0xFFFFFFFF), (0x00000003, 0xFFFFFFFF),
      (0x00000004, 0xFFFFFFFF), (0x00000005, 0xFFFFFFFF), (0x00000006, 0x0000FFFF), (0x00000007, 0xFFFFFFFF),
      (0x00000008, 0xFFFFFFFF)].Pairwise (fun a b => ¬(w &&& a.2 = a.1 ∧ w &&& b.2 = b.1))

/-- R84, R174: which words are illegal, and that writing one to `CMD` raises `IllegalCommand(w)` with all 32 bits of
the word, or is ignored in the faulted block. -/
def Obligations.IllegalWordIsAFault : Prop :=
  ∀ w : Word,
    (decodeCommand w = none ↔
      w.toNat % 256 = 0 ∨ 9 ≤ w.toNat % 256 ∨ w.toNat / 256 % 256 ≠ 0 ∨ (w.toNat % 256 ≠ 6 ∧ w.toNat / 65536 ≠ 0)) ∧
    (decodeCommand w = none → ∀ s : State,
      (s.err = 0 → exec (.wrCmd w) s = .next { s with err := 1, errinfo := w }) ∧
      (s.err ≠ 0 → exec (.wrCmd w) s = .next s))

/-- Words written out bit by bit from the tables of R83 and R87: six decode to the instructions they stand for, three are no
row. (A host operation's 21 bits stand as 24, and the value of a write row, which has no bits in its pattern, is 0: the
model's choice, log 1.) -/
def Obligations.WordsWrittenOutDecode : Prop :=
  decodeTableWord 32 0b00000000000000000000000000000001 = some .hlb ∧
  decodeTableWord 32 0b00000000000000110000000000000110 = some (.enc 3) ∧
  decodeTableWord 32 0b00000000000000010000000000000111 = none ∧
  decodeTableWord 24 0b100000000000000000011 = some (.wrNsym 0) ∧
  decodeTableWord 24 0b000000000000000000100 = some .rdMaxlen ∧
  decodeTableWord 24 0b000100000000000001001 = some (.rdLen 9) ∧
  decodeTableWord 24 0b001000111111111111111 = some (.rdDtab 32767) ∧
  decodeTableWord 24 0b001001000000000000000 = none ∧
  decodeTableWord 24 0b100110000000000000000 = none

/-! ## Steps -/

/-- When the host's next operation is a row of R87, a step is `exec` of that row's instruction, the operation taken off
the host's list; and when it writes a command's word to `CMD` (address 0), a step is `exec` of that command. -/
def Obligations.StepRunsTheDecodedInstruction : Prop :=
  ∀ (s : State) (o : HostOp) (rest : List HostEvent), s.script = .op o :: rest →
    (∀ i, decode (.hostOp o) = some i → WellFormed i = true → step s = exec i { s with script := rest }) ∧
    (∀ w i, o = .write 0 w → decode (.command w) = some i → WellFormed i = true →
      step s = exec i { s with script := rest })

/-- Each step takes at most the first event off the host's list, and a read, only, returns one word to the host (R65,
R70); with nothing left to do the block keeps all state (R191). -/
def Obligations.StepConsumesOneEvent : Prop :=
  ∀ s : State, (s.script = [] → step s = .next s) ∧
    ∀ t, step s = .next t → t.script = s.script.tail ∧
      ((∃ a rest, s.script = .op (.read a) :: rest) → ∃ w, t.replies = s.replies ++ [w]) ∧
      ((¬∃ a rest, s.script = .op (.read a) :: rest) → t.replies = s.replies)

/-- R41, R165, R200: after reset, and after `CLR` in any block, every piece of block state holds its reset value; the bit
ports are not touched. (The launch values of the ports are parameters, log 4.) -/
def Obligations.ResetAndClrLeaveResetState : Prop :=
  (∀ sink src srcpos script, AtReset (State.launch sink src srcpos script) ∧
    (State.launch sink src srcpos script).sink = sink ∧ (State.launch sink src srcpos script).src = src ∧
    (State.launch sink src srcpos script).srcpos = srcpos) ∧
  (∀ s : State, ∃ t, exec .clr s = .next t ∧ AtReset t ∧ t.sink = s.sink ∧ t.src = s.src ∧ t.srcpos = s.srcpos ∧
    t.script = s.script ∧ t.replies = s.replies) ∧
  (∀ (s : State) (rest : List HostEvent), s.script = .reset :: rest →
    ∃ t, step s = .next t ∧ AtReset t ∧ t.sink = s.sink ∧ t.src = s.src ∧ t.srcpos = s.srcpos ∧ t.script = rest ∧
      t.replies = s.replies)

/-- R201: what the commands do in the reset state. -/
def Obligations.ResetStateIsTheEmptyAlphabet : Prop :=
  ∀ sink src srcpos script, ∀ s, s = State.launch sink src srcpos script →
    (∀ sym, ∃ w, exec (.enc sym) s = .next { s with err := 4, errinfo := w }) ∧
    (∃ w, exec .dec s = .next { s with err := 4, errinfo := w }) ∧
    (∃ w, exec .hdt s = .next { s with err := 4, errinfo := w }) ∧
    exec .hlb s = .next s ∧
    exec .cca s = .next { s with codev := true } ∧
    exec .encb s = .next { s with codev := true } ∧
    exec .decb s = .next { s with codev := true, dtabv := true } ∧
    exec .hdt { s with codev := true } = .next { s with codev := true, dtabv := true }

/-! ## The host port -/

/-- R160: a read returns `value(A)` where an element is mapped, in the faulted block too, and changes nothing of the
block; elsewhere it returns 0 and, with `STATUS.ERR = 0` only, raises `BadAccess(A)`. -/
def Obligations.ReadReturnsThePortValue : Prop :=
  ∀ (s : State) (a : Addr) (rest : List HostEvent), s.script = .op (.read a) :: rest →
    (∀ w, portValue s a = some w → step s = .next { s with script := rest, replies := s.replies ++ [w] }) ∧
    (portValue s a = none → s.err ≠ 0 → step s = .next { s with script := rest, replies := s.replies ++ [0] }) ∧
    (portValue s a = none → s.err = 0 →
      step s = .next { s with script := rest, replies := s.replies ++ [0], err := 2, errinfo := BitVec.ofNat 32 a.toNat })

/-- The eight register reads complete in every state (R24 to R31): they return the register, zero-extended, and change
nothing of the block. -/
def Obligations.RegisterReadsComplete : Prop :=
  ∀ s : State,
    exec .rdCmd s = .next { s with replies := s.replies ++ [0] } ∧
    exec .rdStatus s = .next { s with replies := s.replies ++
      [BitVec.ofNat 32 (s.codev.toNat + 2 * s.dtabv.toNat + 256 * s.err.toNat)] } ∧
    exec .rdErrinfo s = .next { s with replies := s.replies ++ [s.errinfo] } ∧
    exec .rdNsym s = .next { s with replies := s.replies ++ [BitVec.ofNat 32 s.nsym.toNat] } ∧
    exec .rdMaxlen s = .next { s with replies := s.replies ++ [BitVec.ofNat 32 s.maxlen.toNat] } ∧
    exec .rdShrink s = .next { s with replies := s.replies ++ [BitVec.ofNat 32 s.shrink.toNat] } ∧
    exec .rdResult s = .next { s with replies := s.replies ++ [BitVec.ofNat 32 s.result.toNat] } ∧
    ∃ n, exec .rdNpad s = .next { s with replies := s.replies ++ [BitVec.ofNat 32 n] } ∧ n % 2 = 0 ∧
      s.nsym.toNat ≤ n ∧ n ≤ s.nsym.toNat + 1 ∧ (s.nsym.toNat ≤ Config.nCap → n ≤ Config.nCap)

/-- The four table reads complete for every index of their table, whatever `NSYM`, `MAXLEN` and the flags (R32 to R35,
R160): they return the word and change nothing of the block. -/
def Obligations.TableReadsComplete : Prop :=
  ∀ (s : State) (i : BitVec 16),
    (i.toNat < Config.nCap →
      exec (.rdWeight i) s = .next { s with replies := s.replies ++ [s.weight.read i.toNat] } ∧
      exec (.rdLen i) s = .next { s with replies := s.replies ++ [BitVec.ofNat 32 (s.len.read i.toNat).toNat] } ∧
      exec (.rdCode i) s = .next { s with replies := s.replies ++ [BitVec.ofNat 32 (s.code.read i.toNat).toNat] }) ∧
    (i.toNat < 32768 →
      exec (.rdDtab i) s = .next { s with replies := s.replies ++
        [BitVec.ofNat 32 ((slotValid (s.dtab.read i.toNat)).toNat * 65536 + (slotSym (s.dtab.read i.toNat)).toNat)] })

/-- R161: what a host write does, by address, in a live and in a faulted block. -/
def Obligations.WriteFollowsTheAddressMap : Prop :=
  ∀ (s : State) (a : Addr) (v : Word) (rest : List HostEvent) (u : State),
    s.script = .op (.write a v) :: rest → u = { s with script := rest } →
    (s.err ≠ 0 → a = 0 ∧ v = 8 → step s = exec .clr u) ∧
    (s.err ≠ 0 → ¬(a = 0 ∧ v = 8) → step s = .next u) ∧
    (s.err = 0 →
      (a.toNat = 0 → (∀ i, decodeCommand v = some i → step s = exec i u) ∧
        (decodeCommand v = none → step s = .next { u with err := 1, errinfo := v })) ∧
      (a.toNat = 3 → (v.toNat ≤ Config.nCap →
          step s = .next { u with nsym := BitVec.ofNat 17 v.toNat, codev := false, dtabv := false }) ∧
        (Config.nCap < v.toNat → step s = .next { u with err := 3, errinfo := v })) ∧
      (a.toNat = 4 → (1 ≤ v.toNat ∧ v.toNat ≤ 15 →
          step s = .next { u with maxlen := BitVec.ofNat 4 v.toNat, codev := false, dtabv := false }) ∧
        (¬(1 ≤ v.toNat ∧ v.toNat ≤ 15) → step s = .next { u with err := 3, errinfo := v })) ∧
      (65536 ≤ a.toNat → a.toNat < 65536 + Config.nCap →
        step s = .next { u with weight := u.weight.write (a.toNat - 65536) v }) ∧
      (131072 ≤ a.toNat → a.toNat < 131072 + Config.nCap → (v.toNat < 256 →
          step s = .next { u with
            len := u.len.write (a.toNat - 131072) (BitVec.ofNat 8 v.toNat), codev := false, dtabv := false }) ∧
        (256 ≤ v.toNat → step s = .next { u with err := 3, errinfo := v })) ∧
      (a.toNat ≠ 0 → a.toNat ≠ 3 → a.toNat ≠ 4 → ¬(65536 ≤ a.toNat ∧ a.toNat < 65536 + Config.nCap) →
        ¬(131072 ≤ a.toNat ∧ a.toNat < 131072 + Config.nCap) →
        step s = .next { u with err := 2, errinfo := BitVec.ofNat 32 a.toNat }))

/-- Writes to `NSYM` and `MAXLEN` complete for every legal value in a live block (R27, R31): the register takes the value,
CODE and DTAB are no longer current, and nothing else changes, no table word among it. -/
def Obligations.RegisterWritesComplete : Prop :=
  ∀ (s : State) (v : Word), s.err = 0 →
    (v.toNat ≤ Config.nCap → ∃ n : BitVec 17, n.toNat = v.toNat ∧
      exec (.wrNsym v) s = .next { s with nsym := n, codev := false, dtabv := false }) ∧
    (1 ≤ v.toNat → v.toNat ≤ 15 → ∃ m : BitVec 4, m.toNat = v.toNat ∧
      exec (.wrMaxlen v) s = .next { s with maxlen := m, codev := false, dtabv := false })

/-- Writes to `WEIGHT[i]` and `LEN[i]` complete in a live block for every index below `N_CAP` (R32, R33): that word reads
as the value, every other word as before; a write to WEIGHT touches no flag, a write to LEN clears both. -/
def Obligations.TableWritesComplete : Prop :=
  ∀ (s : State) (i : BitVec 16) (v : Word), s.err = 0 → TablesCanonical s → i.toNat < Config.nCap →
    (∃ m, exec (.wrWeight i v) s = .next { s with weight := m } ∧
      ∀ j, m.read j = if j = i.toNat then v else s.weight.read j) ∧
    (v.toNat < 256 → ∃ m, exec (.wrLen i v) s = .next { s with len := m, codev := false, dtabv := false } ∧
      ∀ j, (m.read j).toNat = if j = i.toNat then v.toNat else (s.len.read j).toNat)

/-- R67: in a live block a value out of range is refused with `InvalidConfig(v)` and stores nothing; every value is legal
for `WEIGHT[i]`; a word to `CMD` is decoded. -/
def Obligations.OutOfRangeValueIsInvalidConfig : Prop :=
  ∀ (s : State) (v : Word), s.err = 0 →
    (∀ i : BitVec 16, i.toNat < Config.nCap → v.toNat / 256 ≠ 0 →
      exec (.wrLen i v) s = .next { s with err := 3, errinfo := v }) ∧
    (Config.nCap < v.toNat → exec (.wrNsym v) s = .next { s with err := 3, errinfo := v }) ∧
    (v.toNat = 0 ∨ 15 < v.toNat → exec (.wrMaxlen v) s = .next { s with err := 3, errinfo := v }) ∧
    (∀ i : BitVec 16, i.toNat < Config.nCap → ∃ m, exec (.wrWeight i v) s = .next { s with weight := m }) ∧
    (∀ i, decodeCommand v = some i → exec (.wrCmd v) s = exec i s) ∧
    (decodeCommand v = none → exec (.wrCmd v) s = .next { s with err := 1, errinfo := v })

/-- R68: in a live block each bad access raises `BadAccess(A)` and does nothing else, a faulting read returning 0; a read of
`CMD` is none. -/
def Obligations.BadAccessIsAFault : Prop :=
  ∀ (s : State) (a : Addr) (rest : List HostEvent) (r i : Nat), s.err = 0 → r = a.toNat / 65536 → i = a.toNat % 65536 →
    (s.script = .op (.read a) :: rest →
      (5 ≤ r ∨ (r = 0 ∧ 8 ≤ i) ∨ ((r = 1 ∨ r = 2 ∨ r = 3) ∧ Config.nCap ≤ i) ∨ (r = 4 ∧ 32768 ≤ i) →
        step s = .next { s with script := rest, replies := s.replies ++ [0], err := 2, errinfo := a.zeroExtend 32 }) ∧
      (a = 0 → step s = .next { s with script := rest, replies := s.replies ++ [0] })) ∧
    (∀ v, s.script = .op (.write a v) :: rest →
      5 ≤ r ∨ (r = 0 ∧ 8 ≤ i) ∨ ((r = 1 ∨ r = 2 ∨ r = 3) ∧ Config.nCap ≤ i) ∨ (r = 4 ∧ 32768 ≤ i) ∨
        (r = 0 ∧ (i = 1 ∨ i = 2 ∨ i = 5 ∨ i = 6 ∨ i = 7)) ∨ r = 3 ∨ r = 4 →
      step s = .next { s with script := rest, err := 2, errinfo := a.zeroExtend 32 })

/-- R24: `CMD` stores nothing; a write decodes the word and executes the command, or, in the faulted block, is ignored
unless it is the `CLR` word; a read returns 0 and changes nothing. -/
def Obligations.CmdWriteExecutesTheCommand : Prop :=
  ∀ (w : Word) (s : State),
    (∀ i, decodeCommand w = some i → ∃ t, exec i s = .next t ∧ exec (.wrCmd w) s = .next t) ∧
    (s.err ≠ 0 → w ≠ 0x00000008 → exec (.wrCmd w) s = .next s) ∧
    exec .rdCmd s = .next { s with replies := s.replies ++ [0] }

/-! ## Faults -/

/-- R171, R172: an operation that raises a fault in a live block changes no state other than `STATUS.ERR` and `ERRINFO`,
whatever the operation; a faulting read returns 0. -/
def Obligations.FaultsArePrecise : Prop :=
  ∀ s t : State, s.err = 0 → step s = .next t → t.err ≠ 0 →
    1 ≤ t.err.toNat ∧ t.err.toNat ≤ 9 ∧
    ((∃ a rest, s.script = .op (.read a) :: rest ∧
        t = { s with script := rest, replies := s.replies ++ [0], err := t.err, errinfo := t.errinfo }) ∨
      (∃ a v rest, s.script = .op (.write a v) :: rest ∧
        t = { s with script := rest, err := t.err, errinfo := t.errinfo }))

/-- R186: the faulted block: every write but `CLR` is ignored, every read of a mapped address returns the stored value and
of any other returns 0, no operation raises a fault, the `CLR` word clears the block, and `ERR` and `ERRINFO` stay until
`CLR` or reset. -/
def Obligations.FaultedBlockIgnoresAllButClr : Prop :=
  ∀ (s : State) (rest : List HostEvent), s.err ≠ 0 →
    (∀ a v, s.script = .op (.write a v) :: rest → ¬(a = 0 ∧ v = 0x00000008) → step s = .next { s with script := rest }) ∧
    (∀ a, s.script = .op (.read a) :: rest →
      step s = .next { s with script := rest, replies := s.replies ++ [(portValue s a).getD 0] }) ∧
    (s.script = .op (.write 0 0x00000008) :: rest → ∃ t, step s = .next t ∧ AtReset t) ∧
    (∀ t, step s = .next t → (t.err = s.err ∧ t.errinfo = s.errinfo) ∨
      s.script.head? = some .reset ∨ s.script.head? = some (.op (.write 0 0x00000008)))

/-- R173, R185: which instruction raises which fault in a live block, for which cause, with what recorded. (The cause of
code 5 is stated as the failing attempts; `WR CMD` raises what its command raises; a slot index from 32768 on belongs to no
well-formed `RD DTAB`, whose meaning on it is the model's choice, log 10.) -/
def Obligations.EachFaultHasItsCause : Prop :=
  ∀ (i : Instr) (s t : State), s.err = 0 → 1 ≤ s.maxlen.toNat → exec i s = .next t → t.err ≠ 0 →
    (∃ w, i = .wrCmd w) ∨
    (t.err = 2 ∧ ∃ (k : BitVec 16) (r : Nat), t.errinfo = BitVec.ofNat 32 (r * 65536 + k.toNat) ∧
      ((Config.nCap ≤ k.toNat ∧ ((r = 1 ∧ (i = .rdWeight k ∨ ∃ v, i = .wrWeight k v)) ∨
          (r = 2 ∧ (i = .rdLen k ∨ ∃ v, i = .wrLen k v)) ∨ (r = 3 ∧ i = .rdCode k))) ∨
        (32768 ≤ k.toNat ∧ r = 4 ∧ i = .rdDtab k))) ∨
    (t.err = 3 ∧ ∃ v, t.errinfo = v ∧ ((i = .wrNsym v ∧ Config.nCap < v.toNat) ∨
      (i = .wrMaxlen v ∧ ¬(1 ≤ v.toNat ∧ v.toNat ≤ 15)) ∨ ∃ k, i = .wrLen k v ∧ 256 ≤ v.toNat)) ∨
    (t.err = 4 ∧ ((i = .hdt ∧ s.codev = false ∧ t.errinfo = 3) ∨
      (∃ sym : BitVec 16, i = .enc sym ∧ s.codev = false ∧ t.errinfo = BitVec.ofNat 32 (sym.toNat * 65536 + 6)) ∨
      (i = .dec ∧ s.dtabv = false ∧ t.errinfo = 7))) ∨
    (t.err = 5 ∧ (i = .hlb ∨ i = .encb) ∧
      t.errinfo = BitVec.ofNat 32 (activeSymbols s.nsym.toNat s.weight).length ∧
      ∀ k ≤ 32, fits s.maxlen.toNat (attempt (activeSymbols s.nsym.toNat s.weight) s.weight k) = false) ∨
    (t.err = 6 ∧ (i = .cca ∨ i = .decb) ∧ ∃ k, activeIn (npad s) s.len k ∧ t.errinfo = BitVec.ofNat 32 k ∧
      (s.maxlen.toNat < (s.len.read k).toNat ∨ 2 ^ s.maxlen.toNat < kraftScaled s.maxlen.toNat (npad s) s.len)) ∨
    (t.err = 7 ∧ ∃ sym : BitVec 16, i = .enc sym ∧ s.codev = true ∧ t.errinfo = BitVec.ofNat 32 sym.toNat ∧
      (npad s ≤ sym.toNat ∨ s.len.read sym.toNat = 0)) ∨
    (t.err = 8 ∧ i = .dec ∧ s.dtabv = true ∧ s.src.length - s.srcpos < s.maxlen.toNat ∧
      t.errinfo = BitVec.ofNat 32 (s.src.length - s.srcpos)) ∨
    (t.err = 9 ∧ i = .dec ∧ s.dtabv = true ∧ ∃ v, v = srcPeek s.maxlen.toNat s ∧ t.errinfo = BitVec.ofNat 32 v ∧
      slotValid (s.dtab.read v) = false)

/-- R175: in a live block the commands that need a table that is not built raise `NotReady` with the command word; with the
table built they never do, and the five others never do. -/
def Obligations.NotReadyUntilBuilt : Prop :=
  ∀ s : State, s.err = 0 →
    (s.codev = false → exec .hdt s = .next { s with err := 4, errinfo := 0x00000003 }) ∧
    (s.codev = false → ∀ sym : BitVec 16,
      exec (.enc sym) s = .next { s with err := 4, errinfo := BitVec.ofNat 32 (sym.toNat * 65536 + 6) }) ∧
    (s.dtabv = false → exec .dec s = .next { s with err := 4, errinfo := 0x00000007 }) ∧
    (s.codev = true → ∀ i t, i = .hdt ∨ (∃ sym, i = .enc sym) → exec i s = .next t → t.err ≠ 4) ∧
    (s.dtabv = true → ∀ t, exec .dec s = .next t → t.err ≠ 4) ∧
    (∀ i t, i = .hlb ∨ i = .cca ∨ i = .encb ∨ i = .decb ∨ i = .clr → exec i s = .next t → t.err ≠ 4)

/-! ## The length builder -/

/-- The extraction order of R104 is the lexicographic order of the key `(w, kind, t)`, for nodes of symbols up to 65535,
hence one of two nodes with different keys is before the other and never both. (Clause 2, an internal node before a leaf,
is the spec's own, from general knowledge: log 9.) -/
def Obligations.ExtractionOrderIsLexicographic : Prop :=
  ∀ (key : Node → Nat × Nat × Nat),
    (∀ i w, key (.leaf i w) = (w, 1, 65535 - i)) → (∀ k w a b, key (.internal k w a b) = (w, 0, k)) →
    ∀ a b : Node, (∀ i w, a = .leaf i w → i ≤ 65535) → (∀ i w, b = .leaf i w → i ≤ 65535) →
      (nodeBefore a b = true ↔ (key a).1 < (key b).1 ∨ ((key a).1 = (key b).1 ∧ ((key a).2.1 < (key b).2.1 ∨
        ((key a).2.1 = (key b).2.1 ∧ (key a).2.2 < (key b).2.2)))) ∧
      (key a ≠ key b → (nodeBefore a b = true ↔ nodeBefore b a = false))

/-- `extract_first` (R104) on a queue whose nodes have different keys takes the node that is before every other. -/
def Obligations.ExtractFirstTakesTheLeast : Prop :=
  ∀ (n : Node) (q : List Node),
    (n :: q).Pairwise (fun a b => nodeBefore a b = true ∨ nodeBefore b a = true) →
    ((extractFirst n q).1 :: (extractFirst n q).2).Perm (n :: q) ∧
    ∀ x ∈ (extractFirst n q).2, nodeBefore (extractFirst n q).1 x = true

/-- R105, R106: an attempt on two or more active symbols gives every active symbol one depth, at least 1, and the depths
satisfy Kraft's equality, because every internal node has two children. -/
def Obligations.AttemptDepthsAreThoseOfAFullTree : Prop :=
  ∀ (act : List Nat) (weight : Memory 32) (k m : Nat), 2 ≤ act.length →
    ((attempt act weight k).map Prod.fst).Perm act ∧ (∀ p ∈ attempt act weight k, 1 ≤ p.2) ∧
    ((∀ p ∈ attempt act weight k, p.2 ≤ m) → ((attempt act weight k).map (fun p => 2 ^ (m - p.2))).sum = 2 ^ m)

/-- R100, R101, R108: `HLB` in a live block: the special cases; else the lengths are the depths of the first attempt, with
`s = 0, 1, ..., 32`, whose height is at most `MAXLEN`, and `SHRINK` is its `s`; with none, `LengthLimitInfeasible(|A|)`. -/
def Obligations.HlbTakesTheFirstFittingAttempt : Prop :=
  ∀ (s : State) (act : List Nat), s.err = 0 → act = activeSymbols s.nsym.toNat s.weight →
    (act = [] → ∃ m, exec .hlb s = .next { s with len := m, shrink := 0, codev := false, dtabv := false } ∧
      ∀ i, m.read i = if i < npad s then 0 else s.len.read i) ∧
    (∀ a, act = [a] → ∃ m, exec .hlb s = .next { s with len := m, shrink := 0, codev := false, dtabv := false } ∧
      ∀ i, m.read i = if i < npad s then (if i = a then 1 else 0) else s.len.read i) ∧
    (2 ≤ act.length → ∀ k ≤ 32, (∀ p ∈ attempt act s.weight k, p.2 ≤ s.maxlen.toNat) →
      (∀ j < k, ∃ p ∈ attempt act s.weight j, s.maxlen.toNat < p.2) →
      ∃ (m : Memory 8) (sh : BitVec 6), sh.toNat = k ∧
        exec .hlb s = .next { s with len := m, shrink := sh, codev := false, dtabv := false } ∧
        (∀ i d, (i, d) ∈ attempt act s.weight k → (m.read i).toNat = d) ∧
        (∀ i < npad s, i ∉ act → m.read i = 0) ∧ ∀ i, npad s ≤ i → m.read i = s.len.read i) ∧
    (2 ≤ act.length → (∀ k ≤ 32, ∃ p ∈ attempt act s.weight k, s.maxlen.toNat < p.2) →
      exec .hlb s = .next { s with err := 5, errinfo := BitVec.ofNat 32 act.length })

/-- R109, items 1 to 4: what a successful `HLB` guarantees about `LEN[0..NPAD-1]`. -/
def Obligations.HlbLengthsGuarantee : Prop :=
  ∀ s t : State, s.err = 0 → 1 ≤ s.maxlen.toNat → exec .hlb s = .next t → t.err = 0 →
    (∀ i < npad s, t.len.read i ≠ 0 ↔ i < s.nsym.toNat ∧ s.weight.read i ≠ 0) ∧
    (∀ i < npad s, (t.len.read i).toNat ≤ s.maxlen.toNat) ∧
    kraftScaled s.maxlen.toNat (npad s) t.len =
      (if (activeSymbols s.nsym.toNat s.weight).length = 0 then 0
        else if (activeSymbols s.nsym.toNat s.weight).length = 1 then 2 ^ (s.maxlen.toNat - 1)
        else 2 ^ s.maxlen.toNat) ∧
    (∀ i, s.nsym.toNat ≤ i → i < npad s → t.len.read i = 0)

/-- R110, only-if half: with more active symbols than `2^MAXLEN`, `HLB` raises `LengthLimitInfeasible(|A|)`. -/
def Obligations.HlbFaultsWhenTooManyActive : Prop :=
  ∀ s : State, s.err = 0 → 2 ^ s.maxlen.toNat < (activeSymbols s.nsym.toNat s.weight).length →
    exec .hlb s = .next { s with err := 5, errinfo := BitVec.ofNat 32 (activeSymbols s.nsym.toNat s.weight).length }

/-- R110, if half: with at most `2^MAXLEN` active symbols, `HLB` succeeds, at exponent 32 at the latest; nothing but
LEN below `NPAD`, `SHRINK` and the flags changes. -/
def Obligations.HlbSucceedsWhenFeasible : Prop :=
  ∀ s : State, s.err = 0 → (activeSymbols s.nsym.toNat s.weight).length ≤ 2 ^ s.maxlen.toNat →
    ∃ (m : Memory 8) (sh : BitVec 6), sh.toNat ≤ 32 ∧
      exec .hlb s = .next { s with len := m, shrink := sh, codev := false, dtabv := false } ∧
      ∀ i, npad s ≤ i → m.read i = s.len.read i

/-- R109, item 6: what `HLB` computes is a function of `NSYM`, `MAXLEN` and `WEIGHT[0..NSYM-1]` alone. -/
def Obligations.HlbDependsOnWeightsAlone : Prop :=
  ∀ s s' t t' : State, s.err = 0 → s'.err = 0 → s.nsym = s'.nsym → s.maxlen = s'.maxlen →
    (∀ i < s.nsym.toNat, s.weight.read i = s'.weight.read i) → exec .hlb s = .next t → exec .hlb s' = .next t' →
    t.err = t'.err ∧ (t.err ≠ 0 → t.errinfo = t'.errinfo) ∧
    (t.err = 0 → t.shrink = t'.shrink ∧ ∀ i < npad s, t.len.read i = t'.len.read i)

/-! ## The code assigner -/

/-- R122: the lowest index with a length above `MAXLEN` is the one `CCA` reports, and nothing else changes. -/
def Obligations.CcaReportsTheLowestOverlongEntry : Prop :=
  ∀ (s : State) (i : Nat), s.err = 0 → i < npad s → s.maxlen.toNat < (s.len.read i).toNat →
    (∀ j < i, (s.len.read j).toNat ≤ s.maxlen.toNat) →
    exec .cca s = .next { s with err := 6, errinfo := BitVec.ofNat 32 i }

/-- R123: with all lengths legal and a Kraft sum above 1, `CCA` reports the first symbol, in the order of length and
symbol, at which the running Kraft sum passes 1, and nothing else changes. -/
def Obligations.CcaReportsWhereTheKraftSumPassesOne : Prop :=
  ∀ s : State, s.err = 0 → (∀ i < npad s, (s.len.read i).toNat ≤ s.maxlen.toNat) →
    2 ^ s.maxlen.toNat < kraftScaled s.maxlen.toNat (npad s) s.len →
    ∃ i, activeIn (npad s) s.len i ∧ exec .cca s = .next { s with err := 6, errinfo := BitVec.ofNat 32 i } ∧
      (∑ j ∈ Finset.range (npad s), if s.len.read j ≠ 0 ∧ ((s.len.read j).toNat < (s.len.read i).toNat ∨
          ((s.len.read j).toNat = (s.len.read i).toNat ∧ j < i)) then 2 ^ (s.maxlen.toNat - (s.len.read j).toNat) else 0)
        ≤ 2 ^ s.maxlen.toNat ∧
      2 ^ s.maxlen.toNat < 2 ^ (s.maxlen.toNat - (s.len.read i).toNat) +
        (∑ j ∈ Finset.range (npad s), if s.len.read j ≠ 0 ∧ ((s.len.read j).toNat < (s.len.read i).toNat ∨
          ((s.len.read j).toNat = (s.len.read i).toNat ∧ j < i)) then 2 ^ (s.maxlen.toNat - (s.len.read j).toNat) else 0)

/-- R120, R121, R124 item 1: with all lengths at most `MAXLEN` and a Kraft sum of at most 1, `CCA` completes, and the code
of an active symbol is the sum of `2^(l - l')` over the symbols before it in the order of length and symbol; an unused
symbol's is 0; CODE from `NPAD` on, and everything but CODE and the flags, is unchanged. -/
def Obligations.CcaAssignsCanonicalCodes : Prop :=
  ∀ s : State, s.err = 0 → (∀ i < npad s, (s.len.read i).toNat ≤ s.maxlen.toNat) →
    kraftScaled s.maxlen.toNat (npad s) s.len ≤ 2 ^ s.maxlen.toNat →
    ∃ m, exec .cca s = .next { s with code := m, codev := true, dtabv := false } ∧
      (∀ i, activeIn (npad s) s.len i → (m.read i).toNat =
        ∑ j ∈ Finset.range (npad s), if s.len.read j ≠ 0 ∧ ((s.len.read j).toNat < (s.len.read i).toNat ∨
          ((s.len.read j).toNat = (s.len.read i).toNat ∧ j < i)) then 2 ^ ((s.len.read i).toNat - (s.len.read j).toNat)
          else 0) ∧
      (∀ i < npad s, s.len.read i = 0 → m.read i = 0) ∧ ∀ i, npad s ≤ i → m.read i = s.code.read i

/-- R124 item 6, R125: once the checks pass, the codes are a function of `LEN[0..NPAD-1]` alone: two blocks with the same
length table, whatever their `MAXLEN` and all else, assign the same codes. -/
def Obligations.CodesDependOnLengthsAlone : Prop :=
  ∀ s s' t t' : State, s.err = 0 → s'.err = 0 → s.nsym = s'.nsym →
    (∀ i < npad s, s.len.read i = s'.len.read i) → exec .cca s = .next t → exec .cca s' = .next t' →
    t.err = 0 → t'.err = 0 → ∀ i < npad s, t.code.read i = t'.code.read i

/-- R124 items 2 and 4, R40: while `CODEV = 1`, in every legal state, each code fits its length and no codeword is a
beginning of another. -/
def Obligations.CodewordsArePrefixFree : Prop :=
  ∀ s : State, Inv s → s.codev = true → ∀ i, activeIn (npad s) s.len i →
    (s.code.read i).toNat < 2 ^ (s.len.read i).toNat ∧
    ∀ j, activeIn (npad s) s.len j → i ≠ j → ¬(codeword s i <+: codeword s j)

/-! ## The decode table -/

/-- R130 to R132: `HDT` completes in every legal live state with `CODEV = 1`; a slot below `2^MAXLEN` is `(1, i)` when
the codeword of active symbol `i` begins its bit pattern, and `(0, 0)` when none does; slots from `2^MAXLEN` on, and
everything but DTAB and `DTABV`, are unchanged. -/
def Obligations.HdtFillsEverySlot : Prop :=
  ∀ s : State, Inv s → s.err = 0 → s.codev = true →
    ∃ m, exec .hdt s = .next { s with dtab := m, dtabv := true } ∧
      (∀ v < 2 ^ s.maxlen.toNat,
        (∀ i, activeIn (npad s) s.len i → codeword s i <+: bitsMsbFirst s.maxlen.toNat v →
          slotValid (m.read v) = true ∧ (slotSym (m.read v)).toNat = i) ∧
        ((∀ i, activeIn (npad s) s.len i → ¬(codeword s i <+: bitsMsbFirst s.maxlen.toNat v)) → m.read v = 0)) ∧
      ∀ v, 2 ^ s.maxlen.toNat ≤ v → m.read v = s.dtab.read v

/-- R132: while `DTABV = 1`, in every legal state, the valid slots below `2^MAXLEN` are exactly the first
`2^MAXLEN * K`, `K` the Kraft sum of the length table. -/
def Obligations.ValidSlotsAreTheFirstKraftMany : Prop :=
  ∀ s : State, Inv s → s.dtabv = true → ∀ v < 2 ^ s.maxlen.toNat,
    (slotValid (s.dtab.read v) = true ↔ v < kraftScaled s.maxlen.toNat (npad s) s.len)

/-! ## The encoder -/

/-- R140: the end state of `ENCB` is that of `HLB` and then `CCA`; when `HLB` faults, `ENCB` does the same. -/
def Obligations.EncbEqualsHlbThenCca : Prop :=
  ∀ s t : State, s.err = 0 → 1 ≤ s.maxlen.toNat → exec .hlb s = .next t →
    (t.err = 0 → exec .encb s = exec .cca t) ∧ (t.err ≠ 0 → exec .encb s = .next t)

/-- R140 with R110: with at most `2^MAXLEN` active symbols `ENCB` completes: `CODEV` is set, `DTABV` cleared, and nothing
but LEN and CODE below `NPAD` and `SHRINK` changes besides. -/
def Obligations.EncbCompletesWhenFeasible : Prop :=
  ∀ s : State, s.err = 0 → 1 ≤ s.maxlen.toNat →
    (activeSymbols s.nsym.toNat s.weight).length ≤ 2 ^ s.maxlen.toNat →
    ∃ (m : Memory 8) (c : Memory 16) (sh : BitVec 6),
      exec .encb s = .next { s with len := m, code := c, shrink := sh, codev := true, dtabv := false } ∧
      (∀ i < npad s, m.read i ≠ 0 ↔ i < s.nsym.toNat ∧ s.weight.read i ≠ 0) ∧
      ∀ i, npad s ≤ i → m.read i = s.len.read i ∧ c.read i = s.code.read i

/-- R62: what `SinkPut(L, v)` appends: exactly the `L` low bits of `v`, `v[L-1]` first; bits of `v` from `L` on are
ignored; nothing else changes. -/
def Obligations.SinkPutAppendsLowBitsMsbFirst : Prop :=
  ∀ (l v : Nat) (s : State), 1 ≤ l → l ≤ 15 →
    ∃ bits : List Bool, sinkPut l v s = { s with sink := s.sink ++ bits } ∧ bits.length = l ∧
      (∀ k (h : k < bits.length), bits[k] = v.testBit (l - 1 - k)) ∧ sinkPut l (v % 2 ^ l) s = sinkPut l v s

/-- R141: `ENC sym` in a live block: the three checks in order, and else exactly `LEN[sym]` bits of `CODE[sym]`, most
significant first, are put and nothing else changes; in a legal state no bit of the code is cut off. -/
def Obligations.EncPutsTheCodeword : Prop :=
  ∀ (s : State) (sym : BitVec 16) (l c : Nat), s.err = 0 → l = (s.len.read sym.toNat).toNat →
    c = (s.code.read sym.toNat).toNat →
    (s.codev = false → exec (.enc sym) s = .next { s with err := 4, errinfo := BitVec.ofNat 32 (sym.toNat * 65536 + 6) }) ∧
    (s.codev = true → npad s ≤ sym.toNat →
      exec (.enc sym) s = .next { s with err := 7, errinfo := BitVec.ofNat 32 sym.toNat }) ∧
    (s.codev = true → sym.toNat < npad s → l = 0 →
      exec (.enc sym) s = .next { s with err := 7, errinfo := BitVec.ofNat 32 sym.toNat }) ∧
    (s.codev = true → sym.toNat < npad s → l ≠ 0 →
      exec (.enc sym) s =
        .next { s with sink := s.sink ++ (List.range l).map (fun k => c.testBit (l - 1 - k)) } ∧
      (Inv s → c < 2 ^ l))

/-! ## The decoder -/

/-- R150: the end state of `DECB` is that of `CCA` and then `HDT`, which then succeeds; when `CCA` faults, `DECB` does the
same. -/
def Obligations.DecbEqualsCcaThenHdt : Prop :=
  ∀ s t : State, s.err = 0 → exec .cca s = .next t →
    (t.err = 0 → ∃ u, exec .hdt t = .next u ∧ exec .decb s = .next u ∧ u.err = 0 ∧ u.codev = true ∧ u.dtabv = true) ∧
    (t.err ≠ 0 → exec .decb s = .next t)

/-- R150 with R122 and R123: with all lengths at most `MAXLEN` and a Kraft sum of at most 1, `DECB` completes: both flags
are set and nothing but CODE below `NPAD` and DTAB below `2^MAXLEN` changes besides. -/
def Obligations.DecbCompletesOnALegalTable : Prop :=
  ∀ s : State, s.err = 0 → (∀ i < npad s, (s.len.read i).toNat ≤ s.maxlen.toNat) →
    kraftScaled s.maxlen.toNat (npad s) s.len ≤ 2 ^ s.maxlen.toNat →
    ∃ (c : Memory 16) (m : Memory 17), exec .decb s = .next { s with code := c, dtab := m, codev := true, dtabv := true } ∧
      (∀ i, npad s ≤ i → c.read i = s.code.read i) ∧ ∀ v, 2 ^ s.maxlen.toNat ≤ v → m.read v = s.dtab.read v

/-- R63: `SrcPeek(n)` is the value of the next `n` bits, the first the most significant, and below `2^n`. -/
def Obligations.SrcPeekIsTheValueOfTheNextBits : Prop :=
  ∀ (s : State) (n : Nat), 1 ≤ n → n ≤ 15 → n ≤ s.src.length - s.srcpos →
    srcPeek n s = (∑ i ∈ Finset.range n, (s.src.getD (s.srcpos + i) false).toNat * 2 ^ (n - 1 - i)) ∧ srcPeek n s < 2 ^ n

/-- R151: `DEC` in a live block: the three checks in order, and else the symbol of the peeked slot is the result and its
length is skipped; nothing else changes; in a legal state the length is between 1 and `MAXLEN` and the cursor stays inside
the source. -/
def Obligations.DecLooksUpAndSkips : Prop :=
  ∀ (s : State) (m v : Nat) (sym : BitVec 16) (l : Nat), s.err = 0 → m = s.maxlen.toNat → v = srcPeek m s →
    sym = slotSym (s.dtab.read v) → l = (s.len.read sym.toNat).toNat →
    (s.dtabv = false → exec .dec s = .next { s with err := 4, errinfo := 0x00000007 }) ∧
    (s.dtabv = true → s.src.length - s.srcpos < m →
      exec .dec s = .next { s with err := 8, errinfo := BitVec.ofNat 32 (s.src.length - s.srcpos) }) ∧
    (s.dtabv = true → m ≤ s.src.length - s.srcpos → slotValid (s.dtab.read v) = false →
      exec .dec s = .next { s with err := 9, errinfo := BitVec.ofNat 32 v }) ∧
    (s.dtabv = true → m ≤ s.src.length - s.srcpos → slotValid (s.dtab.read v) = true →
      exec .dec s = .next { s with srcpos := s.srcpos + l, result := sym } ∧
      (Inv s → 1 ≤ l ∧ l ≤ m ∧ s.srcpos + l ≤ s.src.length))

/-- R152: with a complete code, Kraft sum 1, no `DEC` of a legal live block raises `InvalidCode`. -/
def Obligations.CompleteCodeNeverInvalid : Prop :=
  ∀ s t : State, Inv s → s.err = 0 → s.dtabv = true →
    kraftScaled s.maxlen.toNat (npad s) s.len = 2 ^ s.maxlen.toNat → exec .dec s = .next t → t.err = 0 ∨ t.err = 8

/-- R133, R125: two decoders with the same length table and the same bits at their cursors decode the same symbol and skip
the same number of bits, whatever `MAXLEN` each uses. -/
def Obligations.DecodedSymbolIndependentOfMaxlen : Prop :=
  ∀ s s' t t' : State, Inv s → Inv s' → s.err = 0 → s'.err = 0 → s.nsym = s'.nsym →
    (∀ i < npad s, s.len.read i = s'.len.read i) → s.src = s'.src → s.srcpos = s'.srcpos →
    exec .dec s = .next t → exec .dec s' = .next t' → t.err = 0 → t'.err = 0 →
    t.result = t'.result ∧ t.srcpos = t'.srcpos

/-- R154, one symbol: in a legal live state with `DTABV = 1`, when the bits at the cursor are the codeword of active symbol
`sym` and `MAXLEN` bits are available, `DEC` returns `sym` and advances the cursor by exactly `LEN[sym]`. -/
def Obligations.DecInvertsTheCodeword : Prop :=
  ∀ (s : State) (sym : BitVec 16), Inv s → s.err = 0 → s.dtabv = true → activeIn (npad s) s.len sym.toNat →
    s.maxlen.toNat ≤ s.src.length - s.srcpos → codeword s sym.toNat <+: s.src.drop s.srcpos →
    exec .dec s = .next { s with result := sym, srcpos := s.srcpos + (s.len.read sym.toNat).toNat }

/-- R141 over a list of active symbols: the encoder puts their codewords one after another and changes nothing else. -/
def Obligations.EncodingAListPutsItsCodewords : Prop :=
  ∀ (s : State) (syms : List (BitVec 16)), s.err = 0 → s.codev = true →
    (∀ y ∈ syms, activeIn (npad s) s.len y.toNat) →
    execAll (syms.map Instr.enc) s = .next { s with sink := s.sink ++ syms.flatMap (fun y => codeword s y.toNat) }

/-- R154, R153, a stream: when the source from the cursor on is the codewords of a list of active symbols followed by at least
`MAXLEN - LEN[last]` bits, `last` the list's last symbol, the first `n` `DEC` commands return the `n`-th symbol last and
leave the cursor after its codeword, for every `n` up to the list's length. -/
def Obligations.DecodingAStreamReturnsItsSymbols : Prop :=
  ∀ (s : State) (done : List (BitVec 16)) (y : BitVec 16) (rest : List (BitVec 16)) (pad : List Bool),
    Inv s → s.err = 0 → s.dtabv = true →
    (∀ x ∈ done ++ y :: rest, activeIn (npad s) s.len x.toNat) →
    s.src.drop s.srcpos = (done ++ y :: rest).flatMap (fun x => codeword s x.toNat) ++ pad →
    s.maxlen.toNat - (s.len.read ((y :: rest).getLast (List.cons_ne_nil _ _)).toNat).toNat ≤ pad.length →
    execAll (List.replicate (done.length + 1) Instr.dec) s =
      .next { s with
        result := y, srcpos := s.srcpos + ((done ++ [y]).flatMap (fun x => codeword s x.toNat)).length }

/-! ## Flags and whole-machine rules -/

/-- R39: how each event that does not fault, in a live block, sets the flags; a faulting operation sets none. -/
def Obligations.FlagsFollowTheirTable : Prop :=
  ∀ (i : Instr) (s t : State), s.err = 0 → exec i s = .next t →
    (t.err ≠ 0 → t.codev = s.codev ∧ t.dtabv = s.dtabv) ∧
    (t.err = 0 →
      ((∃ k v, i = .wrWeight k v) ∨ (∃ sym, i = .enc sym) ∨ i = .dec → t.codev = s.codev ∧ t.dtabv = s.dtabv) ∧
      ((∃ k v, i = .wrLen k v) ∨ (∃ v, i = .wrNsym v) ∨ (∃ v, i = .wrMaxlen v) ∨ i = .hlb ∨ i = .clr →
        t.codev = false ∧ t.dtabv = false) ∧
      (i = .cca ∨ i = .encb → t.codev = true ∧ t.dtabv = false) ∧
      (i = .hdt → s.codev = true ∧ t.codev = true ∧ t.dtabv = true) ∧
      (i = .decb → t.codev = true ∧ t.dtabv = true) ∧
      ((∃ sym, i = .enc sym) → s.codev = true) ∧ (i = .dec → s.dtabv = true) ∧
      (i = .rdCmd ∨ i = .rdStatus ∨ i = .rdErrinfo ∨ i = .rdNsym ∨ i = .rdMaxlen ∨ i = .rdNpad ∨ i = .rdShrink ∨
        i = .rdResult ∨ (∃ k, i = .rdWeight k ∨ i = .rdLen k ∨ i = .rdCode k ∨ i = .rdDtab k) →
        t.codev = s.codev ∧ t.dtabv = s.dtabv)) ∧
    (∀ u rest, u.script = .reset :: rest → ∀ u', step u = .next u' → u'.codev = false ∧ u'.dtabv = false)

/-- R25 to R27, R29 to R37, R60: which instructions, other than `WR CMD`, which runs its command, can change which register,
flag, table or bit stream; `ERR` and `ERRINFO` are written, but for `CLR`, only by an instruction that faults in a live block.
(Among those is `RD DTAB` with an index beyond its row, the model's choice, log 10.) -/
def Obligations.EachPieceHasItsWriters : Prop :=
  ∀ (i : Instr) (s t : State), (∀ w, i ≠ .wrCmd w) → exec i s = .next t →
    (t.nsym ≠ s.nsym → i = .clr ∨ ∃ v, i = .wrNsym v) ∧
    (t.maxlen ≠ s.maxlen → i = .clr ∨ ∃ v, i = .wrMaxlen v) ∧
    (t.codev ≠ s.codev → i = .clr ∨ i = .hlb ∨ i = .cca ∨ i = .encb ∨ i = .decb ∨ (∃ v, i = .wrNsym v) ∨
      (∃ v, i = .wrMaxlen v) ∨ ∃ k v, i = .wrLen k v) ∧
    (t.dtabv ≠ s.dtabv → i = .clr ∨ i = .hlb ∨ i = .cca ∨ i = .hdt ∨ i = .encb ∨ i = .decb ∨ (∃ v, i = .wrNsym v) ∨
      (∃ v, i = .wrMaxlen v) ∨ ∃ k v, i = .wrLen k v) ∧
    (t.err ≠ s.err ∨ t.errinfo ≠ s.errinfo → i = .clr ∨ (s.err = 0 ∧ t.err ≠ 0 ∧
      (i = .hlb ∨ i = .cca ∨ i = .hdt ∨ i = .encb ∨ i = .decb ∨ (∃ sym, i = .enc sym) ∨ i = .dec ∨
        (∃ v, i = .wrNsym v) ∨ (∃ v, i = .wrMaxlen v) ∨ (∃ k v, i = .wrWeight k v) ∨ (∃ k v, i = .wrLen k v) ∨
        ∃ k, i = .rdWeight k ∨ i = .rdLen k ∨ i = .rdCode k ∨ i = .rdDtab k))) ∧
    (t.weight ≠ s.weight → i = .clr ∨ ∃ k v, i = .wrWeight k v) ∧
    (t.len ≠ s.len → i = .clr ∨ i = .hlb ∨ i = .encb ∨ ∃ k v, i = .wrLen k v) ∧
    (t.code ≠ s.code → i = .clr ∨ i = .cca ∨ i = .encb ∨ i = .decb) ∧
    (t.dtab ≠ s.dtab → i = .clr ∨ i = .hdt ∨ i = .decb) ∧
    (t.shrink ≠ s.shrink → i = .clr ∨ i = .hlb ∨ i = .encb) ∧
    (t.result ≠ s.result → i = .clr ∨ i = .dec) ∧
    (t.sink ≠ s.sink → ∃ sym, i = .enc sym) ∧
    (t.srcpos ≠ s.srcpos → i = .dec) ∧
    t.src = s.src

/-- R36, R37: the bit streams: whatever the block does, the sink only grows, by at most 15 bits a step in a legal state,
the source never changes, and its cursor never moves back. -/
def Obligations.BitStreamsOnlyAdvance : Prop :=
  ∀ s t : State, Inv s → step s = .next t →
    (∃ bits : List Bool, t.sink = s.sink ++ bits ∧ bits.length ≤ 15) ∧ t.src = s.src ∧ s.srcpos ≤ t.srcpos

/-- The tables keep their canonical form and stay inside their depths (R32 to R35, R66): every step keeps it, when the
registers are legal. -/
def Obligations.StepKeepsTablesCanonical : Prop :=
  ∀ s t : State, RegistersLegal s → TablesCanonical s → step s = .next t → TablesCanonical t

/-- The registers keep legal values (R26, R27, R29, R31, R40, R173): every step keeps it. -/
def Obligations.StepKeepsRegistersLegal : Prop :=
  ∀ s t : State, RegistersLegal s → step s = .next t → RegistersLegal t

/-- R40, R25: what the flags guarantee, with everything else a legal state holds: every step keeps it. -/
def Obligations.StepKeepsTheInvariant : Prop := ∀ s t : State, Inv s → step s = .next t → Inv t

/-- The state after reset is legal, for every launch content of the ports with the cursor inside the source (R41). -/
def Obligations.LaunchStateIsLegal : Prop :=
  Inv State.reset ∧ ∀ sink src srcpos script, srcpos ≤ src.length → Inv (State.launch sink src srcpos script)

/-! ## The tree of an attempt -/

/-- R102, R103, R105, R106: an attempt with exponent `k` starts from one leaf per active symbol, of weight `max(w >> k, 1)`;
`|A| - 1` times the first node `a` in the extraction order and the first of the others, `b`, become one internal node of
their summed weight, `a` and `b` its children; the one node left is the root, and the attempt's depths are the depths of
its leaves. (The extraction order's clause 2 is the spec's own, from general knowledge: log 9.) -/
def Obligations.AttemptMergesTheTwoFirstNodes : Prop :=
  ∀ (act : List Nat) (weight : Memory 32) (k : Nat), 2 ≤ act.length → act.Nodup →
    ∃ (q : Nat → List Node) (root : Node),
      q 0 = act.map (fun i => Node.leaf i (max ((weight.read i).toNat / 2 ^ k) 1)) ∧
      (∀ j < act.length - 1, ∃ (a b : Node) (rest : List Node), (q j).Perm (a :: b :: rest) ∧
        (∀ x ∈ b :: rest, nodeBefore a x = true) ∧ (∀ x ∈ rest, nodeBefore b x = true) ∧
        q (j + 1) = .internal j (nodeWeight a + nodeWeight b) a b :: rest) ∧
      q (act.length - 1) = [root] ∧ attempt act weight k = leafDepths root 0
end

