-- ==== Sys2Proof/Laws/Decode.lean ====
section
/-! SUPPORT. The bit fields of addresses and command words, and what each decoder can answer. -/

namespace Sys2Proof

theorem region_toNat (a : Addr) : (region a).toNat = a.toNat / 65536 := by
  have := a.isLt
  simp only [region, BitVec.extractLsb'_toNat, Nat.shiftRight_eq_div_pow]
  omega

theorem index_toNat (a : Addr) : (index a).toNat = a.toNat % 65536 := by
  simp only [index, BitVec.extractLsb'_toNat, Nat.shiftRight_zero]

theorem addr_toNat (r : BitVec 4) (i : BitVec 16) : (addr r i).toNat = r.toNat * 65536 + i.toNat := by
  have h : (addr r i).toNat = r.toNat <<< 16 ||| i.toNat := BitVec.toNat_append r i
  rw [h, ← Nat.shiftLeft_add_eq_or_of_lt i.isLt, Nat.shiftLeft_eq]

@[simp] theorem region_addr (r : BitVec 4) (i : BitVec 16) : region (addr r i) = r := by
  have := i.isLt
  apply BitVec.eq_of_toNat_eq
  rw [region_toNat, addr_toNat]
  omega

@[simp] theorem index_addr (r : BitVec 4) (i : BitVec 16) : index (addr r i) = i := by
  have := i.isLt
  apply BitVec.eq_of_toNat_eq
  rw [index_toNat, addr_toNat]
  omega

@[simp] theorem addr_region_index (a : Addr) : addr (region a) (index a) = a := by
  apply BitVec.eq_of_toNat_eq
  rw [addr_toNat, region_toNat, index_toNat]
  omega

theorem opField_toNat (w : Word) : (opField w).toNat = w.toNat % 256 := by
  simp only [opField, BitVec.extractLsb'_toNat, Nat.shiftRight_zero]

theorem zeroField_toNat (w : Word) : (zeroField w).toNat = w.toNat / 256 % 256 := by
  simp only [zeroField, BitVec.extractLsb'_toNat, Nat.shiftRight_eq_div_pow]

theorem symField_toNat (w : Word) : (symField w).toNat = w.toNat / 65536 := by
  have := w.isLt
  simp only [symField, BitVec.extractLsb'_toNat, Nat.shiftRight_eq_div_pow]
  omega

theorem commandWord_toNat (sym : BitVec 16) (op : BitVec 8) :
    (commandWord sym op).toNat = sym.toNat * 65536 + op.toNat := by
  have h : (commandWord sym op).toNat = (sym ++ (0 : BitVec 8)).toNat <<< 8 ||| op.toNat := BitVec.toNat_append _ _
  rw [h, ← Nat.shiftLeft_add_eq_or_of_lt op.isLt, BitVec.toNat_append, Nat.shiftLeft_eq, Nat.shiftLeft_eq]
  simp
  omega

@[simp] theorem opField_commandWord (sym : BitVec 16) (op : BitVec 8) : opField (commandWord sym op) = op := by
  have := op.isLt
  apply BitVec.eq_of_toNat_eq
  rw [opField_toNat, commandWord_toNat]
  omega

@[simp] theorem zeroField_commandWord (sym : BitVec 16) (op : BitVec 8) : zeroField (commandWord sym op) = 0 := by
  have := op.isLt
  apply BitVec.eq_of_toNat_eq
  rw [zeroField_toNat, commandWord_toNat]
  simp
  omega

@[simp] theorem symField_commandWord (sym : BitVec 16) (op : BitVec 8) : symField (commandWord sym op) = sym := by
  have := op.isLt
  apply BitVec.eq_of_toNat_eq
  rw [symField_toNat, commandWord_toNat]
  omega

/-- A word with `zero = 0` is made of its other two fields (R81). -/
theorem commandWord_fields {w : Word} (h : zeroField w = 0) : commandWord (symField w) (opField w) = w := by
  have h' := congrArg BitVec.toNat h
  rw [zeroField_toNat] at h'
  apply BitVec.eq_of_toNat_eq
  rw [commandWord_toNat, opField_toNat, symField_toNat]
  simp at h'
  omega

/-- What a legal command word can be (R82): one of eight, each with its word. -/
theorem decodeCommand_cases {w : Word} {i : Instr} (h : decodeCommand w = some i) :
    (i = .hlb ∧ w = 1) ∨ (i = .cca ∧ w = 2) ∨ (i = .hdt ∧ w = 3) ∨ (i = .encb ∧ w = 4) ∨ (i = .decb ∧ w = 5) ∨
      (i = .enc (symField w) ∧ w = commandWord (symField w) 6) ∨ (i = .dec ∧ w = 7) ∨ (i = .clr ∧ w = 8) := by
  unfold decodeCommand noOperand at h
  by_cases hz : zeroField w = 0
  · have hw := commandWord_fields hz
    rw [if_neg (by simpa using hz)] at h
    have fin : ∀ op : BitVec 8, opField w = op → symField w = 0 → w = commandWord 0 op :=
      fun op ho hs => by rw [← hw, ho, hs]
    split_ifs at h with h1 s1 h2 s2 h3 s3 h4 s4 h5 s5 h6 h7 s7 h8 s8 <;> simp only [Option.some.injEq] at h <;> subst h
    · exact .inl ⟨rfl, fin _ h1 s1⟩
    · exact .inr (.inl ⟨rfl, fin _ h2 s2⟩)
    · exact .inr (.inr (.inl ⟨rfl, fin _ h3 s3⟩))
    · exact .inr (.inr (.inr (.inl ⟨rfl, fin _ h4 s4⟩)))
    · exact .inr (.inr (.inr (.inr (.inl ⟨rfl, fin _ h5 s5⟩))))
    · exact .inr (.inr (.inr (.inr (.inr (.inl ⟨rfl, by rw [← h6, hw]⟩)))))
    · exact .inr (.inr (.inr (.inr (.inr (.inr (.inl ⟨rfl, fin _ h7 s7⟩))))))
    · exact .inr (.inr (.inr (.inr (.inr (.inr (.inr ⟨rfl, fin _ h8 s8⟩))))))
  · rw [if_pos (by simpa using hz)] at h
    exact absurd h (by simp)

end Sys2Proof
end

