-- ==== Sys2Proof/Laws/State.lean ====
section
/-! SUPPORT. One lemma per field of State and per named update, true by rfl, so that no proof unfolds a record update. -/

namespace Sys2Proof.Machine

/-! ## setNsym -/

@[simp] theorem setNsym_nsym (v : BitVec 17) (s : State) : (setNsym v s).nsym = v := rfl
@[simp] theorem setNsym_maxlen (v : BitVec 17) (s : State) : (setNsym v s).maxlen = s.maxlen := rfl
@[simp] theorem setNsym_codev (v : BitVec 17) (s : State) : (setNsym v s).codev = s.codev := rfl
@[simp] theorem setNsym_dtabv (v : BitVec 17) (s : State) : (setNsym v s).dtabv = s.dtabv := rfl
@[simp] theorem setNsym_err (v : BitVec 17) (s : State) : (setNsym v s).err = s.err := rfl
@[simp] theorem setNsym_errinfo (v : BitVec 17) (s : State) : (setNsym v s).errinfo = s.errinfo := rfl
@[simp] theorem setNsym_shrink (v : BitVec 17) (s : State) : (setNsym v s).shrink = s.shrink := rfl
@[simp] theorem setNsym_result (v : BitVec 17) (s : State) : (setNsym v s).result = s.result := rfl
@[simp] theorem setNsym_weight (v : BitVec 17) (s : State) : (setNsym v s).weight = s.weight := rfl
@[simp] theorem setNsym_len (v : BitVec 17) (s : State) : (setNsym v s).len = s.len := rfl
@[simp] theorem setNsym_code (v : BitVec 17) (s : State) : (setNsym v s).code = s.code := rfl
@[simp] theorem setNsym_dtab (v : BitVec 17) (s : State) : (setNsym v s).dtab = s.dtab := rfl
@[simp] theorem setNsym_sink (v : BitVec 17) (s : State) : (setNsym v s).sink = s.sink := rfl
@[simp] theorem setNsym_src (v : BitVec 17) (s : State) : (setNsym v s).src = s.src := rfl
@[simp] theorem setNsym_srcpos (v : BitVec 17) (s : State) : (setNsym v s).srcpos = s.srcpos := rfl
@[simp] theorem setNsym_script (v : BitVec 17) (s : State) : (setNsym v s).script = s.script := rfl
@[simp] theorem setNsym_replies (v : BitVec 17) (s : State) : (setNsym v s).replies = s.replies := rfl

/-! ## setMaxlen -/

@[simp] theorem setMaxlen_nsym (v : BitVec 4) (s : State) : (setMaxlen v s).nsym = s.nsym := rfl
@[simp] theorem setMaxlen_maxlen (v : BitVec 4) (s : State) : (setMaxlen v s).maxlen = v := rfl
@[simp] theorem setMaxlen_codev (v : BitVec 4) (s : State) : (setMaxlen v s).codev = s.codev := rfl
@[simp] theorem setMaxlen_dtabv (v : BitVec 4) (s : State) : (setMaxlen v s).dtabv = s.dtabv := rfl
@[simp] theorem setMaxlen_err (v : BitVec 4) (s : State) : (setMaxlen v s).err = s.err := rfl
@[simp] theorem setMaxlen_errinfo (v : BitVec 4) (s : State) : (setMaxlen v s).errinfo = s.errinfo := rfl
@[simp] theorem setMaxlen_shrink (v : BitVec 4) (s : State) : (setMaxlen v s).shrink = s.shrink := rfl
@[simp] theorem setMaxlen_result (v : BitVec 4) (s : State) : (setMaxlen v s).result = s.result := rfl
@[simp] theorem setMaxlen_weight (v : BitVec 4) (s : State) : (setMaxlen v s).weight = s.weight := rfl
@[simp] theorem setMaxlen_len (v : BitVec 4) (s : State) : (setMaxlen v s).len = s.len := rfl
@[simp] theorem setMaxlen_code (v : BitVec 4) (s : State) : (setMaxlen v s).code = s.code := rfl
@[simp] theorem setMaxlen_dtab (v : BitVec 4) (s : State) : (setMaxlen v s).dtab = s.dtab := rfl
@[simp] theorem setMaxlen_sink (v : BitVec 4) (s : State) : (setMaxlen v s).sink = s.sink := rfl
@[simp] theorem setMaxlen_src (v : BitVec 4) (s : State) : (setMaxlen v s).src = s.src := rfl
@[simp] theorem setMaxlen_srcpos (v : BitVec 4) (s : State) : (setMaxlen v s).srcpos = s.srcpos := rfl
@[simp] theorem setMaxlen_script (v : BitVec 4) (s : State) : (setMaxlen v s).script = s.script := rfl
@[simp] theorem setMaxlen_replies (v : BitVec 4) (s : State) : (setMaxlen v s).replies = s.replies := rfl
@[simp] theorem setMaxlen_npad (v : BitVec 4) (s : State) : npad (setMaxlen v s) = npad s := rfl

/-! ## setShrink -/

@[simp] theorem setShrink_nsym (v : BitVec 6) (s : State) : (setShrink v s).nsym = s.nsym := rfl
@[simp] theorem setShrink_maxlen (v : BitVec 6) (s : State) : (setShrink v s).maxlen = s.maxlen := rfl
@[simp] theorem setShrink_codev (v : BitVec 6) (s : State) : (setShrink v s).codev = s.codev := rfl
@[simp] theorem setShrink_dtabv (v : BitVec 6) (s : State) : (setShrink v s).dtabv = s.dtabv := rfl
@[simp] theorem setShrink_err (v : BitVec 6) (s : State) : (setShrink v s).err = s.err := rfl
@[simp] theorem setShrink_errinfo (v : BitVec 6) (s : State) : (setShrink v s).errinfo = s.errinfo := rfl
@[simp] theorem setShrink_shrink (v : BitVec 6) (s : State) : (setShrink v s).shrink = v := rfl
@[simp] theorem setShrink_result (v : BitVec 6) (s : State) : (setShrink v s).result = s.result := rfl
@[simp] theorem setShrink_weight (v : BitVec 6) (s : State) : (setShrink v s).weight = s.weight := rfl
@[simp] theorem setShrink_len (v : BitVec 6) (s : State) : (setShrink v s).len = s.len := rfl
@[simp] theorem setShrink_code (v : BitVec 6) (s : State) : (setShrink v s).code = s.code := rfl
@[simp] theorem setShrink_dtab (v : BitVec 6) (s : State) : (setShrink v s).dtab = s.dtab := rfl
@[simp] theorem setShrink_sink (v : BitVec 6) (s : State) : (setShrink v s).sink = s.sink := rfl
@[simp] theorem setShrink_src (v : BitVec 6) (s : State) : (setShrink v s).src = s.src := rfl
@[simp] theorem setShrink_srcpos (v : BitVec 6) (s : State) : (setShrink v s).srcpos = s.srcpos := rfl
@[simp] theorem setShrink_script (v : BitVec 6) (s : State) : (setShrink v s).script = s.script := rfl
@[simp] theorem setShrink_replies (v : BitVec 6) (s : State) : (setShrink v s).replies = s.replies := rfl
@[simp] theorem setShrink_npad (v : BitVec 6) (s : State) : npad (setShrink v s) = npad s := rfl

/-! ## setResult -/

@[simp] theorem setResult_nsym (v : BitVec 16) (s : State) : (setResult v s).nsym = s.nsym := rfl
@[simp] theorem setResult_maxlen (v : BitVec 16) (s : State) : (setResult v s).maxlen = s.maxlen := rfl
@[simp] theorem setResult_codev (v : BitVec 16) (s : State) : (setResult v s).codev = s.codev := rfl
@[simp] theorem setResult_dtabv (v : BitVec 16) (s : State) : (setResult v s).dtabv = s.dtabv := rfl
@[simp] theorem setResult_err (v : BitVec 16) (s : State) : (setResult v s).err = s.err := rfl
@[simp] theorem setResult_errinfo (v : BitVec 16) (s : State) : (setResult v s).errinfo = s.errinfo := rfl
@[simp] theorem setResult_shrink (v : BitVec 16) (s : State) : (setResult v s).shrink = s.shrink := rfl
@[simp] theorem setResult_result (v : BitVec 16) (s : State) : (setResult v s).result = v := rfl
@[simp] theorem setResult_weight (v : BitVec 16) (s : State) : (setResult v s).weight = s.weight := rfl
@[simp] theorem setResult_len (v : BitVec 16) (s : State) : (setResult v s).len = s.len := rfl
@[simp] theorem setResult_code (v : BitVec 16) (s : State) : (setResult v s).code = s.code := rfl
@[simp] theorem setResult_dtab (v : BitVec 16) (s : State) : (setResult v s).dtab = s.dtab := rfl
@[simp] theorem setResult_sink (v : BitVec 16) (s : State) : (setResult v s).sink = s.sink := rfl
@[simp] theorem setResult_src (v : BitVec 16) (s : State) : (setResult v s).src = s.src := rfl
@[simp] theorem setResult_srcpos (v : BitVec 16) (s : State) : (setResult v s).srcpos = s.srcpos := rfl
@[simp] theorem setResult_script (v : BitVec 16) (s : State) : (setResult v s).script = s.script := rfl
@[simp] theorem setResult_replies (v : BitVec 16) (s : State) : (setResult v s).replies = s.replies := rfl
@[simp] theorem setResult_npad (v : BitVec 16) (s : State) : npad (setResult v s) = npad s := rfl

/-! ## setWeight -/

@[simp] theorem setWeight_nsym (i : Nat) (v : BitVec 32) (s : State) : (setWeight i v s).nsym = s.nsym := rfl
@[simp] theorem setWeight_maxlen (i : Nat) (v : BitVec 32) (s : State) : (setWeight i v s).maxlen = s.maxlen := rfl
@[simp] theorem setWeight_codev (i : Nat) (v : BitVec 32) (s : State) : (setWeight i v s).codev = s.codev := rfl
@[simp] theorem setWeight_dtabv (i : Nat) (v : BitVec 32) (s : State) : (setWeight i v s).dtabv = s.dtabv := rfl
@[simp] theorem setWeight_err (i : Nat) (v : BitVec 32) (s : State) : (setWeight i v s).err = s.err := rfl
@[simp] theorem setWeight_errinfo (i : Nat) (v : BitVec 32) (s : State) : (setWeight i v s).errinfo = s.errinfo := rfl
@[simp] theorem setWeight_shrink (i : Nat) (v : BitVec 32) (s : State) : (setWeight i v s).shrink = s.shrink := rfl
@[simp] theorem setWeight_result (i : Nat) (v : BitVec 32) (s : State) : (setWeight i v s).result = s.result := rfl
@[simp] theorem setWeight_weight (i : Nat) (v : BitVec 32) (s : State) : (setWeight i v s).weight = s.weight.write i v := rfl
@[simp] theorem setWeight_len (i : Nat) (v : BitVec 32) (s : State) : (setWeight i v s).len = s.len := rfl
@[simp] theorem setWeight_code (i : Nat) (v : BitVec 32) (s : State) : (setWeight i v s).code = s.code := rfl
@[simp] theorem setWeight_dtab (i : Nat) (v : BitVec 32) (s : State) : (setWeight i v s).dtab = s.dtab := rfl
@[simp] theorem setWeight_sink (i : Nat) (v : BitVec 32) (s : State) : (setWeight i v s).sink = s.sink := rfl
@[simp] theorem setWeight_src (i : Nat) (v : BitVec 32) (s : State) : (setWeight i v s).src = s.src := rfl
@[simp] theorem setWeight_srcpos (i : Nat) (v : BitVec 32) (s : State) : (setWeight i v s).srcpos = s.srcpos := rfl
@[simp] theorem setWeight_script (i : Nat) (v : BitVec 32) (s : State) : (setWeight i v s).script = s.script := rfl
@[simp] theorem setWeight_replies (i : Nat) (v : BitVec 32) (s : State) : (setWeight i v s).replies = s.replies := rfl
@[simp] theorem setWeight_npad (i : Nat) (v : BitVec 32) (s : State) : npad (setWeight i v s) = npad s := rfl

/-! ## setLen -/

@[simp] theorem setLen_nsym (i : Nat) (v : BitVec 8) (s : State) : (setLen i v s).nsym = s.nsym := rfl
@[simp] theorem setLen_maxlen (i : Nat) (v : BitVec 8) (s : State) : (setLen i v s).maxlen = s.maxlen := rfl
@[simp] theorem setLen_codev (i : Nat) (v : BitVec 8) (s : State) : (setLen i v s).codev = s.codev := rfl
@[simp] theorem setLen_dtabv (i : Nat) (v : BitVec 8) (s : State) : (setLen i v s).dtabv = s.dtabv := rfl
@[simp] theorem setLen_err (i : Nat) (v : BitVec 8) (s : State) : (setLen i v s).err = s.err := rfl
@[simp] theorem setLen_errinfo (i : Nat) (v : BitVec 8) (s : State) : (setLen i v s).errinfo = s.errinfo := rfl
@[simp] theorem setLen_shrink (i : Nat) (v : BitVec 8) (s : State) : (setLen i v s).shrink = s.shrink := rfl
@[simp] theorem setLen_result (i : Nat) (v : BitVec 8) (s : State) : (setLen i v s).result = s.result := rfl
@[simp] theorem setLen_weight (i : Nat) (v : BitVec 8) (s : State) : (setLen i v s).weight = s.weight := rfl
@[simp] theorem setLen_len (i : Nat) (v : BitVec 8) (s : State) : (setLen i v s).len = s.len.write i v := rfl
@[simp] theorem setLen_code (i : Nat) (v : BitVec 8) (s : State) : (setLen i v s).code = s.code := rfl
@[simp] theorem setLen_dtab (i : Nat) (v : BitVec 8) (s : State) : (setLen i v s).dtab = s.dtab := rfl
@[simp] theorem setLen_sink (i : Nat) (v : BitVec 8) (s : State) : (setLen i v s).sink = s.sink := rfl
@[simp] theorem setLen_src (i : Nat) (v : BitVec 8) (s : State) : (setLen i v s).src = s.src := rfl
@[simp] theorem setLen_srcpos (i : Nat) (v : BitVec 8) (s : State) : (setLen i v s).srcpos = s.srcpos := rfl
@[simp] theorem setLen_script (i : Nat) (v : BitVec 8) (s : State) : (setLen i v s).script = s.script := rfl
@[simp] theorem setLen_replies (i : Nat) (v : BitVec 8) (s : State) : (setLen i v s).replies = s.replies := rfl
@[simp] theorem setLen_npad (i : Nat) (v : BitVec 8) (s : State) : npad (setLen i v s) = npad s := rfl

/-! ## commitLen -/

@[simp] theorem commitLen_nsym (p : Nat) (t : Memory 8) (s : State) : (commitLen p t s).nsym = s.nsym := rfl
@[simp] theorem commitLen_maxlen (p : Nat) (t : Memory 8) (s : State) : (commitLen p t s).maxlen = s.maxlen := rfl
@[simp] theorem commitLen_codev (p : Nat) (t : Memory 8) (s : State) : (commitLen p t s).codev = s.codev := rfl
@[simp] theorem commitLen_dtabv (p : Nat) (t : Memory 8) (s : State) : (commitLen p t s).dtabv = s.dtabv := rfl
@[simp] theorem commitLen_err (p : Nat) (t : Memory 8) (s : State) : (commitLen p t s).err = s.err := rfl
@[simp] theorem commitLen_errinfo (p : Nat) (t : Memory 8) (s : State) : (commitLen p t s).errinfo = s.errinfo := rfl
@[simp] theorem commitLen_shrink (p : Nat) (t : Memory 8) (s : State) : (commitLen p t s).shrink = s.shrink := rfl
@[simp] theorem commitLen_result (p : Nat) (t : Memory 8) (s : State) : (commitLen p t s).result = s.result := rfl
@[simp] theorem commitLen_weight (p : Nat) (t : Memory 8) (s : State) : (commitLen p t s).weight = s.weight := rfl
@[simp] theorem commitLen_len (p : Nat) (t : Memory 8) (s : State) : (commitLen p t s).len = Memory.replaceBelow p t s.len := rfl
@[simp] theorem commitLen_code (p : Nat) (t : Memory 8) (s : State) : (commitLen p t s).code = s.code := rfl
@[simp] theorem commitLen_dtab (p : Nat) (t : Memory 8) (s : State) : (commitLen p t s).dtab = s.dtab := rfl
@[simp] theorem commitLen_sink (p : Nat) (t : Memory 8) (s : State) : (commitLen p t s).sink = s.sink := rfl
@[simp] theorem commitLen_src (p : Nat) (t : Memory 8) (s : State) : (commitLen p t s).src = s.src := rfl
@[simp] theorem commitLen_srcpos (p : Nat) (t : Memory 8) (s : State) : (commitLen p t s).srcpos = s.srcpos := rfl
@[simp] theorem commitLen_script (p : Nat) (t : Memory 8) (s : State) : (commitLen p t s).script = s.script := rfl
@[simp] theorem commitLen_replies (p : Nat) (t : Memory 8) (s : State) : (commitLen p t s).replies = s.replies := rfl
@[simp] theorem commitLen_npad (p : Nat) (t : Memory 8) (s : State) : npad (commitLen p t s) = npad s := rfl

/-! ## commitCode -/

@[simp] theorem commitCode_nsym (p : Nat) (t : Memory 16) (s : State) : (commitCode p t s).nsym = s.nsym := rfl
@[simp] theorem commitCode_maxlen (p : Nat) (t : Memory 16) (s : State) : (commitCode p t s).maxlen = s.maxlen := rfl
@[simp] theorem commitCode_codev (p : Nat) (t : Memory 16) (s : State) : (commitCode p t s).codev = s.codev := rfl
@[simp] theorem commitCode_dtabv (p : Nat) (t : Memory 16) (s : State) : (commitCode p t s).dtabv = s.dtabv := rfl
@[simp] theorem commitCode_err (p : Nat) (t : Memory 16) (s : State) : (commitCode p t s).err = s.err := rfl
@[simp] theorem commitCode_errinfo (p : Nat) (t : Memory 16) (s : State) : (commitCode p t s).errinfo = s.errinfo := rfl
@[simp] theorem commitCode_shrink (p : Nat) (t : Memory 16) (s : State) : (commitCode p t s).shrink = s.shrink := rfl
@[simp] theorem commitCode_result (p : Nat) (t : Memory 16) (s : State) : (commitCode p t s).result = s.result := rfl
@[simp] theorem commitCode_weight (p : Nat) (t : Memory 16) (s : State) : (commitCode p t s).weight = s.weight := rfl
@[simp] theorem commitCode_len (p : Nat) (t : Memory 16) (s : State) : (commitCode p t s).len = s.len := rfl
@[simp] theorem commitCode_code (p : Nat) (t : Memory 16) (s : State) : (commitCode p t s).code = Memory.replaceBelow p t s.code := rfl
@[simp] theorem commitCode_dtab (p : Nat) (t : Memory 16) (s : State) : (commitCode p t s).dtab = s.dtab := rfl
@[simp] theorem commitCode_sink (p : Nat) (t : Memory 16) (s : State) : (commitCode p t s).sink = s.sink := rfl
@[simp] theorem commitCode_src (p : Nat) (t : Memory 16) (s : State) : (commitCode p t s).src = s.src := rfl
@[simp] theorem commitCode_srcpos (p : Nat) (t : Memory 16) (s : State) : (commitCode p t s).srcpos = s.srcpos := rfl
@[simp] theorem commitCode_script (p : Nat) (t : Memory 16) (s : State) : (commitCode p t s).script = s.script := rfl
@[simp] theorem commitCode_replies (p : Nat) (t : Memory 16) (s : State) : (commitCode p t s).replies = s.replies := rfl
@[simp] theorem commitCode_npad (p : Nat) (t : Memory 16) (s : State) : npad (commitCode p t s) = npad s := rfl

/-! ## commitDtab -/

@[simp] theorem commitDtab_nsym (d : Nat) (t : Memory 17) (s : State) : (commitDtab d t s).nsym = s.nsym := rfl
@[simp] theorem commitDtab_maxlen (d : Nat) (t : Memory 17) (s : State) : (commitDtab d t s).maxlen = s.maxlen := rfl
@[simp] theorem commitDtab_codev (d : Nat) (t : Memory 17) (s : State) : (commitDtab d t s).codev = s.codev := rfl
@[simp] theorem commitDtab_dtabv (d : Nat) (t : Memory 17) (s : State) : (commitDtab d t s).dtabv = s.dtabv := rfl
@[simp] theorem commitDtab_err (d : Nat) (t : Memory 17) (s : State) : (commitDtab d t s).err = s.err := rfl
@[simp] theorem commitDtab_errinfo (d : Nat) (t : Memory 17) (s : State) : (commitDtab d t s).errinfo = s.errinfo := rfl
@[simp] theorem commitDtab_shrink (d : Nat) (t : Memory 17) (s : State) : (commitDtab d t s).shrink = s.shrink := rfl
@[simp] theorem commitDtab_result (d : Nat) (t : Memory 17) (s : State) : (commitDtab d t s).result = s.result := rfl
@[simp] theorem commitDtab_weight (d : Nat) (t : Memory 17) (s : State) : (commitDtab d t s).weight = s.weight := rfl
@[simp] theorem commitDtab_len (d : Nat) (t : Memory 17) (s : State) : (commitDtab d t s).len = s.len := rfl
@[simp] theorem commitDtab_code (d : Nat) (t : Memory 17) (s : State) : (commitDtab d t s).code = s.code := rfl
@[simp] theorem commitDtab_dtab (d : Nat) (t : Memory 17) (s : State) : (commitDtab d t s).dtab = Memory.replaceBelow d t s.dtab := rfl
@[simp] theorem commitDtab_sink (d : Nat) (t : Memory 17) (s : State) : (commitDtab d t s).sink = s.sink := rfl
@[simp] theorem commitDtab_src (d : Nat) (t : Memory 17) (s : State) : (commitDtab d t s).src = s.src := rfl
@[simp] theorem commitDtab_srcpos (d : Nat) (t : Memory 17) (s : State) : (commitDtab d t s).srcpos = s.srcpos := rfl
@[simp] theorem commitDtab_script (d : Nat) (t : Memory 17) (s : State) : (commitDtab d t s).script = s.script := rfl
@[simp] theorem commitDtab_replies (d : Nat) (t : Memory 17) (s : State) : (commitDtab d t s).replies = s.replies := rfl
@[simp] theorem commitDtab_npad (d : Nat) (t : Memory 17) (s : State) : npad (commitDtab d t s) = npad s := rfl

/-! ## raise -/

@[simp] theorem raise_nsym (f : FaultName) (w : Word) (s : State) : (raise f w s).nsym = s.nsym := rfl
@[simp] theorem raise_maxlen (f : FaultName) (w : Word) (s : State) : (raise f w s).maxlen = s.maxlen := rfl
@[simp] theorem raise_codev (f : FaultName) (w : Word) (s : State) : (raise f w s).codev = s.codev := rfl
@[simp] theorem raise_dtabv (f : FaultName) (w : Word) (s : State) : (raise f w s).dtabv = s.dtabv := rfl
@[simp] theorem raise_err (f : FaultName) (w : Word) (s : State) : (raise f w s).err = f.code := rfl
@[simp] theorem raise_errinfo (f : FaultName) (w : Word) (s : State) : (raise f w s).errinfo = w := rfl
@[simp] theorem raise_shrink (f : FaultName) (w : Word) (s : State) : (raise f w s).shrink = s.shrink := rfl
@[simp] theorem raise_result (f : FaultName) (w : Word) (s : State) : (raise f w s).result = s.result := rfl
@[simp] theorem raise_weight (f : FaultName) (w : Word) (s : State) : (raise f w s).weight = s.weight := rfl
@[simp] theorem raise_len (f : FaultName) (w : Word) (s : State) : (raise f w s).len = s.len := rfl
@[simp] theorem raise_code (f : FaultName) (w : Word) (s : State) : (raise f w s).code = s.code := rfl
@[simp] theorem raise_dtab (f : FaultName) (w : Word) (s : State) : (raise f w s).dtab = s.dtab := rfl
@[simp] theorem raise_sink (f : FaultName) (w : Word) (s : State) : (raise f w s).sink = s.sink := rfl
@[simp] theorem raise_src (f : FaultName) (w : Word) (s : State) : (raise f w s).src = s.src := rfl
@[simp] theorem raise_srcpos (f : FaultName) (w : Word) (s : State) : (raise f w s).srcpos = s.srcpos := rfl
@[simp] theorem raise_script (f : FaultName) (w : Word) (s : State) : (raise f w s).script = s.script := rfl
@[simp] theorem raise_replies (f : FaultName) (w : Word) (s : State) : (raise f w s).replies = s.replies := rfl
@[simp] theorem raise_npad (f : FaultName) (w : Word) (s : State) : npad (raise f w s) = npad s := rfl

/-! ## sinkPut -/

@[simp] theorem sinkPut_nsym (l v : Nat) (s : State) : (sinkPut l v s).nsym = s.nsym := rfl
@[simp] theorem sinkPut_maxlen (l v : Nat) (s : State) : (sinkPut l v s).maxlen = s.maxlen := rfl
@[simp] theorem sinkPut_codev (l v : Nat) (s : State) : (sinkPut l v s).codev = s.codev := rfl
@[simp] theorem sinkPut_dtabv (l v : Nat) (s : State) : (sinkPut l v s).dtabv = s.dtabv := rfl
@[simp] theorem sinkPut_err (l v : Nat) (s : State) : (sinkPut l v s).err = s.err := rfl
@[simp] theorem sinkPut_errinfo (l v : Nat) (s : State) : (sinkPut l v s).errinfo = s.errinfo := rfl
@[simp] theorem sinkPut_shrink (l v : Nat) (s : State) : (sinkPut l v s).shrink = s.shrink := rfl
@[simp] theorem sinkPut_result (l v : Nat) (s : State) : (sinkPut l v s).result = s.result := rfl
@[simp] theorem sinkPut_weight (l v : Nat) (s : State) : (sinkPut l v s).weight = s.weight := rfl
@[simp] theorem sinkPut_len (l v : Nat) (s : State) : (sinkPut l v s).len = s.len := rfl
@[simp] theorem sinkPut_code (l v : Nat) (s : State) : (sinkPut l v s).code = s.code := rfl
@[simp] theorem sinkPut_dtab (l v : Nat) (s : State) : (sinkPut l v s).dtab = s.dtab := rfl
@[simp] theorem sinkPut_sink (l v : Nat) (s : State) : (sinkPut l v s).sink = s.sink ++ bitsMsbFirst l v := rfl
@[simp] theorem sinkPut_src (l v : Nat) (s : State) : (sinkPut l v s).src = s.src := rfl
@[simp] theorem sinkPut_srcpos (l v : Nat) (s : State) : (sinkPut l v s).srcpos = s.srcpos := rfl
@[simp] theorem sinkPut_script (l v : Nat) (s : State) : (sinkPut l v s).script = s.script := rfl
@[simp] theorem sinkPut_replies (l v : Nat) (s : State) : (sinkPut l v s).replies = s.replies := rfl
@[simp] theorem sinkPut_npad (l v : Nat) (s : State) : npad (sinkPut l v s) = npad s := rfl

/-! ## srcSkip -/

@[simp] theorem srcSkip_nsym (n : Nat) (s : State) : (srcSkip n s).nsym = s.nsym := rfl
@[simp] theorem srcSkip_maxlen (n : Nat) (s : State) : (srcSkip n s).maxlen = s.maxlen := rfl
@[simp] theorem srcSkip_codev (n : Nat) (s : State) : (srcSkip n s).codev = s.codev := rfl
@[simp] theorem srcSkip_dtabv (n : Nat) (s : State) : (srcSkip n s).dtabv = s.dtabv := rfl
@[simp] theorem srcSkip_err (n : Nat) (s : State) : (srcSkip n s).err = s.err := rfl
@[simp] theorem srcSkip_errinfo (n : Nat) (s : State) : (srcSkip n s).errinfo = s.errinfo := rfl
@[simp] theorem srcSkip_shrink (n : Nat) (s : State) : (srcSkip n s).shrink = s.shrink := rfl
@[simp] theorem srcSkip_result (n : Nat) (s : State) : (srcSkip n s).result = s.result := rfl
@[simp] theorem srcSkip_weight (n : Nat) (s : State) : (srcSkip n s).weight = s.weight := rfl
@[simp] theorem srcSkip_len (n : Nat) (s : State) : (srcSkip n s).len = s.len := rfl
@[simp] theorem srcSkip_code (n : Nat) (s : State) : (srcSkip n s).code = s.code := rfl
@[simp] theorem srcSkip_dtab (n : Nat) (s : State) : (srcSkip n s).dtab = s.dtab := rfl
@[simp] theorem srcSkip_sink (n : Nat) (s : State) : (srcSkip n s).sink = s.sink := rfl
@[simp] theorem srcSkip_src (n : Nat) (s : State) : (srcSkip n s).src = s.src := rfl
@[simp] theorem srcSkip_srcpos (n : Nat) (s : State) : (srcSkip n s).srcpos = s.srcpos + n := rfl
@[simp] theorem srcSkip_script (n : Nat) (s : State) : (srcSkip n s).script = s.script := rfl
@[simp] theorem srcSkip_replies (n : Nat) (s : State) : (srcSkip n s).replies = s.replies := rfl
@[simp] theorem srcSkip_npad (n : Nat) (s : State) : npad (srcSkip n s) = npad s := rfl

/-! ## reply -/

@[simp] theorem reply_nsym (w : Word) (s : State) : (reply w s).nsym = s.nsym := rfl
@[simp] theorem reply_maxlen (w : Word) (s : State) : (reply w s).maxlen = s.maxlen := rfl
@[simp] theorem reply_codev (w : Word) (s : State) : (reply w s).codev = s.codev := rfl
@[simp] theorem reply_dtabv (w : Word) (s : State) : (reply w s).dtabv = s.dtabv := rfl
@[simp] theorem reply_err (w : Word) (s : State) : (reply w s).err = s.err := rfl
@[simp] theorem reply_errinfo (w : Word) (s : State) : (reply w s).errinfo = s.errinfo := rfl
@[simp] theorem reply_shrink (w : Word) (s : State) : (reply w s).shrink = s.shrink := rfl
@[simp] theorem reply_result (w : Word) (s : State) : (reply w s).result = s.result := rfl
@[simp] theorem reply_weight (w : Word) (s : State) : (reply w s).weight = s.weight := rfl
@[simp] theorem reply_len (w : Word) (s : State) : (reply w s).len = s.len := rfl
@[simp] theorem reply_code (w : Word) (s : State) : (reply w s).code = s.code := rfl
@[simp] theorem reply_dtab (w : Word) (s : State) : (reply w s).dtab = s.dtab := rfl
@[simp] theorem reply_sink (w : Word) (s : State) : (reply w s).sink = s.sink := rfl
@[simp] theorem reply_src (w : Word) (s : State) : (reply w s).src = s.src := rfl
@[simp] theorem reply_srcpos (w : Word) (s : State) : (reply w s).srcpos = s.srcpos := rfl
@[simp] theorem reply_script (w : Word) (s : State) : (reply w s).script = s.script := rfl
@[simp] theorem reply_replies (w : Word) (s : State) : (reply w s).replies = s.replies ++ [w] := rfl
@[simp] theorem reply_npad (w : Word) (s : State) : npad (reply w s) = npad s := rfl

/-! ## setScript -/

@[simp] theorem setScript_nsym (l : List HostEvent) (s : State) : (setScript l s).nsym = s.nsym := rfl
@[simp] theorem setScript_maxlen (l : List HostEvent) (s : State) : (setScript l s).maxlen = s.maxlen := rfl
@[simp] theorem setScript_codev (l : List HostEvent) (s : State) : (setScript l s).codev = s.codev := rfl
@[simp] theorem setScript_dtabv (l : List HostEvent) (s : State) : (setScript l s).dtabv = s.dtabv := rfl
@[simp] theorem setScript_err (l : List HostEvent) (s : State) : (setScript l s).err = s.err := rfl
@[simp] theorem setScript_errinfo (l : List HostEvent) (s : State) : (setScript l s).errinfo = s.errinfo := rfl
@[simp] theorem setScript_shrink (l : List HostEvent) (s : State) : (setScript l s).shrink = s.shrink := rfl
@[simp] theorem setScript_result (l : List HostEvent) (s : State) : (setScript l s).result = s.result := rfl
@[simp] theorem setScript_weight (l : List HostEvent) (s : State) : (setScript l s).weight = s.weight := rfl
@[simp] theorem setScript_len (l : List HostEvent) (s : State) : (setScript l s).len = s.len := rfl
@[simp] theorem setScript_code (l : List HostEvent) (s : State) : (setScript l s).code = s.code := rfl
@[simp] theorem setScript_dtab (l : List HostEvent) (s : State) : (setScript l s).dtab = s.dtab := rfl
@[simp] theorem setScript_sink (l : List HostEvent) (s : State) : (setScript l s).sink = s.sink := rfl
@[simp] theorem setScript_src (l : List HostEvent) (s : State) : (setScript l s).src = s.src := rfl
@[simp] theorem setScript_srcpos (l : List HostEvent) (s : State) : (setScript l s).srcpos = s.srcpos := rfl
@[simp] theorem setScript_script (l : List HostEvent) (s : State) : (setScript l s).script = l := rfl
@[simp] theorem setScript_replies (l : List HostEvent) (s : State) : (setScript l s).replies = s.replies := rfl
@[simp] theorem setScript_npad (l : List HostEvent) (s : State) : npad (setScript l s) = npad s := rfl

/-! ## setFlags -/

@[simp] theorem setFlags_nsym (c d : Bool) (s : State) : (setFlags c d s).nsym = s.nsym := rfl
@[simp] theorem setFlags_maxlen (c d : Bool) (s : State) : (setFlags c d s).maxlen = s.maxlen := rfl
@[simp] theorem setFlags_codev (c d : Bool) (s : State) : (setFlags c d s).codev = c := rfl
@[simp] theorem setFlags_dtabv (c d : Bool) (s : State) : (setFlags c d s).dtabv = d := rfl
@[simp] theorem setFlags_err (c d : Bool) (s : State) : (setFlags c d s).err = s.err := rfl
@[simp] theorem setFlags_errinfo (c d : Bool) (s : State) : (setFlags c d s).errinfo = s.errinfo := rfl
@[simp] theorem setFlags_shrink (c d : Bool) (s : State) : (setFlags c d s).shrink = s.shrink := rfl
@[simp] theorem setFlags_result (c d : Bool) (s : State) : (setFlags c d s).result = s.result := rfl
@[simp] theorem setFlags_weight (c d : Bool) (s : State) : (setFlags c d s).weight = s.weight := rfl
@[simp] theorem setFlags_len (c d : Bool) (s : State) : (setFlags c d s).len = s.len := rfl
@[simp] theorem setFlags_code (c d : Bool) (s : State) : (setFlags c d s).code = s.code := rfl
@[simp] theorem setFlags_dtab (c d : Bool) (s : State) : (setFlags c d s).dtab = s.dtab := rfl
@[simp] theorem setFlags_sink (c d : Bool) (s : State) : (setFlags c d s).sink = s.sink := rfl
@[simp] theorem setFlags_src (c d : Bool) (s : State) : (setFlags c d s).src = s.src := rfl
@[simp] theorem setFlags_srcpos (c d : Bool) (s : State) : (setFlags c d s).srcpos = s.srcpos := rfl
@[simp] theorem setFlags_script (c d : Bool) (s : State) : (setFlags c d s).script = s.script := rfl
@[simp] theorem setFlags_replies (c d : Bool) (s : State) : (setFlags c d s).replies = s.replies := rfl
@[simp] theorem setFlags_npad (c d : Bool) (s : State) : npad (setFlags c d s) = npad s := rfl

/-! ## inval -/

@[simp] theorem inval_nsym (s : State) : (inval s).nsym = s.nsym := rfl
@[simp] theorem inval_maxlen (s : State) : (inval s).maxlen = s.maxlen := rfl
@[simp] theorem inval_codev (s : State) : (inval s).codev = false := rfl
@[simp] theorem inval_dtabv (s : State) : (inval s).dtabv = false := rfl
@[simp] theorem inval_err (s : State) : (inval s).err = s.err := rfl
@[simp] theorem inval_errinfo (s : State) : (inval s).errinfo = s.errinfo := rfl
@[simp] theorem inval_shrink (s : State) : (inval s).shrink = s.shrink := rfl
@[simp] theorem inval_result (s : State) : (inval s).result = s.result := rfl
@[simp] theorem inval_weight (s : State) : (inval s).weight = s.weight := rfl
@[simp] theorem inval_len (s : State) : (inval s).len = s.len := rfl
@[simp] theorem inval_code (s : State) : (inval s).code = s.code := rfl
@[simp] theorem inval_dtab (s : State) : (inval s).dtab = s.dtab := rfl
@[simp] theorem inval_sink (s : State) : (inval s).sink = s.sink := rfl
@[simp] theorem inval_src (s : State) : (inval s).src = s.src := rfl
@[simp] theorem inval_srcpos (s : State) : (inval s).srcpos = s.srcpos := rfl
@[simp] theorem inval_script (s : State) : (inval s).script = s.script := rfl
@[simp] theorem inval_replies (s : State) : (inval s).replies = s.replies := rfl
@[simp] theorem inval_npad (s : State) : npad (inval s) = npad s := rfl

/-! ## codesBuilt -/

@[simp] theorem codesBuilt_nsym (s : State) : (codesBuilt s).nsym = s.nsym := rfl
@[simp] theorem codesBuilt_maxlen (s : State) : (codesBuilt s).maxlen = s.maxlen := rfl
@[simp] theorem codesBuilt_codev (s : State) : (codesBuilt s).codev = true := rfl
@[simp] theorem codesBuilt_dtabv (s : State) : (codesBuilt s).dtabv = false := rfl
@[simp] theorem codesBuilt_err (s : State) : (codesBuilt s).err = s.err := rfl
@[simp] theorem codesBuilt_errinfo (s : State) : (codesBuilt s).errinfo = s.errinfo := rfl
@[simp] theorem codesBuilt_shrink (s : State) : (codesBuilt s).shrink = s.shrink := rfl
@[simp] theorem codesBuilt_result (s : State) : (codesBuilt s).result = s.result := rfl
@[simp] theorem codesBuilt_weight (s : State) : (codesBuilt s).weight = s.weight := rfl
@[simp] theorem codesBuilt_len (s : State) : (codesBuilt s).len = s.len := rfl
@[simp] theorem codesBuilt_code (s : State) : (codesBuilt s).code = s.code := rfl
@[simp] theorem codesBuilt_dtab (s : State) : (codesBuilt s).dtab = s.dtab := rfl
@[simp] theorem codesBuilt_sink (s : State) : (codesBuilt s).sink = s.sink := rfl
@[simp] theorem codesBuilt_src (s : State) : (codesBuilt s).src = s.src := rfl
@[simp] theorem codesBuilt_srcpos (s : State) : (codesBuilt s).srcpos = s.srcpos := rfl
@[simp] theorem codesBuilt_script (s : State) : (codesBuilt s).script = s.script := rfl
@[simp] theorem codesBuilt_replies (s : State) : (codesBuilt s).replies = s.replies := rfl
@[simp] theorem codesBuilt_npad (s : State) : npad (codesBuilt s) = npad s := rfl

/-! ## tableBuilt -/

@[simp] theorem tableBuilt_nsym (s : State) : (tableBuilt s).nsym = s.nsym := rfl
@[simp] theorem tableBuilt_maxlen (s : State) : (tableBuilt s).maxlen = s.maxlen := rfl
@[simp] theorem tableBuilt_codev (s : State) : (tableBuilt s).codev = s.codev := rfl
@[simp] theorem tableBuilt_dtabv (s : State) : (tableBuilt s).dtabv = true := rfl
@[simp] theorem tableBuilt_err (s : State) : (tableBuilt s).err = s.err := rfl
@[simp] theorem tableBuilt_errinfo (s : State) : (tableBuilt s).errinfo = s.errinfo := rfl
@[simp] theorem tableBuilt_shrink (s : State) : (tableBuilt s).shrink = s.shrink := rfl
@[simp] theorem tableBuilt_result (s : State) : (tableBuilt s).result = s.result := rfl
@[simp] theorem tableBuilt_weight (s : State) : (tableBuilt s).weight = s.weight := rfl
@[simp] theorem tableBuilt_len (s : State) : (tableBuilt s).len = s.len := rfl
@[simp] theorem tableBuilt_code (s : State) : (tableBuilt s).code = s.code := rfl
@[simp] theorem tableBuilt_dtab (s : State) : (tableBuilt s).dtab = s.dtab := rfl
@[simp] theorem tableBuilt_sink (s : State) : (tableBuilt s).sink = s.sink := rfl
@[simp] theorem tableBuilt_src (s : State) : (tableBuilt s).src = s.src := rfl
@[simp] theorem tableBuilt_srcpos (s : State) : (tableBuilt s).srcpos = s.srcpos := rfl
@[simp] theorem tableBuilt_script (s : State) : (tableBuilt s).script = s.script := rfl
@[simp] theorem tableBuilt_replies (s : State) : (tableBuilt s).replies = s.replies := rfl
@[simp] theorem tableBuilt_npad (s : State) : npad (tableBuilt s) = npad s := rfl

/-! ## allBuilt -/

@[simp] theorem allBuilt_nsym (s : State) : (allBuilt s).nsym = s.nsym := rfl
@[simp] theorem allBuilt_maxlen (s : State) : (allBuilt s).maxlen = s.maxlen := rfl
@[simp] theorem allBuilt_codev (s : State) : (allBuilt s).codev = true := rfl
@[simp] theorem allBuilt_dtabv (s : State) : (allBuilt s).dtabv = true := rfl
@[simp] theorem allBuilt_err (s : State) : (allBuilt s).err = s.err := rfl
@[simp] theorem allBuilt_errinfo (s : State) : (allBuilt s).errinfo = s.errinfo := rfl
@[simp] theorem allBuilt_shrink (s : State) : (allBuilt s).shrink = s.shrink := rfl
@[simp] theorem allBuilt_result (s : State) : (allBuilt s).result = s.result := rfl
@[simp] theorem allBuilt_weight (s : State) : (allBuilt s).weight = s.weight := rfl
@[simp] theorem allBuilt_len (s : State) : (allBuilt s).len = s.len := rfl
@[simp] theorem allBuilt_code (s : State) : (allBuilt s).code = s.code := rfl
@[simp] theorem allBuilt_dtab (s : State) : (allBuilt s).dtab = s.dtab := rfl
@[simp] theorem allBuilt_sink (s : State) : (allBuilt s).sink = s.sink := rfl
@[simp] theorem allBuilt_src (s : State) : (allBuilt s).src = s.src := rfl
@[simp] theorem allBuilt_srcpos (s : State) : (allBuilt s).srcpos = s.srcpos := rfl
@[simp] theorem allBuilt_script (s : State) : (allBuilt s).script = s.script := rfl
@[simp] theorem allBuilt_replies (s : State) : (allBuilt s).replies = s.replies := rfl
@[simp] theorem allBuilt_npad (s : State) : npad (allBuilt s) = npad s := rfl

/-! ## clearBlock -/

@[simp] theorem clearBlock_nsym (s : State) : (clearBlock s).nsym = 0 := rfl
@[simp] theorem clearBlock_maxlen (s : State) : (clearBlock s).maxlen = 15 := rfl
@[simp] theorem clearBlock_codev (s : State) : (clearBlock s).codev = false := rfl
@[simp] theorem clearBlock_dtabv (s : State) : (clearBlock s).dtabv = false := rfl
@[simp] theorem clearBlock_err (s : State) : (clearBlock s).err = 0 := rfl
@[simp] theorem clearBlock_errinfo (s : State) : (clearBlock s).errinfo = 0 := rfl
@[simp] theorem clearBlock_shrink (s : State) : (clearBlock s).shrink = 0 := rfl
@[simp] theorem clearBlock_result (s : State) : (clearBlock s).result = 0 := rfl
@[simp] theorem clearBlock_weight (s : State) : (clearBlock s).weight = [] := rfl
@[simp] theorem clearBlock_len (s : State) : (clearBlock s).len = [] := rfl
@[simp] theorem clearBlock_code (s : State) : (clearBlock s).code = [] := rfl
@[simp] theorem clearBlock_dtab (s : State) : (clearBlock s).dtab = [] := rfl
@[simp] theorem clearBlock_sink (s : State) : (clearBlock s).sink = s.sink := rfl
@[simp] theorem clearBlock_src (s : State) : (clearBlock s).src = s.src := rfl
@[simp] theorem clearBlock_srcpos (s : State) : (clearBlock s).srcpos = s.srcpos := rfl
@[simp] theorem clearBlock_script (s : State) : (clearBlock s).script = s.script := rfl
@[simp] theorem clearBlock_replies (s : State) : (clearBlock s).replies = s.replies := rfl

end Sys2Proof.Machine
end

