-- ==== Sys2Proof/Laws/Ops.lean ====
section
/-! SUPPORT. What each shared operation can do, said once; every instruction and every step answers a next state. -/

namespace Sys2Proof.Machine

theorem ifLive_of_live {s t : State} (h : s.err = 0) : ifLive s t = t := if_neg (by simpa using h)

theorem ifLive_of_faulted {s t : State} (h : s.err ≠ 0) : ifLive s t = s := if_pos h

/-- A gated effect is the effect in a live block, or nothing in a faulted one (R186). -/
theorem ifLive_cases (s t : State) : (s.err = 0 ∧ ifLive s t = t) ∨ (s.err ≠ 0 ∧ ifLive s t = s) := by
  by_cases h : s.err = 0
  · exact .inl ⟨h, ifLive_of_live h⟩
  · exact .inr ⟨h, ifLive_of_faulted h⟩

/-- A raised fault is never code 0 (R173). -/
theorem code_ne_zero (f : FaultName) : f.code ≠ 0 := by cases f <;> decide

theorem code_le_nine (f : FaultName) : f.code.toNat ≤ 9 := by cases f <;> decide

/-- A host read of a mapped address returns its word; otherwise it is a bad read (R160). -/
theorem tableRead_cases (p : Prop) [Decidable p] (a : Addr) (w : Word) (s : State) :
    (p ∧ tableRead p a w s = reply w s) ∨ (¬p ∧ tableRead p a w s = badRead a s) := by
  by_cases h : p
  · exact .inl ⟨h, if_pos h⟩
  · exact .inr ⟨h, if_neg h⟩

/-- A host write (R161): ignored in the faulted block, or its effect, or `InvalidConfig(v)`, or `BadAccess(A)`. -/
theorem checkedWrite_cases (p : Prop) [Decidable p] (q : Prop) [Decidable q] (a : Addr) (v : Word) (s t : State) :
    (s.err ≠ 0 ∧ checkedWrite p q a v s t = s) ∨
      (s.err = 0 ∧ p ∧ q ∧ checkedWrite p q a v s t = t) ∨
      (s.err = 0 ∧ p ∧ ¬q ∧ checkedWrite p q a v s t = raise .invalidConfig v s) ∨
      (s.err = 0 ∧ ¬p ∧ checkedWrite p q a v s t = raise .badAccess (a.zeroExtend 32) s) := by
  unfold checkedWrite
  by_cases h : s.err = 0
  · rw [ifLive_of_live h]
    by_cases hp : p
    · by_cases hq : q
      · exact .inr (.inl ⟨h, hp, hq, by rw [if_pos hp, if_pos hq]⟩)
      · exact .inr (.inr (.inl ⟨h, hp, hq, by rw [if_pos hp, if_neg hq]⟩))
    · exact .inr (.inr (.inr ⟨h, hp, by rw [if_neg hp]⟩))
  · exact .inl ⟨h, ifLive_of_faulted h⟩

/-- A bad access (R68, R186): a read returns 0 and a write nothing; the fault is raised in a live block only. -/
theorem badAccess_cases (o : HostOp) (s : State) :
    (∃ a, o = .read a ∧ s.err = 0 ∧ badAccess o s = reply 0 (raise .badAccess (a.zeroExtend 32) s)) ∨
      (∃ a, o = .read a ∧ s.err ≠ 0 ∧ badAccess o s = reply 0 s) ∨
      (∃ a v, o = .write a v ∧ s.err = 0 ∧ badAccess o s = raise .badAccess (a.zeroExtend 32) s) ∨
      (∃ a v, o = .write a v ∧ s.err ≠ 0 ∧ badAccess o s = s) := by
  cases o with
  | read a =>
    rcases ifLive_cases s (raise .badAccess (a.zeroExtend 32) s) with ⟨h, e⟩ | ⟨h, e⟩
    · exact .inl ⟨a, rfl, h, by rw [badAccess, badRead, e]⟩
    · exact .inr (.inl ⟨a, rfl, h, by rw [badAccess, badRead, e]⟩)
  | write a v =>
    rcases ifLive_cases s (raise .badAccess (a.zeroExtend 32) s) with ⟨h, e⟩ | ⟨h, e⟩
    · exact .inr (.inr (.inl ⟨a, v, rfl, h, by rw [badAccess, badWrite, e]⟩))
    · exact .inr (.inr (.inr ⟨a, v, rfl, h, by rw [badAccess, badWrite, e]⟩))

/-- A legal command word runs its command's own meaning (R24, R82). -/
theorem runCommand_of_decode {v : Word} {i : Instr} (h : decodeCommand v = some i) (s : State) :
    runCommand v s = exec i s := by
  unfold runCommand
  rw [h]
  rcases decodeCommand_cases h with h | h | h | h | h | h | h | h <;> rw [h.1] <;> rfl

/-- A command but `CLR` does nothing in the faulted block (R186). -/
theorem exec_of_faulted {v : Word} {i : Instr} (h : decodeCommand v = some i) (hv : v ≠ 8) {s : State}
    (hs : s.err ≠ 0) : exec i s = .next s := by
  rcases decodeCommand_cases h with h | h | h | h | h | h | h | h
  all_goals first
    | exact absurd h.2 hv
    | (rw [h.1]; exact congrArg _ (ifLive_of_faulted hs))

/-- `WR CMD` of a legal command word is that command, in the faulted block too. -/
theorem execWrCmd_of_decode {v : Word} {i : Instr} (h : decodeCommand v = some i) (s : State) :
    execWrCmd v s = exec i s := by
  unfold execWrCmd
  by_cases hs : s.err = 0
  · rw [if_neg (by simpa using hs), runCommand_of_decode h]
  · rw [if_pos hs]
    by_cases hv : v = 8
    · rcases decodeCommand_cases h with h | h | h | h | h | h | h | h
      all_goals first
        | (rw [if_pos hv, h.1]; rfl)
        | (exfalso; rw [hv] at h; exact absurd h.2 (by decide))
    · rw [if_neg hv, exec_of_faulted h hv hs]

/-- `WR CMD` of an illegal word raises `IllegalCommand(v)` in a live block and is ignored in a faulted one (R174, R186). -/
theorem execWrCmd_of_illegal {v : Word} (h : decodeCommand v = none) (s : State) :
    execWrCmd v s = .next (ifLive s (raise .illegalCommand v s)) := by
  unfold execWrCmd
  by_cases hs : s.err = 0
  · rw [if_neg (by simpa using hs), ifLive_of_live hs, runCommand, h]
  · have hv : v ≠ 8 := by rintro rfl; exact absurd h (by decide)
    rw [if_pos hs, if_neg hv, ifLive_of_faulted hs]

/-- Every instruction answers a next state, in every state. -/
theorem exec_next (i : Instr) (s : State) : ∃ t, exec i s = .next t := by
  cases i with
  | wrCmd v =>
    show ∃ t, execWrCmd v s = .next t
    cases h : decodeCommand v with
    | none => exact ⟨_, execWrCmd_of_illegal h s⟩
    | some i =>
      rw [execWrCmd_of_decode h]
      rcases decodeCommand_cases h with h | h | h | h | h | h | h | h <;> rw [h.1] <;> exact ⟨_, rfl⟩
  | _ => exact ⟨_, rfl⟩

/-- What the next thing the host does can be (R70, R191, R200): nothing, reset, a bad access, or an instruction. -/
theorem fetch_cases (s : State) :
    (s.script = [] ∧ fetch s = .inl s) ∨
      (∃ rest, s.script = .reset :: rest ∧ fetch s = .inl (clearBlock (setScript rest s))) ∨
      (∃ o rest, s.script = .op o :: rest ∧ decodeHostOp o = none ∧ fetch s = .inl (badAccess o (setScript rest s))) ∨
      (∃ o rest i, s.script = .op o :: rest ∧ decodeHostOp o = some i ∧ fetch s = .inr (i, setScript rest s)) := by
  unfold fetch
  cases h : s.script with
  | nil => exact .inl ⟨rfl, rfl⟩
  | cons e rest =>
    cases e with
    | reset => exact .inr (.inl ⟨rest, rfl, rfl⟩)
    | op o =>
      cases hd : decodeHostOp o with
      | none => exact .inr (.inr (.inl ⟨o, rest, rfl, hd, by simp [hd]⟩))
      | some i => exact .inr (.inr (.inr ⟨o, rest, i, rfl, hd, by simp [hd]⟩))

/-- Every step answers a next state: nothing stops the block. -/
theorem step_next (s : State) : ∃ t, step s = .next t := by
  unfold step
  cases fetch s with
  | inl t => exact ⟨t, rfl⟩
  | inr p => exact exec_next p.1 p.2

/-- A host operation with a row in R87 runs that row's instruction. -/
theorem step_of_decode {s : State} {o : HostOp} {rest : List HostEvent} {i : Instr} (h : s.script = .op o :: rest)
    (hd : decodeHostOp o = some i) : step s = exec i (setScript rest s) := by
  unfold step fetch
  simp only [h, hd]

/-- A host operation without a row in R87 is a bad access. -/
theorem step_of_bad {s : State} {o : HostOp} {rest : List HostEvent} (h : s.script = .op o :: rest)
    (hd : decodeHostOp o = none) : step s = .next (badAccess o (setScript rest s)) := by
  unfold step fetch
  simp only [h, hd]

/-! ## Words as numbers -/

/-- Read data is zero-extended (R65): the same number, in 32 bits. -/
theorem zeroExtend_eq_ofNat {n : Nat} (x : BitVec n) : x.zeroExtend 32 = BitVec.ofNat 32 x.toNat := by
  apply BitVec.eq_of_toNat_eq
  simp

theorem shift_or_eq {a b k : Nat} (h : b < 2 ^ k) : a <<< k ||| b = a * 2 ^ k + b := by
  rw [← Nat.shiftLeft_add_eq_or_of_lt h, Nat.shiftLeft_eq]

/-- `STATUS` as a number (R25). -/
theorem statusWord_toNat (s : State) :
    (statusWord s).toNat = s.codev.toNat + 2 * s.dtabv.toNat + 256 * s.err.toNat := by
  have hc : s.codev.toNat < 2 ^ 1 := Bool.toNat_lt _
  have hd : s.dtabv.toNat < 2 ^ 1 := Bool.toNat_lt _
  have he := s.err.isLt
  simp only [statusWord, BitVec.toNat_append, BitVec.toNat_ofBool]
  rw [shift_or_eq hc, shift_or_eq hd, shift_or_eq (k := 6) (by decide), shift_or_eq he]
  simp
  omega

end Sys2Proof.Machine
end

