-- ==== Sys2Proof/Laws/Memory.lean ====
section
/-! SUPPORT. The table memories: a read after a write, the words a commit leaves, and that every operation keeps the
canonical form, in which equal tables are equal data. -/

namespace Sys2Proof.Machine

variable {n : Nat}

@[simp] theorem Memory.read_nil (i : Nat) : Memory.read ([] : Memory n) i = 0 := rfl

theorem Memory.read_cons (e : Nat × BitVec n) (m : Memory n) (i : Nat) :
    Memory.read (e :: m) i = if e.1 = i then e.2 else Memory.read m i := rfl

/-- An index no pair names reads as an unlisted one. -/
theorem Memory.read_of_forall_ne {m : Memory n} {i : Nat} (h : ∀ e ∈ m, e.1 ≠ i) : m.read i = 0 := by
  induction m with
  | nil => rfl
  | cons e m ih => simp [Memory.read_cons, h e (by simp), ih fun x hx => h x (by simp [hx])]

/-- In a table with strictly rising indices, a listed pair is what its index reads as. -/
theorem Memory.read_of_mem {m : Memory n} (hs : m.Pairwise (fun a b => a.1 < b.1)) {e : Nat × BitVec n} (he : e ∈ m) :
    m.read e.1 = e.2 := by
  induction m with
  | nil => simp at he
  | cons x m ih =>
    rw [List.pairwise_cons] at hs
    rcases List.mem_cons.1 he with rfl | he'
    · simp [Memory.read_cons]
    · have := hs.1 e he'
      rw [Memory.read_cons, if_neg (by omega), ih hs.2 he']

theorem Memory.write_nil (i : Nat) (v : BitVec n) :
    Memory.write ([] : Memory n) i v = if v = 0 then [] else [(i, v)] := rfl

theorem Memory.write_cons (k : Nat) (x : BitVec n) (m : Memory n) (i : Nat) (v : BitVec n) :
    Memory.write ((k, x) :: m) i v =
      if i < k then (if v = 0 then (k, x) :: m else (i, v) :: (k, x) :: m)
      else if i = k then (if v = 0 then m else (i, v) :: m)
      else (k, x) :: Memory.write m i v := rfl

/-- A write changes the word at its index and no other, in a table with strictly rising indices. -/
theorem Memory.read_write {m : Memory n} (hs : m.Pairwise (fun a b => a.1 < b.1)) (i j : Nat) (v : BitVec n) :
    (m.write i v).read j = if i = j then v else m.read j := by
  induction m with
  | nil =>
    rw [Memory.write_nil]
    by_cases hv : v = 0
    · subst hv; simp
    · rw [if_neg hv, Memory.read_cons]
  | cons x m ih =>
    obtain ⟨k, x⟩ := x
    rw [List.pairwise_cons] at hs
    have hrest : ∀ j ≤ k, Memory.read m j = 0 := fun j hj =>
      Memory.read_of_forall_ne fun e he => by have := hs.1 e he; simp at this; omega
    rw [Memory.write_cons]
    by_cases h1 : i < k
    · rw [if_pos h1]
      by_cases hv : v = 0
      · rw [if_pos hv]
        by_cases hij : i = j
        · subst hij
          rw [if_pos rfl, hv, Memory.read_cons, if_neg (by simp only; omega), hrest i (by omega)]
        · rw [if_neg hij]
      · rw [if_neg hv, Memory.read_cons]
    · rw [if_neg h1]
      by_cases h2 : i = k
      · subst h2
        rw [if_pos rfl]
        by_cases hv : v = 0
        · rw [if_pos hv, Memory.read_cons]
          by_cases hij : i = j
          · subst hij; rw [if_pos rfl, hv, hrest i le_rfl]
          · simp [hij]
        · rw [if_neg hv, Memory.read_cons, Memory.read_cons]
          by_cases hij : i = j <;> simp [hij]
      · rw [if_neg h2, Memory.read_cons, ih hs.2, Memory.read_cons]
        by_cases hk : k = j
        · subst hk; simp [h2]
        · simp [hk]

/-- The pairs after a write: the written one, or pairs that were there. -/
theorem Memory.mem_write {m : Memory n} {i : Nat} {v : BitVec n} {e : Nat × BitVec n} (h : e ∈ m.write i v) :
    e ∈ m ∨ (e = (i, v) ∧ v ≠ 0) := by
  induction m with
  | nil =>
    rw [Memory.write_nil] at h
    by_cases hv : v = 0
    · rw [if_pos hv] at h; exact .inl h
    · rw [if_neg hv] at h; exact .inr ⟨List.mem_singleton.1 h, hv⟩
  | cons x m ih =>
    obtain ⟨k, x⟩ := x
    simp only [Memory.write] at h
    split_ifs at h with h1 hv h2 hv
    · exact .inl h
    · rcases List.mem_cons.1 h with rfl | h
      · exact .inr ⟨rfl, hv⟩
      · exact .inl h
    · exact .inl (List.mem_cons_of_mem _ h)
    · rcases List.mem_cons.1 h with rfl | h
      · exact .inr ⟨rfl, hv⟩
      · exact .inl (List.mem_cons_of_mem _ h)
    · rcases List.mem_cons.1 h with rfl | h
      · exact .inl (by simp)
      · exact (ih h).imp_left (List.mem_cons_of_mem _)

/-- A write keeps the canonical form. -/
theorem Memory.wf_write {m : Memory n} (h : m.wf) (i : Nat) (v : BitVec n) : (m.write i v).wf := by
  refine ⟨?_, fun e he => ?_⟩
  · obtain ⟨h, -⟩ := h
    induction m with
    | nil =>
      rw [Memory.write_nil]
      by_cases hv : v = 0
      · rw [if_pos hv]; exact List.Pairwise.nil
      · rw [if_neg hv]; exact List.pairwise_singleton _ _
    | cons x m ih =>
      obtain ⟨k, x⟩ := x
      have hc := h
      rw [List.pairwise_cons] at hc
      simp only [Memory.write]
      split_ifs with h1 hv h2 hv
      · exact h
      · refine List.pairwise_cons.2 ⟨fun e he => ?_, h⟩
        rcases List.mem_cons.1 he with rfl | he
        · exact h1
        · exact lt_trans h1 (hc.1 e he)
      · exact hc.2
      · exact List.pairwise_cons.2 ⟨fun e he => h2 ▸ hc.1 e he, hc.2⟩
      · refine List.pairwise_cons.2 ⟨fun e he => ?_, ih hc.2⟩
        rcases Memory.mem_write he with he | ⟨rfl, -⟩
        · exact hc.1 e he
        · simp only; omega
  · rcases Memory.mem_write he with he | ⟨rfl, hv⟩
    · exact h.2 e he
    · exact hv

theorem Memory.wf_nil : Memory.wf ([] : Memory n) := ⟨List.Pairwise.nil, by simp⟩

theorem Memory.read_filter (q : Nat → Bool) (m : Memory n) (i : Nat) :
    Memory.read (m.filter (fun e => q e.1)) i = if q i then m.read i else 0 := by
  induction m with
  | nil => simp
  | cons e m ih =>
    by_cases hq : q e.1
    · rw [List.filter_cons_of_pos (by simpa using hq), Memory.read_cons, ih, Memory.read_cons]
      by_cases he : e.1 = i
      · subst he; simp [hq]
      · simp [he]
    · rw [List.filter_cons_of_neg (by simpa using hq), ih, Memory.read_cons]
      by_cases he : e.1 = i
      · subst he; simp [hq]
      · simp [he]

theorem Memory.read_append (a b : Memory n) (i : Nat) :
    Memory.read (a ++ b) i = if (∃ e ∈ a, e.1 = i) then a.read i else b.read i := by
  induction a with
  | nil => simp
  | cons e a ih =>
    rw [List.cons_append, Memory.read_cons, ih, Memory.read_cons]
    by_cases he : e.1 = i
    · simp [he]
    · simp [he]

/-- What a commit leaves (R9): the new words below `p`, the old ones from `p` on. -/
theorem Memory.read_replaceBelow (p : Nat) (new old : Memory n) (i : Nat) :
    (Memory.replaceBelow p new old).read i = if i < p then new.read i else old.read i := by
  unfold Memory.replaceBelow
  rw [Memory.read_append, Memory.read_filter (fun k => decide (k < p)), Memory.read_filter (fun k => decide (p ≤ k))]
  by_cases hi : i < p
  · have h1 : decide (i < p) = true := decide_eq_true hi
    have h2 : ¬ decide (p ≤ i) = true := by rw [decide_eq_true_eq]; omega
    rw [if_pos h1, if_neg h2, if_pos hi]
    split_ifs with h
    · rfl
    · refine (Memory.read_of_forall_ne fun e he hei => h ⟨e, ?_, hei⟩).symm
      simp [he, hei, hi]
  · simp only [hi, decide_false, if_false]
    rw [if_neg, if_pos (by simpa using hi)]
    rintro ⟨e, he, hei⟩
    simp at he
    omega

/-- A commit keeps the canonical form. -/
theorem Memory.wf_replaceBelow {p : Nat} {new old : Memory n} (hn : new.wf) (ho : old.wf) :
    (Memory.replaceBelow p new old).wf := by
  refine ⟨?_, fun e he => ?_⟩
  · refine List.pairwise_append.2 ⟨hn.1.filter _, ho.1.filter _, fun a ha b hb => ?_⟩
    simp at ha hb
    omega
  · rcases List.mem_append.1 he with he | he
    · exact hn.2 e (List.mem_of_mem_filter he)
    · exact ho.2 e (List.mem_of_mem_filter he)

/-- The pairs after a commit: new ones below `p`, or old ones. -/
theorem Memory.mem_replaceBelow {p : Nat} {new old : Memory n} {e : Nat × BitVec n}
    (h : e ∈ Memory.replaceBelow p new old) : (e ∈ new ∧ e.1 < p) ∨ (e ∈ old ∧ p ≤ e.1) := by
  rcases List.mem_append.1 h with h | h <;> simp at h
  · exact .inl h
  · exact .inr h

theorem Memory.read_map_range (base count : Nat) (v : BitVec n) (i : Nat) :
    Memory.read ((List.range count).map (fun j => (base + j, v))) i = if base ≤ i ∧ i < base + count then v else 0 := by
  by_cases h : base ≤ i ∧ i < base + count
  · rw [if_pos h]
    refine Memory.read_of_mem (e := (i, v)) ?_ ?_
    · exact List.Pairwise.map _ (fun a b hab => by simp only; omega) List.pairwise_lt_range
    · exact List.mem_map.2 ⟨i - base, by simp; omega, by simp; omega⟩
  · rw [if_neg h]
    refine Memory.read_of_forall_ne fun e he hei => h ?_
    obtain ⟨j, hj, rfl⟩ := List.mem_map.1 he
    simp at hj hei
    omega

/-- A run of words: inside it reads as the word, outside as before. -/
theorem Memory.read_fill (base count : Nat) (v : BitVec n) (m : Memory n) (i : Nat) :
    (m.fill base count v).read i = if base ≤ i ∧ i < base + count then v else m.read i := by
  have hrun : ∀ x : Memory n, x = (if v = Memory.unlisted n then [] else (List.range count).map (fun j => (base + j, v))) →
      x.read i = (if base ≤ i ∧ i < base + count then v else 0) ∧ ∀ e ∈ x, base ≤ e.1 ∧ e.1 < base + count := by
    rintro x rfl
    split_ifs with hv hi hi
    · exact ⟨by rw [hv]; rfl, by simp⟩
    · exact ⟨rfl, by simp⟩
    · refine ⟨by rw [Memory.read_map_range, if_pos hi], fun e he => ?_⟩
      obtain ⟨j, hj, rfl⟩ := List.mem_map.1 he
      simp at hj ⊢
      omega
    · refine ⟨by rw [Memory.read_map_range, if_neg hi], fun e he => ?_⟩
      obtain ⟨j, hj, rfl⟩ := List.mem_map.1 he
      simp at hj ⊢
      omega
  unfold Memory.fill
  generalize hx : (if v = Memory.unlisted n then [] else (List.range count).map (fun j => (base + j, v))) = x
  obtain ⟨h1, h2⟩ := hrun x hx.symm
  rw [Memory.read_append, Memory.read_append, h1, Memory.read_filter (fun k => decide (k < base)),
    Memory.read_filter (fun k => decide (base + count ≤ k))]
  by_cases hlow : i < base
  · have hb : ¬∃ e ∈ x, e.1 = i := fun ⟨e, he, hei⟩ => by have := h2 e he; omega
    have hz : ¬(decide (base + count ≤ i) = true) := by simp; omega
    rw [if_neg hb, if_neg hz, if_pos (decide_eq_true hlow), if_neg (show ¬(base ≤ i ∧ i < base + count) by omega)]
    split_ifs with ha
    · rfl
    · exact (Memory.read_of_forall_ne fun e he hei => ha ⟨e, by simp [he, hei, hlow], hei⟩).symm
  · have ha : ¬∃ e ∈ m.filter (fun e => decide (e.1 < base)), e.1 = i := by
      rintro ⟨e, he, rfl⟩
      simp at he
      omega
    rw [if_neg ha]
    by_cases hin : i < base + count
    · have hz : ¬(decide (base + count ≤ i) = true) := by simp; omega
      have hc : base ≤ i ∧ i < base + count := ⟨by omega, hin⟩
      rw [if_pos hc] at h1
      rw [if_neg hz]
      simp only [if_pos hc]
      split_ifs with hb
      · rfl
      · rw [← h1]
        exact (Memory.read_of_forall_ne fun e he hei => hb ⟨e, he, hei⟩).symm
    · have hb : ¬∃ e ∈ x, e.1 = i := fun ⟨e, he, hei⟩ => by have := h2 e he; omega
      rw [if_neg hb, if_neg (show ¬(base ≤ i ∧ i < base + count) by omega), if_pos (by simp; omega)]

/-- A run of words keeps the canonical form. -/
theorem Memory.wf_fill {m : Memory n} (h : m.wf) (base count : Nat) (v : BitVec n) : (m.fill base count v).wf := by
  unfold Memory.fill
  refine ⟨List.pairwise_append.2 ⟨h.1.filter _, List.pairwise_append.2 ⟨?_, h.1.filter _, fun a ha b hb => ?_⟩,
    fun a ha b hb => ?_⟩, fun e he => ?_⟩
  · split_ifs
    · exact List.Pairwise.nil
    · exact List.Pairwise.map _ (fun a b hab => by simp only; omega) List.pairwise_lt_range
  · split_ifs at ha
    · simp at ha
    · obtain ⟨j, hj, rfl⟩ := List.mem_map.1 ha
      simp at hj hb ⊢
      omega
  · simp at ha
    rcases List.mem_append.1 hb with hb | hb
    · split_ifs at hb
      · simp at hb
      · obtain ⟨j, hj, rfl⟩ := List.mem_map.1 hb
        simp
        omega
    · simp at hb
      omega
  · rcases List.mem_append.1 he with he | he
    · exact h.2 e (List.mem_of_mem_filter he)
    · rcases List.mem_append.1 he with he | he
      · split_ifs at he with hv
        · simp at he
        · obtain ⟨j, hj, rfl⟩ := List.mem_map.1 he
          exact hv
      · exact h.2 e (List.mem_of_mem_filter he)

/-- In canonical form, tables that read alike are equal data. -/
theorem Memory.ext_of_read {a b : Memory n} (ha : a.wf) (hb : b.wf) (h : ∀ i, a.read i = b.read i) : a = b := by
  have mem : ∀ {a b : Memory n}, a.wf → b.wf → (∀ i, a.read i = b.read i) → ∀ e ∈ a, e ∈ b := by
    intro a b ha hb h e he
    have h1 := Memory.read_of_mem ha.1 he
    by_contra hne
    have : b.read e.1 = 0 ∨ ∃ x ∈ b, x.1 = e.1 := by
      by_cases hx : ∃ x ∈ b, x.1 = e.1
      · exact .inr hx
      · exact .inl (Memory.read_of_forall_ne fun x hx' hxe => hx ⟨x, hx', hxe⟩)
    rcases this with h0 | ⟨x, hx, hxe⟩
    · exact ha.2 e he (by rw [← h1, h, h0])
    · have h2 := Memory.read_of_mem hb.1 hx
      rw [hxe, ← h, h1] at h2
      exact hne ((Prod.ext hxe h2.symm : x = e) ▸ hx)
  have nodup : ∀ {a : Memory n}, a.wf → a.Nodup := fun ha => ha.1.imp fun h he => by simp [he] at h
  have hp : a.Perm b := (List.perm_ext_iff_of_nodup (nodup ha) (nodup hb)).2 fun e =>
    ⟨mem ha hb h e, mem hb ha (fun i => (h i).symm) e⟩
  exact hp.eq_of_pairwise (fun x y _ _ hxy hyx => absurd (lt_trans hxy hyx) (lt_irrefl _)) ha.1 hb.1

end Sys2Proof.Machine
end

