-- ==== Sys2Proof/Laws/Tables.lean ====
section
/-! SUPPORT. What the table builders compute: the words of a length table, the slots of a decode table, the first attempt
the retry loop takes, and what extraction does to the queue. -/

namespace Sys2Proof.Machine

/-! ## The length table -/

theorem wf_foldl_write {n : Nat} (l : List (Nat × BitVec n)) {t : Memory n} (h : t.wf) :
    (l.foldl (fun t p => t.write p.1 p.2) t).wf := by
  induction l generalizing t with
  | nil => exact h
  | cons p l ih => exact ih (Memory.wf_write h _ _)

/-- Writes at indices without repeats: each written index reads as its word, every other as before. -/
theorem read_foldl_write {n : Nat} (l : List (Nat × BitVec n)) (hl : (l.map Prod.fst).Nodup) {t : Memory n} (h : t.wf)
    (i : Nat) :
    (∀ v, (i, v) ∈ l → (l.foldl (fun t p => t.write p.1 p.2) t).read i = v) ∧
      (i ∉ l.map Prod.fst → (l.foldl (fun t p => t.write p.1 p.2) t).read i = t.read i) := by
  induction l generalizing t with
  | nil => simp
  | cons p l ih =>
    rw [List.map_cons, List.nodup_cons] at hl
    have ih := ih hl.2 (Memory.wf_write h p.1 p.2)
    refine ⟨fun v hv => ?_, fun hi => ?_⟩
    · rcases List.mem_cons.1 hv with rfl | hv
      · rw [List.foldl_cons, ih.2 hl.1, Memory.read_write h.1, if_pos rfl]
      · exact ih.1 v hv
    · rw [List.map_cons, List.mem_cons, not_or] at hi
      rw [List.foldl_cons, ih.2 hi.2, Memory.read_write h.1, if_neg (Ne.symm hi.1)]

theorem lengthTable_eq (d : List (Nat × Nat)) :
    lengthTable d =
      (d.map (fun p => (p.1, BitVec.ofNat 8 p.2))).foldl (fun (t : Memory 8) p => t.write p.1 p.2) [] := by
  rw [List.foldl_map]
  rfl

theorem wf_lengthTable (d : List (Nat × Nat)) : (lengthTable d).wf := by
  rw [lengthTable_eq]
  exact wf_foldl_write _ Memory.wf_nil

/-- The length table of recorded depths, each symbol once (R100): the depth, or 0 for a symbol not recorded. -/
theorem read_lengthTable {d : List (Nat × Nat)} (hd : (d.map Prod.fst).Nodup) (i : Nat) :
    (∀ x, (i, x) ∈ d → (lengthTable d).read i = BitVec.ofNat 8 x) ∧
      (i ∉ d.map Prod.fst → (lengthTable d).read i = 0) := by
  have he : (d.map (fun p => (p.1, BitVec.ofNat 8 p.2))).map Prod.fst = d.map Prod.fst := by simp [Function.comp_def]
  have h := read_foldl_write (d.map (fun p => (p.1, BitVec.ofNat 8 p.2))) (by rw [he]; exact hd) Memory.wf_nil i
  rw [← lengthTable_eq, he] at h
  exact ⟨fun x hx => h.1 _ (List.mem_map.2 ⟨(i, x), hx, rfl⟩), h.2⟩

/-! ## The decode table -/

theorem wf_fillSlots (base count i : Nat) {t : Memory 17} (h : t.wf) : (fillSlots base count i t).wf :=
  Memory.wf_fill h _ _ _

/-- The slots `base .. base + count - 1` are the symbol's, every other slot is as before (R130). -/
theorem read_fillSlots (base count i : Nat) (t : Memory 17) (v : Nat) :
    (fillSlots base count i t).read v =
      if base ≤ v ∧ v < base + count then validSlot (BitVec.ofNat 16 i) else t.read v :=
  Memory.read_fill _ _ _ _ _

/-- Symbol `i` is active and slot `v` is in its range (R131). -/
def Covers (m : Nat) (len : Memory 8) (code : Memory 16) (i v : Nat) : Prop :=
  len.read i ≠ 0 ∧ (code.read i).toNat * 2 ^ (m - (len.read i).toNat) ≤ v ∧
    v < (code.read i).toNat * 2 ^ (m - (len.read i).toNat) + 2 ^ (m - (len.read i).toNat)

theorem wf_fillSymbol (m : Nat) (len : Memory 8) (code : Memory 16) (i : Nat) {t : Memory 17} (h : t.wf) :
    (fillSymbol m len code t i).wf := by
  unfold fillSymbol
  split_ifs
  · exact h
  · exact wf_fillSlots _ _ _ h

theorem read_fillSymbol_of_covers {m : Nat} {len : Memory 8} {code : Memory 16} {i v : Nat} (t : Memory 17)
    (hc : Covers m len code i v) : (fillSymbol m len code t i).read v = validSlot (BitVec.ofNat 16 i) := by
  unfold fillSymbol
  rw [if_neg hc.1, read_fillSlots, if_pos hc.2]

theorem read_fillSymbol_of_not_covers {m : Nat} {len : Memory 8} {code : Memory 16} {i v : Nat} (t : Memory 17)
    (hc : ¬Covers m len code i v) : (fillSymbol m len code t i).read v = t.read v := by
  unfold fillSymbol
  split_ifs with h0
  · rfl
  · rw [read_fillSlots, if_neg fun hv => hc ⟨h0, hv⟩]

theorem buildTable_succ (p m : Nat) (len : Memory 8) (code : Memory 16) :
    buildTable (p + 1) m len code = fillSymbol m len code (buildTable p m len code) p := by
  simp [buildTable, List.range_succ]

theorem wf_buildTable (p m : Nat) (len : Memory 8) (code : Memory 16) : (buildTable p m len code).wf := by
  induction p with
  | zero => exact Memory.wf_nil
  | succ p ih => rw [buildTable_succ]; exact wf_fillSymbol _ _ _ _ ih

/-- A slot of the built table (R130): `(0, 0)` if no active symbol's range has it, else the last such symbol's. -/
theorem read_buildTable_cases (p m : Nat) (len : Memory 8) (code : Memory 16) (v : Nat) :
    ((∀ i < p, ¬Covers m len code i v) ∧ (buildTable p m len code).read v = 0) ∨
      ∃ i < p, Covers m len code i v ∧ (∀ j < p, i < j → ¬Covers m len code j v) ∧
        (buildTable p m len code).read v = validSlot (BitVec.ofNat 16 i) := by
  induction p with
  | zero => exact .inl ⟨by simp, rfl⟩
  | succ p ih =>
    rw [buildTable_succ]
    by_cases hc : Covers m len code p v
    · exact .inr ⟨p, by omega, hc, fun j hj hij => by omega,
        read_fillSymbol_of_covers _ hc⟩
    · rw [read_fillSymbol_of_not_covers _ hc]
      rcases ih with ⟨hn, hr⟩ | ⟨i, hi, hci, hl, hr⟩
      · refine .inl ⟨fun i hi => ?_, hr⟩
        rcases Nat.lt_succ_iff_lt_or_eq.1 hi with hi | rfl
        · exact hn i hi
        · exact hc
      · refine .inr ⟨i, by omega, hci, fun j hj hij => ?_, hr⟩
        rcases Nat.lt_succ_iff_lt_or_eq.1 hj with hj | rfl
        · exact hl j hj hij
        · exact hc

/-- The built table depends on the words of LEN and CODE below `p` alone. -/
theorem buildTable_congr {p m : Nat} {len len' : Memory 8} {code code' : Memory 16}
    (hl : ∀ i < p, len.read i = len'.read i) (hc : ∀ i < p, code.read i = code'.read i) :
    buildTable p m len code = buildTable p m len' code' := by
  induction p with
  | zero => rfl
  | succ p ih =>
    rw [buildTable_succ, buildTable_succ, ih (fun i hi => hl i (by omega)) fun i hi => hc i (by omega)]
    unfold fillSymbol
    rw [hl p (by omega), hc p (by omega)]

/-! ## Slots -/

theorem validSlot_toNat (i : BitVec 16) : (validSlot i).toNat = 65536 + i.toNat := by
  have h : (validSlot i).toNat = (1 : BitVec 1).toNat <<< 16 ||| i.toNat := BitVec.toNat_append _ _
  rw [h, ← Nat.shiftLeft_add_eq_or_of_lt i.isLt]
  rfl

theorem slotValid_eq (x : BitVec 17) : slotValid x = decide (65536 ≤ x.toNat) := by
  have := x.isLt
  rw [slotValid, BitVec.getLsbD, Nat.testBit_eq_decide_div_mod_eq]
  congr 1
  apply propext
  constructor <;> intro h <;> omega

theorem slotValid_validSlot (i : BitVec 16) : slotValid (validSlot i) = true := by
  rw [slotValid_eq, validSlot_toNat]
  exact decide_eq_true (by omega)

theorem slotSym_validSlot (i : BitVec 16) : slotSym (validSlot i) = i := by
  have := i.isLt
  apply BitVec.eq_of_toNat_eq
  simp only [slotSym, BitVec.extractLsb'_toNat, Nat.shiftRight_zero, validSlot_toNat]
  omega

theorem slotValid_zero : slotValid 0 = false := by decide

/-! ## The retry loop -/

/-- The retry loop (R108): the first exponent from `s` on whose attempt fits, if there is one among `fuel`. -/
theorem retryFrom_eq_some {act : List Nat} {weight : Memory 32} {m fuel s k : Nat} {d : List (Nat × Nat)}
    (h : retryFrom act weight m fuel s = some (d, k)) :
    s ≤ k ∧ k < s + fuel ∧ d = attempt act weight k ∧ fits m d = true ∧
      ∀ j, s ≤ j → j < k → fits m (attempt act weight j) = false := by
  induction fuel generalizing s with
  | zero => simp [retryFrom] at h
  | succ f ih =>
    rw [retryFrom] at h
    by_cases hf : fits m (attempt act weight s) = true
    · rw [if_pos hf] at h
      obtain ⟨rfl, rfl⟩ := Prod.mk.inj (Option.some.inj h)
      exact ⟨le_rfl, by omega, rfl, hf, fun j h1 h2 => by omega⟩
    · rw [if_neg hf] at h
      obtain ⟨h1, h2, h3, h4, h5⟩ := ih h
      refine ⟨by omega, by omega, h3, h4, fun j hj hk => ?_⟩
      rcases Nat.eq_or_lt_of_le hj with rfl | hj
      · simpa using hf
      · exact h5 j hj hk

/-- The retry loop finds nothing iff no attempt fits (R108). -/
theorem retryFrom_eq_none {act : List Nat} {weight : Memory 32} {m fuel s : Nat} :
    retryFrom act weight m fuel s = none ↔ ∀ j, s ≤ j → j < s + fuel → fits m (attempt act weight j) = false := by
  induction fuel generalizing s with
  | zero => simp [retryFrom]; omega
  | succ f ih =>
    rw [retryFrom]
    by_cases hf : fits m (attempt act weight s) = true
    · rw [if_pos hf]
      exact ⟨fun h => by simp at h, fun h => by have := h s le_rfl (by omega); simp [hf] at this⟩
    · rw [if_neg hf, ih]
      refine ⟨fun h j hj hk => ?_, fun h j hj hk => h j (by omega) (by omega)⟩
      rcases Nat.eq_or_lt_of_le hj with rfl | hj
      · simpa using hf
      · exact h j hj (by omega)

/-! ## The tree -/

/-- Extraction takes one node out of the queue and keeps the others. -/
theorem extractFirst_perm (n : Node) (q : List Node) :
    ((extractFirst n q).1 :: (extractFirst n q).2).Perm (n :: q) := by
  induction q generalizing n with
  | nil => exact List.Perm.refl _
  | cons m q ih =>
    rw [extractFirst]
    split_ifs
    · exact (List.Perm.swap _ _ _).trans ((ih m).cons n)
    · exact (List.Perm.swap _ _ _).trans (((ih n).cons m).trans (List.Perm.swap _ _ _))

theorem length_extractFirst (n : Node) (q : List Node) : (extractFirst n q).2.length = q.length := by
  have := (extractFirst_perm n q).length_eq
  simpa using this

/-- The extraction order (R104) as its clauses read: by weight, then by the tie-break. -/
theorem nodeBefore_iff (a b : Node) :
    nodeBefore a b = true ↔
      nodeWeight a < nodeWeight b ∨ (nodeWeight a = nodeWeight b ∧ tieBefore a b = true) := by
  simp [nodeBefore]

theorem tieBefore_trans {a b c : Node} (h1 : tieBefore a b = true) (h2 : tieBefore b c = true) :
    tieBefore a c = true := by
  cases a <;> cases b <;> cases c <;> simp [tieBefore] at h1 h2 ⊢ <;> omega

/-- The extraction order is transitive. -/
theorem nodeBefore_trans {a b c : Node} (h1 : nodeBefore a b = true) (h2 : nodeBefore b c = true) :
    nodeBefore a c = true := by
  rw [nodeBefore_iff] at *
  have := @tieBefore_trans a b c
  rcases h1 with h1 | ⟨h1, t1⟩ <;> rcases h2 with h2 | ⟨h2, t2⟩
  · exact .inl (by omega)
  · exact .inl (by omega)
  · exact .inl (by omega)
  · exact .inr ⟨by omega, this t1 t2⟩

/-- Where the tie-break tells two nodes apart, one is before the other. -/
theorem nodeBefore_total {a b : Node} (h : tieBefore a b = true ∨ tieBefore b a = true) :
    nodeBefore a b = true ∨ nodeBefore b a = true := by
  rw [nodeBefore_iff, nodeBefore_iff]
  rcases Nat.lt_trichotomy (nodeWeight a) (nodeWeight b) with hw | hw | hw
  · exact .inl (.inl hw)
  · rcases h with h | h
    · exact .inl (.inr ⟨hw, h⟩)
    · exact .inr (.inr ⟨hw.symm, h⟩)
  · exact .inr (.inl hw)

/-- One turn of the merging (R105) on a queue of two or more: what is taken first and second becomes one node. -/
theorem mergeNodes_succ (fuel k : Nat) (n m : Node) (q : List Node) :
    ∃ (a b : Node) (rest1 : List Node) (c : Node) (rest2 : List Node), extractFirst n (m :: q) = (a, c :: rest1) ∧
      extractFirst c rest1 = (b, rest2) ∧ rest2.length = q.length ∧
      mergeNodes (fuel + 1) k n (m :: q) =
        mergeNodes fuel (k + 1) (.internal k (nodeWeight a + nodeWeight b) a b) rest2 := by
  obtain ⟨a, r, h1⟩ : ∃ a r, extractFirst n (m :: q) = (a, r) := ⟨_, _, rfl⟩
  have hl := length_extractFirst n (m :: q)
  rw [h1] at hl
  cases r with
  | nil => simp at hl
  | cons c rest1 =>
    obtain ⟨b, rest2, h2⟩ : ∃ b r, extractFirst c rest1 = (b, r) := ⟨_, _, rfl⟩
    have hl2 := length_extractFirst c rest1
    rw [h2] at hl2
    refine ⟨a, b, rest1, c, rest2, h1, h2, ?_, ?_⟩
    · simp at hl hl2
      omega
    · rw [mergeNodes, h1]
      simp only [h2]

/-- Every internal node has two children (R105), so the leaves below a node at depth `d` satisfy Kraft's equality:
scaled by `2^m`, they sum to `2^(m-d)`. -/
theorem kraft_leafDepths (n : Node) {m d : Nat} (h : ∀ p ∈ leafDepths n d, p.2 ≤ m) :
    ((leafDepths n d).map (fun p => 2 ^ (m - p.2))).sum = 2 ^ (m - d) := by
  induction n generalizing d with
  | leaf i w => simp [leafDepths]
  | internal k w a b iha ihb =>
    have hne : ∀ (n : Node) (d : Nat), ∃ p ∈ leafDepths n d, d ≤ p.2 := by
      intro n
      induction n with
      | leaf i w => intro d; exact ⟨(i, d), by simp [leafDepths], le_rfl⟩
      | internal k w a b iha _ =>
        intro d
        obtain ⟨p, hp, hd⟩ := iha (d + 1)
        exact ⟨p, by simp [leafDepths, hp], by omega⟩
    simp only [leafDepths, List.map_append, List.sum_append, List.mem_append] at h ⊢
    rw [iha fun p hp => h p (.inl hp), ihb fun p hp => h p (.inr hp)]
    obtain ⟨p, hp, hd⟩ := hne a (d + 1)
    have := h p (.inl hp)
    have he : m - d = (m - (d + 1)) + 1 := by omega
    rw [he, pow_succ]
    ring

end Sys2Proof.Machine
end

