-- ==== Sys2Proof/Laws/Effects.lean ====
section
/-! SUPPORT. What each command's effect in a live block can be, said once: its success with the value it computed, or the
fault with the failed check. -/

namespace Sys2Proof.Machine

/-! ## The length builder -/

theorem mem_activeSymbols {n i : Nat} {weight : Memory 32} :
    i ∈ activeSymbols n weight ↔ i < n ∧ weight.read i ≠ 0 := by
  simp [activeSymbols]

theorem nodup_activeSymbols (n : Nat) (weight : Memory 32) : (activeSymbols n weight).Nodup :=
  List.Nodup.filter _ List.nodup_range

/-- The special cases and the retry loop (R100, R101, R108). -/
theorem buildLengths_cases (n m : Nat) (weight : Memory 32) :
    (activeSymbols n weight = [] ∧ buildLengths n m weight = .ok ([], 0)) ∨
      (∃ a, activeSymbols n weight = [a] ∧ buildLengths n m weight = .ok (lengthTable [(a, 1)], 0)) ∨
      (2 ≤ (activeSymbols n weight).length ∧ ∃ d k, retryFrom (activeSymbols n weight) weight m 33 0 = some (d, k) ∧
        buildLengths n m weight = .ok (lengthTable d, k)) ∨
      (2 ≤ (activeSymbols n weight).length ∧ retryFrom (activeSymbols n weight) weight m 33 0 = none ∧
        buildLengths n m weight = .error (activeSymbols n weight).length) := by
  unfold buildLengths
  rcases h : activeSymbols n weight with _ | ⟨a, _ | ⟨b, l⟩⟩
  · exact .inl ⟨rfl, rfl⟩
  · exact .inr (.inl ⟨a, rfl, rfl⟩)
  · cases hr : retryFrom (a :: b :: l) weight m 33 0 with
    | some p =>
      refine .inr (.inr (.inl ⟨by simp, p.1, p.2, rfl, ?_⟩))
      simp [Config.sCap, hr]
    | none =>
      refine .inr (.inr (.inr ⟨by simp, rfl, ?_⟩))
      simp [Config.sCap, hr]

/-- `HLB` (R100): LEN, `SHRINK` and both flags, or `LengthLimitInfeasible`. -/
theorem lengthEffect_cases (s : State) :
    (∃ t sh, buildLengths s.nsym.toNat s.maxlen.toNat s.weight = .ok (t, sh) ∧
        lengthEffect s = inval (setShrink (BitVec.ofNat 6 sh) (commitLen (npad s) t s))) ∨
      ∃ a, buildLengths s.nsym.toNat s.maxlen.toNat s.weight = .error a ∧
        lengthEffect s = raise .lengthLimitInfeasible (BitVec.ofNat 32 a) s := by
  unfold lengthEffect
  rcases buildLengths s.nsym.toNat s.maxlen.toNat s.weight with a | ⟨t, sh⟩
  · exact .inr ⟨a, rfl, rfl⟩
  · exact .inl ⟨t, sh, rfl, rfl⟩

/-! ## The code assigner -/

/-- The length bound (R122): the lowest index above it, or none. -/
theorem overlong_eq_some {p m i : Nat} {len : Memory 8} (h : overlong p m len = some i) :
    i < p ∧ m < (len.read i).toNat ∧ ∀ j < i, (len.read j).toNat ≤ m := by
  obtain ⟨h1, as, bs, he, hall⟩ := List.find?_eq_some_iff_append.1 h
  have hi : i < p := by
    have : i ∈ List.range p := by rw [he]; simp
    simpa using this
  refine ⟨hi, by simpa using h1, fun j hj => ?_⟩
  have hl : as.length = i := by
    have h0 := congrArg (fun l => l[as.length]?) he
    rw [List.getElem?_append_right (le_refl _)] at h0
    simp only [Nat.sub_self, List.getElem?_cons_zero] at h0
    have := List.getElem?_eq_some_iff.1 h0
    obtain ⟨hlt, hv⟩ := this
    rwa [List.getElem_range] at hv
  have hmem : j ∈ as := by
    have h0 := congrArg (fun l => l[j]?) he
    rw [List.getElem?_append_left (by omega), List.getElem?_range (by omega)] at h0
    exact List.mem_of_getElem? h0.symm
  have := hall j hmem
  simpa using this

theorem overlong_eq_none {p m : Nat} {len : Memory 8} :
    overlong p m len = none ↔ ∀ i < p, (len.read i).toNat ≤ m := by
  simp [overlong]

/-- The lowest overlong index is found (R122). -/
theorem overlong_of_lowest {p m i : Nat} {len : Memory 8} (hi : i < p) (h : m < (len.read i).toNat)
    (hl : ∀ j < i, (len.read j).toNat ≤ m) : overlong p m len = some i := by
  cases ho : overlong p m len with
  | none => exact absurd (overlong_eq_none.1 ho i hi) (by omega)
  | some k =>
    obtain ⟨_, h2, h3⟩ := overlong_eq_some ho
    rcases Nat.lt_trichotomy k i with hk | rfl | hk
    · exact absurd (hl k hk) (by omega)
    · rfl
    · exact absurd (h3 i hk) (by omega)

/-- `CCA`'s two checks (R122, R123). -/
theorem assignCodes_cases (p m : Nat) (len : Memory 8) :
    (∃ i, overlong p m len = some i ∧ assignCodes p m len = .error i) ∨
      (overlong p m len = none ∧ assignCodes p m len = assignFrom (sortedPairs p len) 0 1 []) := by
  unfold assignCodes
  cases h : overlong p m len with
  | some i => exact .inl ⟨i, rfl, rfl⟩
  | none => exact .inr ⟨rfl, rfl⟩

/-- `CCA` (R120): CODE and the flags, or `InvalidLengthTable`. -/
theorem assignEffect_cases (s : State) :
    (∃ c, assignCodes (npad s) s.maxlen.toNat s.len = .ok c ∧
        assignEffect s = codesBuilt (commitCode (npad s) c s)) ∨
      ∃ i, assignCodes (npad s) s.maxlen.toNat s.len = .error i ∧
        assignEffect s = raise .invalidLengthTable (BitVec.ofNat 32 i) s := by
  unfold assignEffect
  rcases assignCodes (npad s) s.maxlen.toNat s.len with i | c
  · exact .inr ⟨i, rfl, rfl⟩
  · exact .inl ⟨c, rfl, rfl⟩

/-- The pairs `CCA` sorts are those of the active symbols (R121). -/
theorem mem_sortedPairs {p l i : Nat} {len : Memory 8} :
    (l, i) ∈ sortedPairs p len ↔ i < p ∧ len.read i ≠ 0 ∧ l = (len.read i).toNat := by
  rw [sortedPairs, List.mem_insertionSort]
  simp only [lengthPairs, List.mem_map, List.mem_filter, List.mem_range, decide_eq_true_eq, Prod.mk.injEq]
  constructor
  · rintro ⟨j, ⟨h1, h2⟩, rfl, rfl⟩
    exact ⟨h1, h2, rfl⟩
  · rintro ⟨h1, h2, rfl⟩
    exact ⟨i, ⟨h1, h2⟩, rfl, rfl⟩

/-- They are in strictly rising order of length, then symbol (R121). -/
theorem sortedPairs_pairwise (p : Nat) (len : Memory 8) :
    (sortedPairs p len).Pairwise (fun a b => a.1 < b.1 ∨ (a.1 = b.1 ∧ a.2 < b.2)) := by
  have : Std.Total pairLe := ⟨fun a b => by unfold pairLe; omega⟩
  have : IsTrans (Nat × Nat) pairLe := ⟨fun a b c => by unfold pairLe; omega⟩
  have hle : (sortedPairs p len).Pairwise pairLe := List.pairwise_insertionSort pairLe _
  have hnd : (sortedPairs p len).Nodup := by
    refine (List.perm_insertionSort pairLe _).nodup_iff.2 ?_
    refine List.Nodup.map ?_ (List.nodup_range.filter _)
    intro a b h
    exact (Prod.mk.inj h).2
  refine (hle.and hnd).imp ?_
  rintro ⟨a1, a2⟩ ⟨b1, b2⟩ ⟨h, hne⟩
  simp only [pairLe, ne_eq, Prod.mk.injEq] at h hne ⊢
  omega

/-- The pairs depend on the words of LEN below `p` alone (R125). -/
theorem sortedPairs_congr {p : Nat} {len len' : Memory 8} (h : ∀ i < p, len.read i = len'.read i) :
    sortedPairs p len = sortedPairs p len' := by
  unfold sortedPairs lengthPairs
  congr 1
  have hf : (List.range p).filter (fun i => decide (len.read i ≠ 0)) =
      (List.range p).filter (fun i => decide (len'.read i ≠ 0)) :=
    List.filter_congr fun i hi => by rw [h i (by simpa using hi)]
  rw [hf]
  refine List.map_congr_left fun i hi => ?_
  rw [h i (by simpa using List.mem_of_mem_filter hi)]

/-- So does what `CCA` computes (R120, R125). -/
theorem assignCodes_congr {p m : Nat} {len len' : Memory 8} (h : ∀ i < p, len.read i = len'.read i) :
    assignCodes p m len = assignCodes p m len' := by
  have ho : overlong p m len = overlong p m len' := by
    unfold overlong
    exact List.find?_congr fun i hi => by rw [h i (by simpa using hi)]
  unfold assignCodes
  rw [ho, sortedPairs_congr h]

/-! ## The decode table, the encoder and the decoder -/

/-- `HDT` (R130): DTAB and `DTABV`, or `NotReady`. -/
theorem tableEffect_cases (s : State) :
    (s.codev = true ∧ tableEffect s =
        tableBuilt (commitDtab (2 ^ s.maxlen.toNat) (buildTable (npad s) s.maxlen.toNat s.len s.code) s)) ∨
      (s.codev = false ∧ tableEffect s = raise .notReady 3 s) := by
  unfold tableEffect
  cases h : s.codev
  · exact .inr ⟨rfl, by simp⟩
  · exact .inl ⟨rfl, by simp⟩

/-- `ENCB` (R140): LEN, CODE, `SHRINK` and the flags, or the first fault of its two halves. -/
theorem encoderEffect_cases (s : State) :
    (∃ t sh c, buildLengths s.nsym.toNat s.maxlen.toNat s.weight = .ok (t, sh) ∧
        assignCodes (npad s) s.maxlen.toNat t = .ok c ∧ encoderEffect s =
          codesBuilt (setShrink (BitVec.ofNat 6 sh) (commitCode (npad s) c (commitLen (npad s) t s)))) ∨
      (∃ a, buildLengths s.nsym.toNat s.maxlen.toNat s.weight = .error a ∧
        encoderEffect s = raise .lengthLimitInfeasible (BitVec.ofNat 32 a) s) ∨
      ∃ t sh i, buildLengths s.nsym.toNat s.maxlen.toNat s.weight = .ok (t, sh) ∧
        assignCodes (npad s) s.maxlen.toNat t = .error i ∧
        encoderEffect s = raise .invalidLengthTable (BitVec.ofNat 32 i) s := by
  unfold encoderEffect
  rcases hb : buildLengths s.nsym.toNat s.maxlen.toNat s.weight with a | ⟨t, sh⟩
  · exact .inr (.inl ⟨a, rfl, rfl⟩)
  · rcases ha : assignCodes (npad s) s.maxlen.toNat t with i | c
    · exact .inr (.inr ⟨t, sh, i, rfl, ha, by simp [ha]⟩)
    · exact .inl ⟨t, sh, c, rfl, ha, by simp [ha]⟩

/-- `DECB` (R150): CODE, DTAB and both flags, or `InvalidLengthTable`. -/
theorem decoderEffect_cases (s : State) :
    (∃ c, assignCodes (npad s) s.maxlen.toNat s.len = .ok c ∧ decoderEffect s =
        allBuilt (commitDtab (2 ^ s.maxlen.toNat) (buildTable (npad s) s.maxlen.toNat s.len c)
          (commitCode (npad s) c s))) ∨
      ∃ i, assignCodes (npad s) s.maxlen.toNat s.len = .error i ∧
        decoderEffect s = raise .invalidLengthTable (BitVec.ofNat 32 i) s := by
  unfold decoderEffect
  rcases assignCodes (npad s) s.maxlen.toNat s.len with i | c
  · exact .inr ⟨i, rfl, rfl⟩
  · exact .inl ⟨c, rfl, rfl⟩

/-- `ENC` (R141): the codeword is put, or one of the three checks fails. -/
theorem encodeEffect_cases (sym : BitVec 16) (s : State) :
    (s.codev = true ∧ sym.toNat < npad s ∧ lenOf s sym ≠ 0 ∧
        encodeEffect sym s = sinkPut (lenOf s sym) (codeOf s sym) s) ∨
      (s.codev = true ∧ (npad s ≤ sym.toNat ∨ lenOf s sym = 0) ∧
        encodeEffect sym s = raise .invalidSymbol (sym.zeroExtend 32) s) ∨
      (s.codev = false ∧ encodeEffect sym s = raise .notReady (commandWord sym 6) s) := by
  unfold encodeEffect
  cases hc : s.codev
  · exact .inr (.inr ⟨rfl, by simp⟩)
  · by_cases h1 : sym.toNat < npad s
    · by_cases h2 : lenOf s sym = 0
      · exact .inr (.inl ⟨rfl, .inr h2, by simp [h2]⟩)
      · exact .inl ⟨rfl, h1, h2, by simp [h1, h2]⟩
    · exact .inr (.inl ⟨rfl, .inl (by omega), by simp [h1]⟩)

/-- `DEC` (R151): the symbol is decoded, or one of the three checks fails. -/
theorem decodeEffect_cases (s : State) :
    (s.dtabv = true ∧ s.maxlen.toNat ≤ avail s ∧ slotValid (peekedSlot s) = true ∧ decodeEffect s =
        setResult (slotSym (peekedSlot s)) (srcSkip (lenOf s (slotSym (peekedSlot s))) s)) ∨
      (s.dtabv = true ∧ s.maxlen.toNat ≤ avail s ∧ slotValid (peekedSlot s) = false ∧
        decodeEffect s = raise .invalidCode (BitVec.ofNat 32 (srcPeek s.maxlen.toNat s)) s) ∨
      (s.dtabv = true ∧ avail s < s.maxlen.toNat ∧
        decodeEffect s = raise .truncatedStream (BitVec.ofNat 32 (avail s)) s) ∨
      (s.dtabv = false ∧ decodeEffect s = raise .notReady 7 s) := by
  unfold decodeEffect
  cases hd : s.dtabv
  · exact .inr (.inr (.inr ⟨rfl, by simp⟩))
  · by_cases h1 : s.maxlen.toNat ≤ avail s
    · cases h2 : slotValid (peekedSlot s)
      · exact .inr (.inl ⟨rfl, h1, rfl, by simp [h1]⟩)
      · exact .inl ⟨rfl, h1, rfl, by simp [h1]⟩
    · exact .inr (.inr (.inl ⟨rfl, by omega, by simp [h1]⟩))

end Sys2Proof.Machine
end

