-- ==== Sys2Proof/Laws/Codes.lean ====
section
/-! SUPPORT. What the canonical assignment computes, scaled by `2^m` (41_code_assigner.md R121, R123): on pairs in order, the
running value is the Kraft sum of the pairs before; it succeeds while that sum, with the pair's own part, is at most 1. -/

namespace Sys2Proof.Machine

/-- The Kraft sum of a list of pairs, scaled by `2^m`. -/
def pairSum (m : Nat) (ps : List (Nat × Nat)) : Nat := (ps.map (fun p => 2 ^ (m - p.1))).sum

@[simp] theorem pairSum_nil (m : Nat) : pairSum m [] = 0 := rfl

@[simp] theorem pairSum_cons (m : Nat) (p : Nat × Nat) (ps : List (Nat × Nat)) :
    pairSum m (p :: ps) = 2 ^ (m - p.1) + pairSum m ps := rfl

theorem pairSum_append (m : Nat) (ps qs : List (Nat × Nat)) : pairSum m (ps ++ qs) = pairSum m ps + pairSum m qs := by
  simp [pairSum]

theorem pairSum_perm (m : Nat) {ps qs : List (Nat × Nat)} (h : ps.Perm qs) : pairSum m ps = pairSum m qs :=
  (h.map _).sum_eq

/-- Moving the running value to a longer length keeps its scaled value (R121). -/
theorem shift_scaled {bits cur l m : Nat} (h1 : cur ≤ l) (h2 : l ≤ m) :
    bits * 2 ^ (l - cur) * 2 ^ (m - l) = bits * 2 ^ (m - cur) := by
  rw [Nat.mul_assoc, ← pow_add]
  congr 2
  omega

/-- A value fits its length iff its scaled value is below `2^m`. -/
theorem lt_iff_scaled {b l m : Nat} (h : l ≤ m) : b < 2 ^ l ↔ b * 2 ^ (m - l) < 2 ^ m := by
  have he : 2 ^ m = 2 ^ l * 2 ^ (m - l) := by rw [← pow_add]; congr 1; omega
  rw [he]
  exact (Nat.mul_lt_mul_right (by positivity)).symm

/-- A value that fits leaves room for one more step: scaled, both are multiples of `2^(m-l)`. -/
theorem room_of_lt {b l m : Nat} (h : l ≤ m) (hb : b < 2 ^ l) : b * 2 ^ (m - l) + 2 ^ (m - l) ≤ 2 ^ m := by
  have he : 2 ^ m = 2 ^ l * 2 ^ (m - l) := by rw [← pow_add]; congr 1; omega
  rw [he]
  calc b * 2 ^ (m - l) + 2 ^ (m - l) = (b + 1) * 2 ^ (m - l) := by ring
    _ ≤ _ := Nat.mul_le_mul_right _ hb

/-- The assignment succeeds while the running Kraft sum stays at most 1; each pair's code, scaled, is the sum of the pairs
before it (R121, R124). -/
theorem assignFrom_ok {m : Nat} {ps : List (Nat × Nat)} {bits cur : Nat} {c0 : Memory 16}
    (hs : ps.Pairwise (fun a b => a.1 ≤ b.1)) (hn : (ps.map Prod.snd).Nodup) (hcur : ∀ p ∈ ps, cur ≤ p.1)
    (hm : ∀ p ∈ ps, p.1 ≤ m) (hc : c0.wf) (hsum : bits * 2 ^ (m - cur) + pairSum m ps ≤ 2 ^ m) :
    ∃ c, assignFrom ps bits cur c0 = .ok c ∧ c.wf ∧ (∀ i, i ∉ ps.map Prod.snd → c.read i = c0.read i) ∧
      ∀ pre l i post, ps = pre ++ (l, i) :: post →
        ∃ b, c.read i = BitVec.ofNat 16 b ∧ b < 2 ^ l ∧ b * 2 ^ (m - l) = bits * 2 ^ (m - cur) + pairSum m pre := by
  induction ps generalizing bits cur c0 with
  | nil => exact ⟨c0, rfl, hc, fun _ _ => rfl, fun pre l i post h => by simp at h⟩
  | cons p rest ih =>
    obtain ⟨l, i⟩ := p
    have h1 : cur ≤ l := hcur (l, i) (by simp)
    have h2 : l ≤ m := hm (l, i) (by simp)
    rw [List.pairwise_cons] at hs
    rw [List.map_cons, List.nodup_cons] at hn
    have hscaled := shift_scaled (bits := bits) h1 h2
    simp only [pairSum_cons] at hsum
    have hlt : bits * 2 ^ (l - cur) < 2 ^ l := by
      rw [lt_iff_scaled h2, hscaled]
      have : 0 < 2 ^ (m - l) := by positivity
      omega
    have hnext : (bits * 2 ^ (l - cur) + 1) * 2 ^ (m - l) = bits * 2 ^ (m - cur) + 2 ^ (m - l) := by
      rw [← hscaled]; ring
    obtain ⟨c, e, hwf, hkeep, hcode⟩ := ih (bits := bits * 2 ^ (l - cur) + 1) (cur := l)
      (c0 := c0.write i (BitVec.ofNat 16 (bits * 2 ^ (l - cur)))) hs.2 hn.2 (fun p hp => hs.1 p hp)
      (fun p hp => hm p (List.mem_cons_of_mem _ hp)) (Memory.wf_write hc _ _) (by rw [hnext]; omega)
    refine ⟨c, ?_, hwf, fun j hj => ?_, fun pre l' i' post hp => ?_⟩
    · rw [assignFrom]
      simp only [if_pos hlt]
      exact e
    · rw [List.map_cons, List.mem_cons, not_or] at hj
      rw [hkeep j hj.2, Memory.read_write hc.1, if_neg (Ne.symm hj.1)]
    · cases pre with
      | nil =>
        simp only [List.nil_append, List.cons.injEq, Prod.mk.injEq] at hp
        obtain ⟨⟨rfl, rfl⟩, rfl⟩ := hp
        refine ⟨bits * 2 ^ (l - cur), ?_, hlt, by rw [hscaled]; simp⟩
        rw [hkeep i hn.1, Memory.read_write hc.1, if_pos rfl]
      | cons q pre =>
        simp only [List.cons_append, List.cons.injEq] at hp
        obtain ⟨rfl, hp⟩ := hp
        obtain ⟨b, hb1, hb2, hb3⟩ := hcode pre l' i' post hp
        refine ⟨b, hb1, hb2, ?_⟩
        rw [hb3, hnext, pairSum_cons]
        ring

/-- Otherwise it fails at the first pair at which the running Kraft sum passes 1 (R123). -/
theorem assignFrom_error {m : Nat} {ps : List (Nat × Nat)} {bits cur : Nat} {c0 : Memory 16}
    (hs : ps.Pairwise (fun a b => a.1 ≤ b.1)) (hcur : ∀ p ∈ ps, cur ≤ p.1) (hm : ∀ p ∈ ps, p.1 ≤ m)
    (hle : bits * 2 ^ (m - cur) ≤ 2 ^ m) (hsum : 2 ^ m < bits * 2 ^ (m - cur) + pairSum m ps) :
    ∃ pre l i post, ps = pre ++ (l, i) :: post ∧ assignFrom ps bits cur c0 = .error i ∧
      bits * 2 ^ (m - cur) + pairSum m pre ≤ 2 ^ m ∧ 2 ^ m < bits * 2 ^ (m - cur) + pairSum m pre + 2 ^ (m - l) := by
  induction ps generalizing bits cur c0 with
  | nil => simp at hsum; omega
  | cons p rest ih =>
    obtain ⟨l, i⟩ := p
    have h1 : cur ≤ l := hcur (l, i) (by simp)
    have h2 : l ≤ m := hm (l, i) (by simp)
    rw [List.pairwise_cons] at hs
    have hscaled := shift_scaled (bits := bits) h1 h2
    simp only [pairSum_cons] at hsum
    by_cases hlt : bits * 2 ^ (l - cur) < 2 ^ l
    · have hnext : (bits * 2 ^ (l - cur) + 1) * 2 ^ (m - l) = bits * 2 ^ (m - cur) + 2 ^ (m - l) := by
        rw [← hscaled]; ring
      have hroom := room_of_lt h2 hlt
      rw [hscaled] at hroom
      obtain ⟨pre, l', i', post, e1, e2, e3, e4⟩ := ih (bits := bits * 2 ^ (l - cur) + 1) (cur := l)
        (c0 := c0.write i (BitVec.ofNat 16 (bits * 2 ^ (l - cur)))) hs.2 (fun p hp => hs.1 p hp)
        (fun p hp => hm p (List.mem_cons_of_mem _ hp)) (by rw [hnext]; exact hroom) (by rw [hnext]; omega)
      rw [hnext] at e3 e4
      refine ⟨(l, i) :: pre, l', i', post, by rw [e1]; rfl, ?_, by simp only [pairSum_cons]; omega,
        by simp only [pairSum_cons]; omega⟩
      rw [assignFrom]
      simp only [if_pos hlt]
      exact e2
    · refine ⟨[], l, i, rest, rfl, ?_, by simpa using hle, ?_⟩
      · rw [assignFrom]
        simp only [if_neg hlt]
      · rw [lt_iff_scaled h2, hscaled] at hlt
        have : 0 < 2 ^ (m - l) := by positivity
        simp only [pairSum_nil]
        omega

/-! ## The pairs of a length table -/

theorem pairSum_lengthPairs (m p : Nat) (len : Memory 8) (q : Nat × Nat → Bool) :
    pairSum m ((lengthPairs p len).filter q) =
      ∑ i ∈ Finset.range p, if len.read i ≠ 0 ∧ q ((len.read i).toNat, i) = true then 2 ^ (m - (len.read i).toNat) else 0 := by
  induction p with
  | zero => rfl
  | succ p ih =>
    rw [Finset.sum_range_succ, ← ih]
    have h : lengthPairs (p + 1) len =
        lengthPairs p len ++ if len.read p ≠ 0 then [((len.read p).toNat, p)] else [] := by
      unfold lengthPairs
      rw [List.range_succ, List.filter_append, List.map_append]
      congr 1
      by_cases hz : len.read p = 0#8
      · simp [hz]
      · simp [hz]
    rw [h, List.filter_append, pairSum_append]
    congr 1
    by_cases hz : len.read p = 0#8
    · simp [hz]
    · by_cases hq : q ((len.read p).toNat, p) = true <;> simp [hz, hq]

/-- All pairs together: the Kraft sum of the table, scaled (00_scope.md, glossary). -/
theorem pairSum_sortedPairs (m p : Nat) (len : Memory 8) : pairSum m (sortedPairs p len) = kraftScaled m p len := by
  rw [sortedPairs, pairSum_perm m (List.perm_insertionSort pairLe _)]
  have h := pairSum_lengthPairs m p len (fun _ => true)
  rw [List.filter_true] at h
  rw [h, kraftScaled]
  refine Finset.sum_congr rfl fun i _ => ?_
  by_cases hz : len.read i = 0 <;> simp [hz]

/-- The pairs before a pair: those of shorter length, or of the same length and lower symbol. -/
theorem pairSum_before {m p l i : Nat} {len : Memory 8} {pre post : List (Nat × Nat)}
    (h : sortedPairs p len = pre ++ (l, i) :: post) :
    pairSum m pre = ∑ j ∈ Finset.range p,
      if len.read j ≠ 0 ∧ ((len.read j).toNat < l ∨ ((len.read j).toNat = l ∧ j < i))
      then 2 ^ (m - (len.read j).toNat) else 0 := by
  have hsorted := sortedPairs_pairwise p len
  rw [h, List.pairwise_append, List.pairwise_cons] at hsorted
  obtain ⟨_, ⟨hpost, _⟩, hpre⟩ := hsorted
  have hf : (sortedPairs p len).filter (fun a => decide (a.1 < l ∨ (a.1 = l ∧ a.2 < i))) = pre := by
    rw [h, List.filter_append, List.filter_cons_of_neg (by simp)]
    rw [List.filter_eq_self.2 fun a ha => by have := hpre a ha (l, i) (by simp); simpa using this]
    rw [List.filter_eq_nil_iff.2 fun a ha => by have := hpost a ha; simp at this ⊢; omega]
    simp
  have hp : ((sortedPairs p len).filter (fun a => decide (a.1 < l ∨ (a.1 = l ∧ a.2 < i)))).Perm
      ((lengthPairs p len).filter (fun a => decide (a.1 < l ∨ (a.1 = l ∧ a.2 < i)))) :=
    (List.perm_insertionSort pairLe _).filter _
  rw [← hf, pairSum_perm m hp, pairSum_lengthPairs]
  refine Finset.sum_congr rfl fun j _ => ?_
  simp

/-- Every active symbol has its place among the pairs. -/
theorem sortedPairs_split {p i : Nat} {len : Memory 8} (h : activeIn p len i) :
    ∃ pre post, sortedPairs p len = pre ++ ((len.read i).toNat, i) :: post :=
  List.append_of_mem (mem_sortedPairs.2 ⟨h.1, h.2, rfl⟩)

theorem sortedPairs_nodup_symbols (p : Nat) (len : Memory 8) : ((sortedPairs p len).map Prod.snd).Nodup := by
  refine ((List.perm_insertionSort pairLe (lengthPairs p len)).map Prod.snd).nodup_iff.2 ?_
  have : (lengthPairs p len).map Prod.snd = (List.range p).filter (fun i => decide (len.read i ≠ 0)) := by
    simp [lengthPairs, Function.comp_def]
  rw [this]
  exact List.nodup_range.filter _

end Sys2Proof.Machine
end

