-- ==== Sys2Proof/Laws/PerInstr.lean ====
section
/-! SUPPORT. The per-instruction family EncodingUnique: an instruction has one encoding, so every encoding that decodes to
it is the one the encoder gives. One lemma per constructor. -/

namespace Sys2Proof.Laws.EncodingUnique

/-- Whatever decodes to `i` is `encode i` (R83, R87). -/
def Statement (i : Instr) : Prop := ∀ e, decode e = some i → e = encode i

/-- The registers a read can name (R23, R87). -/
theorem decodeRegisterRead_cases {k : BitVec 16} {i : Instr} (h : decodeRegisterRead k = some i) :
    (k = 0 ∧ i = .rdCmd) ∨ (k = 1 ∧ i = .rdStatus) ∨ (k = 2 ∧ i = .rdErrinfo) ∨ (k = 3 ∧ i = .rdNsym) ∨
      (k = 4 ∧ i = .rdMaxlen) ∨ (k = 5 ∧ i = .rdNpad) ∨ (k = 6 ∧ i = .rdShrink) ∨ (k = 7 ∧ i = .rdResult) := by
  unfold decodeRegisterRead at h
  split_ifs at h <;> simp_all

/-- The registers a write can name (R23, R87). -/
theorem decodeRegisterWrite_cases {k : BitVec 16} {v : Word} {i : Instr} (h : decodeRegisterWrite k v = some i) :
    (k = 0 ∧ i = .wrCmd v) ∨ (k = 3 ∧ i = .wrNsym v) ∨ (k = 4 ∧ i = .wrMaxlen v) := by
  unfold decodeRegisterWrite at h
  split_ifs at h <;> simp_all

/-- What a read can be (R87): the rows with `rw = 0`, each with its address. -/
theorem decodeRead_encode {a : Addr} {i : Instr} (h : decodeRead a = some i) : Encoding.hostOp (.read a) = encode i := by
  have ha := addr_region_index a
  unfold decodeRead at h
  split_ifs at h with h0 h1 h2 h3 h4 h5
  · rcases decodeRegisterRead_cases h with ⟨hk, rfl⟩ | ⟨hk, rfl⟩ | ⟨hk, rfl⟩ | ⟨hk, rfl⟩ | ⟨hk, rfl⟩ | ⟨hk, rfl⟩ |
      ⟨hk, rfl⟩ | ⟨hk, rfl⟩ <;> rw [h0, hk] at ha <;> rw [← ha] <;> rfl
  all_goals
    simp only [Option.some.injEq] at h
    subst h
  · rw [h1] at ha; simp only [encode, ha]
  · rw [h2] at ha; simp only [encode, ha]
  · rw [h3] at ha; simp only [encode, ha]
  · rw [h4] at ha; simp only [encode, ha]

/-- What a write can be (R87): the rows with `rw = 1`, each with its address. -/
theorem decodeWrite_encode {a : Addr} {v : Word} {i : Instr} (h : decodeWrite a v = some i) :
    Encoding.hostOp (.write a v) = encode i := by
  have ha := addr_region_index a
  unfold decodeWrite at h
  split_ifs at h with h0 h1 h2
  · rcases decodeRegisterWrite_cases h with ⟨hk, rfl⟩ | ⟨hk, rfl⟩ | ⟨hk, rfl⟩ <;> rw [h0, hk] at ha <;> rw [← ha] <;> rfl
  all_goals
    simp only [Option.some.injEq] at h
    subst h
  · rw [h1] at ha; simp only [encode, ha]
  · rw [h2] at ha; simp only [encode, ha]

/-- What a legal command word is (R83). -/
theorem decodeCommand_encode {w : Word} {i : Instr} (h : decodeCommand w = some i) : Encoding.command w = encode i := by
  rcases decodeCommand_cases h with ⟨rfl, hw⟩ | ⟨rfl, hw⟩ | ⟨rfl, hw⟩ | ⟨rfl, hw⟩ | ⟨rfl, hw⟩ | ⟨hi, hw⟩ | ⟨rfl, hw⟩ | ⟨rfl, hw⟩
  · rw [hw]; rfl
  · rw [hw]; rfl
  · rw [hw]; rfl
  · rw [hw]; rfl
  · rw [hw]; rfl
  · rw [hi]; exact congrArg _ hw
  · rw [hw]; rfl
  · rw [hw]; rfl

/-- An encoding is that of the instruction it decodes to. -/
theorem of_decode (i : Instr) : Statement i := by
  intro e h
  cases e with
  | command w => exact decodeCommand_encode h
  | hostOp o =>
    cases o with
    | read a => exact decodeRead_encode h
    | write a v => exact decodeWrite_encode h

theorem hlb : Statement .hlb := of_decode _
theorem cca : Statement .cca := of_decode _
theorem hdt : Statement .hdt := of_decode _
theorem encb : Statement .encb := of_decode _
theorem decb : Statement .decb := of_decode _
theorem enc (sym : BitVec 16) : Statement (.enc sym) := of_decode _
theorem dec : Statement .dec := of_decode _
theorem clr : Statement .clr := of_decode _
theorem wrCmd (v : Word) : Statement (.wrCmd v) := of_decode _
theorem rdCmd : Statement .rdCmd := of_decode _
theorem rdStatus : Statement .rdStatus := of_decode _
theorem rdErrinfo : Statement .rdErrinfo := of_decode _
theorem rdNsym : Statement .rdNsym := of_decode _
theorem wrNsym (v : Word) : Statement (.wrNsym v) := of_decode _
theorem rdMaxlen : Statement .rdMaxlen := of_decode _
theorem wrMaxlen (v : Word) : Statement (.wrMaxlen v) := of_decode _
theorem rdNpad : Statement .rdNpad := of_decode _
theorem rdShrink : Statement .rdShrink := of_decode _
theorem rdResult : Statement .rdResult := of_decode _
theorem rdWeight (i : BitVec 16) : Statement (.rdWeight i) := of_decode _
theorem wrWeight (i : BitVec 16) (v : Word) : Statement (.wrWeight i v) := of_decode _
theorem rdLen (i : BitVec 16) : Statement (.rdLen i) := of_decode _
theorem wrLen (i : BitVec 16) (v : Word) : Statement (.wrLen i v) := of_decode _
theorem rdCode (i : BitVec 16) : Statement (.rdCode i) := of_decode _
theorem rdDtab (i : BitVec 16) : Statement (.rdDtab i) := of_decode _

end Sys2Proof.Laws.EncodingUnique
end

