-- ==== Sys2Proof/Laws/Ports.lean ====
section
/-! SUPPORT. Bit sequences and the bit ports: the value of a sequence (R6), and what is put is what would be read. -/

namespace Sys2Proof.Machine

theorem bitsMsbFirst_succ (l v : Nat) : bitsMsbFirst (l + 1) v = v.testBit l :: bitsMsbFirst l v := by
  simp [bitsMsbFirst, List.range_succ]

@[simp] theorem bitsMsbFirst_zero (v : Nat) : bitsMsbFirst 0 v = [] := rfl

@[simp] theorem length_bitsMsbFirst (l v : Nat) : (bitsMsbFirst l v).length = l := by simp [bitsMsbFirst]

theorem bitsValue_nil : bitsValue [] = 0 := rfl

theorem foldl_bits (bs : List Bool) (a : Nat) :
    bs.foldl (fun acc b => 2 * acc + b.toNat) a = a * 2 ^ bs.length + bitsValue bs := by
  induction bs generalizing a with
  | nil => simp [bitsValue]
  | cons b bs ih =>
    have h1 := ih (2 * a + b.toNat)
    have h2 := ih (2 * 0 + b.toNat)
    simp only [bitsValue, List.foldl_cons, List.length_cons] at *
    rw [h1, h2]
    ring

theorem bitsValue_append (a b : List Bool) : bitsValue (a ++ b) = bitsValue a * 2 ^ b.length + bitsValue b := by
  rw [bitsValue, List.foldl_append, foldl_bits]
  rfl

theorem bitsValue_cons (b : Bool) (bs : List Bool) : bitsValue (b :: bs) = b.toNat * 2 ^ bs.length + bitsValue bs := by
  have := bitsValue_append [b] bs
  simpa [bitsValue] using this

theorem bitsValue_lt (bs : List Bool) : bitsValue bs < 2 ^ bs.length := by
  induction bs with
  | nil => simp [bitsValue]
  | cons b bs ih =>
    rw [bitsValue_cons, List.length_cons, pow_succ]
    cases b <;> simp <;> omega

/-- The value of the `l` low bits of `v`, put most significant first (R6, R62). -/
theorem bitsValue_bitsMsbFirst (l v : Nat) : bitsValue (bitsMsbFirst l v) = v % 2 ^ l := by
  induction l with
  | zero => simp [bitsValue, Nat.mod_one]
  | succ l ih =>
    rw [bitsMsbFirst_succ, bitsValue_cons, ih, length_bitsMsbFirst, pow_succ, Nat.mod_mul, Nat.testBit_eq_decide_div_mod_eq]
    have : v / 2 ^ l % 2 = 0 ∨ v / 2 ^ l % 2 = 1 := by omega
    rcases this with h | h <;> simp [h, Nat.add_comm]

/-- A bit sequence is what its own value puts. -/
theorem bitsMsbFirst_bitsValue (bs : List Bool) : bitsMsbFirst bs.length (bitsValue bs) = bs := by
  induction bs with
  | nil => rfl
  | cons b bs ih =>
    have hlt := bitsValue_lt bs
    rw [List.length_cons, bitsMsbFirst_succ, bitsValue_cons]
    congr 1
    · rw [Nat.mul_comm, Nat.testBit_two_pow_mul_add _ hlt]
      cases b <;> simp
    · have : bitsMsbFirst bs.length (b.toNat * 2 ^ bs.length + bitsValue bs) = bitsMsbFirst bs.length (bitsValue bs) := by
        simp only [bitsMsbFirst]
        apply List.map_congr_left
        intro k hk
        simp at hk
        rw [Nat.mul_comm, Nat.testBit_two_pow_mul_add _ hlt, if_pos hk]
      rw [this, ih]

/-- The first `l` of `l + k` bits are those of the value without its `k` low bits (R6). -/
theorem bitsMsbFirst_add (l k v : Nat) : bitsMsbFirst (l + k) v = bitsMsbFirst l (v / 2 ^ k) ++ bitsMsbFirst k v := by
  induction l with
  | zero => simp
  | succ l ih =>
    rw [Nat.succ_add, bitsMsbFirst_succ, ih, bitsMsbFirst_succ, List.cons_append, Nat.testBit_div_two_pow]

/-- Values that fit in `l` bits are told apart by them. -/
theorem bitsMsbFirst_injective {l a b : Nat} (ha : a < 2 ^ l) (hb : b < 2 ^ l) (h : bitsMsbFirst l a = bitsMsbFirst l b) :
    a = b := by
  have := congrArg bitsValue h
  rwa [bitsValue_bitsMsbFirst, bitsValue_bitsMsbFirst, Nat.mod_eq_of_lt ha, Nat.mod_eq_of_lt hb] at this

/-- The codeword `(l, c)` begins the `m`-bit pattern `v` iff `v` is in the codeword's range of slots (R131). -/
theorem prefix_bitsMsbFirst {l m c v : Nat} (hl : l ≤ m) (hc : c < 2 ^ l) (hv : v < 2 ^ m) :
    bitsMsbFirst l c <+: bitsMsbFirst m v ↔ c * 2 ^ (m - l) ≤ v ∧ v < c * 2 ^ (m - l) + 2 ^ (m - l) := by
  have hm : m = l + (m - l) := by omega
  have hpos : 0 < 2 ^ (m - l) := by positivity
  have hq : v / 2 ^ (m - l) < 2 ^ l := by
    rw [Nat.div_lt_iff_lt_mul hpos, ← pow_add, ← hm]
    exact hv
  have hs : bitsMsbFirst m v = bitsMsbFirst l (v / 2 ^ (m - l)) ++ bitsMsbFirst (m - l) v := by
    rw [← bitsMsbFirst_add, ← hm]
  have hkey : bitsMsbFirst l c <+: bitsMsbFirst m v ↔ c = v / 2 ^ (m - l) := by
    rw [hs]
    constructor
    · intro h
      have h2 := List.prefix_of_prefix_length_le h (List.prefix_append _ _) (by simp)
      exact bitsMsbFirst_injective hc hq (h2.eq_of_length (by simp))
    · rintro rfl
      exact List.prefix_append _ _
  rw [hkey, eq_comm, Nat.div_eq_iff hpos]
  generalize 2 ^ (m - l) = x at *
  omega

/-- What is peeked is the value of the bits at the cursor (R63). -/
theorem srcPeek_eq (n : Nat) (s : State) : srcPeek n s = bitsValue ((s.src.drop s.srcpos).take n) := rfl

theorem srcPeek_lt {n : Nat} {s : State} : srcPeek n s < 2 ^ n := by
  refine lt_of_lt_of_le (bitsValue_lt _) (Nat.pow_le_pow_right (by omega) ?_)
  simp

end Sys2Proof.Machine
end

