-- ==== Sys2Proof/Tests/Slice0.lean ====
section
/-! SUPPORT. The model's own tests: what `WellFormed` refuses, words written out bit by bit from the tables of R83 and R87,
one or two small steps per instruction with results from the spec's vectors (95_test_vectors.md), and for every obligation
with hypotheses a state that meets them. -/

namespace Sys2Proof.Tests

open Sys2Proof.Machine

/-! ## Helpers -/

/-- A table that starts with the given words. -/
def table {n : Nat} (l : List (BitVec n)) : Memory n :=
  (l.zipIdx.map (fun p => (p.2, p.1))).filter (fun e => decide (e.2 ≠ 0))

/-- The reset state with a table size, a length cap, weights, lengths and codes. -/
def block (nsym : BitVec 17) (maxlen : BitVec 4) (weight : List (BitVec 32)) (len : List (BitVec 8))
    (code : List (BitVec 16)) : State :=
  { State.reset with nsym := nsym, maxlen := maxlen, weight := table weight, len := table len, code := table code }

/-- The state after an instruction; `s` itself should it have no next state. -/
def after (i : Instr) (s : State) : State :=
  match exec i s with
  | .next t => t
  | .fault _ => s
  | .refused _ => s

/-- The state after a step. -/
def stepped (s : State) : State :=
  match step s with
  | .next t => t
  | .fault _ => s
  | .refused _ => s

/-- The host's next operation. -/
def does (o : HostOp) (s : State) : State := { s with script := [.op o] }

/-- Two symbols of length 1 with codes 0 and 1 and their decode table (V10 row 12, V14 row 11). -/
def pair : State :=
  { block 2 1 [1, 1] [1, 1] [0, 1] with codev := true, dtabv := true, dtab := table [0x10000, 0x10001], src := [true, false] }

/-- One symbol of length 1, code 0 (V27 row 4 mirrored): slot 1 is not reached. -/
def lone : State :=
  { block 2 1 [1] [1] [0] with codev := true, dtabv := true, dtab := table [0x10000], src := [true, false] }

/-- A faulted block: the first fault was `InvalidSymbol(9)` (V32). -/
def broken : State := { pair with err := 7, errinfo := 9 }

/-! ## WellFormed -/

theorem test_wellFormed_refuses_dtab_index : WellFormed (.rdDtab 32768) = false := by decide
theorem test_wellFormed_takes_last_dtab_index : WellFormed (.rdDtab 32767) = true := by decide
theorem test_wellFormed_takes_every_symbol : WellFormed (.enc 65535) = true := by decide

/-! ## Words, written out from R83 (32 bits) and R87 (21 bits: rw, region, index) -/

theorem test_word_hlb : decodeTableWord 32 0b00000000000000000000000000000001 = some .hlb := by decide
theorem test_word_cca : decodeTableWord 32 0b00000000000000000000000000000010 = some .cca := by decide
theorem test_word_hdt : decodeTableWord 32 0b00000000000000000000000000000011 = some .hdt := by decide
theorem test_word_encb : decodeTableWord 32 0b00000000000000000000000000000100 = some .encb := by decide
theorem test_word_decb : decodeTableWord 32 0b00000000000000000000000000000101 = some .decb := by decide
theorem test_word_enc : decodeTableWord 32 0b10000000000000110000000000000110 = some (.enc 0b1000000000000011) := by decide
theorem test_word_dec : decodeTableWord 32 0b00000000000000000000000000000111 = some .dec := by decide
theorem test_word_clr : decodeTableWord 32 0b00000000000000000000000000001000 = some .clr := by decide
theorem test_word_wrCmd : decodeTableWord 24 0b100000000000000000000 = some (.wrCmd 0) := by decide
theorem test_word_rdCmd : decodeTableWord 24 0b000000000000000000000 = some .rdCmd := by decide
theorem test_word_rdStatus : decodeTableWord 24 0b000000000000000000001 = some .rdStatus := by decide
theorem test_word_rdErrinfo : decodeTableWord 24 0b000000000000000000010 = some .rdErrinfo := by decide
theorem test_word_rdNsym : decodeTableWord 24 0b000000000000000000011 = some .rdNsym := by decide
theorem test_word_wrNsym : decodeTableWord 24 0b100000000000000000011 = some (.wrNsym 0) := by decide
theorem test_word_rdMaxlen : decodeTableWord 24 0b000000000000000000100 = some .rdMaxlen := by decide
theorem test_word_wrMaxlen : decodeTableWord 24 0b100000000000000000100 = some (.wrMaxlen 0) := by decide
theorem test_word_rdNpad : decodeTableWord 24 0b000000000000000000101 = some .rdNpad := by decide
theorem test_word_rdShrink : decodeTableWord 24 0b000000000000000000110 = some .rdShrink := by decide
theorem test_word_rdResult : decodeTableWord 24 0b000000000000000000111 = some .rdResult := by decide
theorem test_word_rdWeight : decodeTableWord 24 0b000011000000000000001 = some (.rdWeight 0b1000000000000001) := by decide
theorem test_word_wrWeight : decodeTableWord 24 0b100010000000000000101 = some (.wrWeight 5 0) := by decide
theorem test_word_rdLen : decodeTableWord 24 0b000100000000000001001 = some (.rdLen 9) := by decide
theorem test_word_wrLen : decodeTableWord 24 0b100101000000000000000 = some (.wrLen 0b1000000000000000 0) := by decide
theorem test_word_rdCode : decodeTableWord 24 0b000110000000000000011 = some (.rdCode 3) := by decide
theorem test_word_rdDtab : decodeTableWord 24 0b001000111111111111111 = some (.rdDtab 32767) := by decide

/-- V31: words that are no command; R87: operations that are no row. -/
theorem test_word_illegal :
    decodeCommand 0 = none ∧ decodeCommand 9 = none ∧ decodeCommand 0xFFFFFFFF = none ∧ decodeCommand 0x101 = none ∧
    decodeCommand 0x10007 = none ∧ decodeCommand 0x106 = none ∧ decodeHostOp (.write 0x00001 0) = none ∧
    decodeHostOp (.write 0x30000 1) = none ∧ decodeHostOp (.read 0x00008) = none ∧ decodeHostOp (.read 0x48000) = none ∧
    decodeHostOp (.read 0xFFFFF) = none := by decide

/-- R88: the written value is an operand, not part of the pattern. -/
theorem test_write_value : decodeHostOp (.write 0x20001 3) = some (.wrLen 1 3) := by decide

/-- A placed word is the very next thing that runs. -/
theorem test_placed_word_runs : ∃ t, step (State.reset.withFetchWord 32 5) = exec .decb t ∧ t.script = [] :=
  ⟨_, rfl, rfl⟩

/-! ## Instructions -/

/-- V2: of leaves of equal weight the higher symbol first. -/
theorem test_hlb_tie : (after .hlb (block 4 3 [5, 1, 1, 1] [] [])).len = table [1, 2, 3, 3] := by decide +kernel

/-- V4: two failed attempts, then success; the pad slot is 0. -/
theorem test_hlb_shrinks :
    (after .hlb (block 5 3 [1, 1, 2, 4, 8] [9, 9, 9, 9, 9, 9, 9] [])).len = table [3, 3, 3, 3, 1, 0, 9] ∧
    (after .hlb (block 5 3 [1, 1, 2, 4, 8] [] [])).shrink = 2 := by decide +kernel

/-- V10 row 8: codes by length, then by symbol. -/
theorem test_cca_codes :
    (after .cca (block 6 3 [] [2, 3, 3, 3, 3, 2] [])).code = table [0, 4, 5, 6, 7, 1] ∧
    (after .cca (block 6 3 [] [2, 3, 3, 3, 3, 2] [])).codev = true := by decide +kernel

/-- V11 row 5: the bound is checked first, for the lowest index. -/
theorem test_cca_overlong :
    (after .cca (block 4 2 [] [3, 1, 3, 0] [])).err = 6 ∧ (after .cca (block 4 2 [] [3, 1, 3, 0] [])).errinfo = 0 := by
  decide +kernel

/-- V14 row 5: an incomplete code leaves slots `(0, 0)`. -/
theorem test_hdt_fills :
    (after .hdt { block 4 3 [] [1, 3, 3, 0] [0, 4, 5, 0] with codev := true }).dtab =
      table [0x10000, 0x10000, 0x10000, 0x10000, 0x10001, 0x10002] := by decide +kernel

/-- V12: `HDT` without codes. -/
theorem test_hdt_not_ready : (after .hdt (block 4 3 [] [1, 2, 3, 3] [])).errinfo = 3 := by decide

/-- V16 row 2. -/
theorem test_encb_builds :
    (after .encb (block 5 3 [1, 1, 2, 4, 8] [] [])).code = table [4, 5, 6, 7, 0, 0] ∧
    (after .encb (block 5 3 [1, 1, 2, 4, 8] [] [])).codev = true := by decide +kernel

/-- V16: five active symbols do not fit two bits; `ERRINFO` is their number. -/
theorem test_encb_infeasible :
    (after .encb (block 5 2 [1, 1, 1, 1, 1] [] [])).err = 5 ∧
    (after .encb (block 5 2 [1, 1, 1, 1, 1] [] [])).errinfo = 5 := by decide +kernel

/-- V14 row 2. -/
theorem test_decb_builds :
    (after .decb (block 4 3 [] [1, 3, 3, 2] [])).dtab =
      table [0x10000, 0x10000, 0x10000, 0x10000, 0x10003, 0x10003, 0x10001, 0x10002] ∧
    (after .decb (block 4 3 [] [1, 3, 3, 2] [])).dtabv = true := by decide +kernel

/-- V20, V11 row 2: `DECB` faults as `CCA` does. -/
theorem test_decb_oversubscribed : (after .decb (block 4 2 [] [1, 2, 2, 2] [])).errinfo = 3 := by decide +kernel

/-- V17: `ENC 2` puts "110" after what was put before. -/
theorem test_enc_puts :
    (after (.enc 2) { block 4 3 [] [1, 2, 3, 3] [0, 2, 6, 7] with codev := true, sink := [false] }).sink =
      [false, true, true, false] := by decide

/-- V19 row 7: `ENC 2` without current codes records the command word. -/
theorem test_enc_not_ready : (after (.enc 2) (block 4 3 [] [1, 2, 3, 3] [0, 2, 6, 7])).errinfo = 0x00020006 := by decide

/-- V25: as many bits as `MAXLEN`; the codeword of symbol 1 is "1". -/
theorem test_dec_returns :
    (after .dec pair).result = 1 ∧ (after .dec pair).srcpos = 1 := by decide

/-- V27 row 4: no codeword begins with 1. -/
theorem test_dec_invalid_code : (after .dec lone).err = 9 ∧ (after .dec lone).errinfo = 1 ∧ (after .dec lone).srcpos = 0 := by
  decide

/-- V32 step 9, V33: `CLR` out of the faulted state; the ports are left alone. -/
theorem test_clr_clears :
    (after .clr broken).err = 0 ∧ (after .clr broken).maxlen = 15 ∧ (after .clr broken).len = [] ∧
    (after .clr broken).src = [true, false] := by decide

/-- V31 row 1: the all-zero word. -/
theorem test_wrCmd_illegal : (after (.wrCmd 0) pair).err = 1 ∧ (after (.wrCmd 0) pair).codev = true := by decide

/-- V32 step 8: not the `CLR` word; ignored in the faulted block. -/
theorem test_wrCmd_faulted : after (.wrCmd 0x00010008) broken = broken := by decide

/-- R24. -/
theorem test_rdCmd : (after .rdCmd pair).replies = [0] := by decide

/-- V9, V32: flags and `ERR` in one word. -/
theorem test_rdStatus : (after .rdStatus broken).replies = [0x00000703] := by decide

/-- V32 step 1. -/
theorem test_rdErrinfo : (after .rdErrinfo broken).replies = [9] := by decide

/-- R27. -/
theorem test_rdNsym : (after .rdNsym pair).replies = [2] := by decide

/-- V29 step 10: the flags are cleared and no table word changes. -/
theorem test_wrNsym : after (.wrNsym 1) pair = { pair with nsym := 1, codev := false, dtabv := false } := by decide +kernel

/-- V28. -/
theorem test_rdMaxlen : (after .rdMaxlen State.reset).replies = [15] := by decide

/-- V29 step 11: 16 is out of range, `MAXLEN` stays. -/
theorem test_wrMaxlen_invalid : (after (.wrMaxlen 16) pair).err = 3 ∧ (after (.wrMaxlen 16) pair).maxlen = 1 := by decide

/-- V29 step 1: `NPAD` of 5 symbols is 6. -/
theorem test_rdNpad : (after .rdNpad (block 5 3 [] [] [])).replies = [6] := by decide

/-- P3 step 10. -/
theorem test_rdShrink : (after .rdShrink { pair with shrink := 2 }).replies = [2] := by decide

/-- P2 step 18. -/
theorem test_rdResult : (after .rdResult { pair with result := 3 }).replies = [3] := by decide

/-- V32: tables stay readable in the faulted block. -/
theorem test_rdWeight : (after (.rdWeight 1) broken).replies = [1] := by decide +kernel

/-- V29 step 7: no flag is touched. -/
theorem test_wrWeight :
    (after (.wrWeight 0 0xFFFFFFFF) pair).weight = table [0xFFFFFFFF, 1] ∧
    (after (.wrWeight 0 0xFFFFFFFF) pair).codev = true := by decide +kernel

/-- V32 step 6. -/
theorem test_rdLen : (after (.rdLen 1) pair).replies = [1] := by decide +kernel

/-- V13: the same value written again clears both flags all the same. -/
theorem test_wrLen : after (.wrLen 1 1) pair = { pair with codev := false, dtabv := false } := by decide +kernel

/-- V30 row 12: 256 does not fit, nothing is stored. -/
theorem test_wrLen_invalid : (after (.wrLen 0 256) pair).errinfo = 256 ∧ (after (.wrLen 0 256) pair).len = pair.len := by
  decide +kernel

/-- V32 step 7. -/
theorem test_rdCode : (after (.rdCode 1) pair).replies = [1] := by decide +kernel

/-- V14: the host's view of a slot; P2 step 9. -/
theorem test_rdDtab : (after (.rdDtab 1) pair).replies = [0x00010001] := by decide

/-- V30 rows 7 and 13: a bad read returns 0 and faults; the address is tested before the value. -/
theorem test_bad_access :
    (stepped (does (.read 0x50000) pair)).errinfo = 0x00050000 ∧ (stepped (does (.read 0x50000) pair)).replies = [0] ∧
    (stepped (does (.write 0x30000 0x100) pair)).err = 2 := by decide

/-- R200: reset leaves the ports alone. -/
theorem test_reset :
    (stepped { broken with script := [.reset] }).err = 0 ∧ (stepped { broken with script := [.reset] }).src = [true, false] := by
  decide

/-! ## Witnesses: states that meet the obligations' hypotheses -/

theorem nCap_pos : 1 < Config.nCap ∧ Config.nCap ≤ 65536 := by
  unfold Config.nCap
  omega

theorem tableOf_of_lt_two {n : Nat} {m : Memory n} (hw : m.wf) (h : ∀ e ∈ m, e.1 < 2) : m.tableOf Config.nCap :=
  ⟨hw, fun e he => lt_of_lt_of_le (h e he) nCap_pos.1⟩

/-- The block with both tables built is a legal state. -/
theorem witness_inv_pair : Inv pair where
  tables := ⟨tableOf_of_lt_two (by decide) (by decide), tableOf_of_lt_two (by decide) (by decide),
    tableOf_of_lt_two (by decide) (by decide), by decide⟩
  registers := ⟨nCap_pos.1, by decide, by decide, by decide, by decide, by decide⟩
  codes := fun _ => ⟨[(1, 1)], by decide +kernel, by decide +kernel⟩
  table := fun _ => by decide +kernel
  cursor := by decide

/-- So is the block with an incomplete code. -/
theorem witness_inv_lone : Inv lone where
  tables := ⟨tableOf_of_lt_two (by decide) (by decide), tableOf_of_lt_two (by decide) (by decide),
    tableOf_of_lt_two (by decide) (by decide), by decide⟩
  registers := ⟨nCap_pos.1, by decide, by decide, by decide, by decide, by decide⟩
  codes := fun _ => ⟨[], by decide +kernel, by decide +kernel⟩
  table := fun _ => by decide +kernel
  cursor := by decide

/-- Every instruction and every step has a next state, the one these tests look at. -/
theorem exec_after (i : Instr) (s : State) : exec i s = .next (after i s) := by
  obtain ⟨t, h⟩ := exec_next i s
  rw [after, h]

theorem step_stepped (s : State) : step s = .next (stepped s) := by
  obtain ⟨t, h⟩ := step_next s
  rw [stepped, h]

theorem witness_DecodeInvertsEncode : WellFormed (.rdDtab 32767) = true ∧ WellFormed (.enc 65535) = true := by decide

/-- Each of the four ways to be illegal, at the boundary (R84, R85), in a live and in a faulted block. -/
theorem witness_IllegalWordIsAFault :
    decodeCommand 0x00000000 = none ∧ decodeCommand 0x00000009 = none ∧ decodeCommand 0x00000106 = none ∧
    decodeCommand 0x00010008 = none ∧ decodeCommand 0xFFFF0006 = some (.enc 0xFFFF) ∧ pair.err = 0 ∧ broken.err ≠ 0 := by
  decide

theorem witness_StepRunsTheDecodedInstruction :
    (does (.read 0x47FFF) pair).script = .op (.read 0x47FFF) :: [] ∧
    decode (.hostOp (.read 0x47FFF)) = some (.rdDtab 32767) ∧ WellFormed (.rdDtab 32767) = true ∧
    (does (.write 0 0x00010006) pair).script = .op (.write 0 0x00010006) :: [] ∧
    decode (.command 0x00010006) = some (.enc 1) ∧ WellFormed (.enc 1) = true := by decide

theorem witness_StepConsumesOneEvent :
    pair.script = [] ∧ (∃ a rest, (does (.read 5) pair).script = .op (.read a) :: rest) ∧
    (¬∃ a rest, (does (.write 0 7) pair).script = .op (.read a) :: rest) ∧
    step (does (.read 5) pair) = .next (stepped (does (.read 5) pair)) := by
  refine ⟨rfl, ⟨5, [], rfl⟩, ?_, step_stepped _⟩
  rintro ⟨a, rest, h⟩
  cases h

theorem witness_ResetAndClrLeaveResetState : ({ pair with script := [.reset] } : State).script = .reset :: [] := rfl

theorem witness_ResetStateIsTheEmptyAlphabet : State.reset = State.launch [] [] 0 [] := rfl

/-- A mapped address, and one that is not, in a live and in a faulted block. -/
theorem witness_ReadReturnsThePortValue :
    portValue pair 0x47FFF = some 0 ∧ portValue pair 0x10001 = some 1 ∧ portValue pair 0x00008 = none ∧ pair.err = 0 ∧
    portValue broken 0x50000 = none ∧ broken.err ≠ 0 ∧
    (does (.read 0x47FFF) pair).script = .op (.read 0x47FFF) :: [] := by decide +kernel

theorem witness_TableReadsComplete :
    (0 : BitVec 16).toNat < Config.nCap ∧ (1 : BitVec 16).toNat < Config.nCap ∧ (32767 : BitVec 16).toNat < 32768 := by
  have := nCap_pos
  refine ⟨?_, this.1, by decide⟩
  simp
  omega

/-- Every clause on addresses and values, at the ends of its range: address 0, 3, 4, the first and second word of WEIGHT and
LEN, and addresses of none of them; legal values at both ends and the first illegal ones. -/
theorem witness_WriteFollowsTheAddressMap :
    (does (.write 0 8) broken).script = .op (.write 0 8) :: [] ∧ broken.err ≠ 0 ∧ pair.err = 0 ∧
    decodeCommand 7 = some .dec ∧ decodeCommand 0 = none ∧
    (2 : Word).toNat ≤ Config.nCap ∧ Config.nCap < (65537 : Word).toNat ∧
    (1 ≤ (15 : Word).toNat ∧ (15 : Word).toNat ≤ 15) ∧ ¬(1 ≤ (16 : Word).toNat ∧ (16 : Word).toNat ≤ 15) ∧
    ¬(1 ≤ (0 : Word).toNat ∧ (0 : Word).toNat ≤ 15) ∧
    (65536 ≤ (0x10000 : Addr).toNat ∧ (0x10001 : Addr).toNat < 65536 + Config.nCap) ∧
    (131072 ≤ (0x20000 : Addr).toNat ∧ (0x20001 : Addr).toNat < 131072 + Config.nCap) ∧
    (255 : Word).toNat < 256 ∧ 256 ≤ (256 : Word).toNat ∧
    ((0x30000 : Addr).toNat ≠ 0 ∧ (0x30000 : Addr).toNat ≠ 3 ∧ (0x30000 : Addr).toNat ≠ 4 ∧
      ¬(65536 ≤ (0x30000 : Addr).toNat ∧ (0x30000 : Addr).toNat < 65536 + Config.nCap) ∧
      ¬(131072 ≤ (0x30000 : Addr).toNat ∧ (0x30000 : Addr).toNat < 131072 + Config.nCap)) := by
  have := nCap_pos
  refine ⟨rfl, by decide, by decide, by decide, by decide, ?_, ?_, by decide, by decide, by decide, ?_, ?_, by decide,
    by decide, ?_⟩ <;> simp <;> omega

theorem witness_RegisterWritesComplete :
    pair.err = 0 ∧ (0 : Word).toNat ≤ Config.nCap ∧ (2 : Word).toNat ≤ Config.nCap ∧ 1 ≤ (1 : Word).toNat ∧
    (15 : Word).toNat ≤ 15 := by
  have := nCap_pos
  refine ⟨by decide, ?_, ?_, by decide, by decide⟩ <;> (simp; try omega)

theorem witness_TableWritesComplete :
    pair.err = 0 ∧ TablesCanonical pair ∧ (1 : BitVec 16).toNat < Config.nCap ∧ (255 : Word).toNat < 256 :=
  ⟨by decide, witness_inv_pair.tables, nCap_pos.1, by decide⟩

theorem witness_OutOfRangeValueIsInvalidConfig :
    pair.err = 0 ∧ (1 : BitVec 16).toNat < Config.nCap ∧ (256 : Word).toNat / 256 ≠ 0 ∧ Config.nCap < (65537 : Word).toNat ∧
    ((0 : Word).toNat = 0 ∨ 15 < (0 : Word).toNat) ∧ ((16 : Word).toNat = 0 ∨ 15 < (16 : Word).toNat) ∧
    decodeCommand 7 = some .dec ∧ decodeCommand 9 = none := by
  have := nCap_pos
  exact ⟨by decide, this.1, by decide, by simp; omega, by decide, by decide, by decide, by decide⟩

/-- Bad reads of every kind, the three index bounds at `N_CAP` where `N_CAP` is below 65536, and bad writes of every kind. -/
theorem witness_BadAccessIsAFault :
    pair.err = 0 ∧ 5 ≤ (0x50000 : Addr).toNat / 65536 ∧
    ((0x00008 : Addr).toNat / 65536 = 0 ∧ 8 ≤ (0x00008 : Addr).toNat % 65536) ∧
    ((0x48000 : Addr).toNat / 65536 = 4 ∧ 32768 ≤ (0x48000 : Addr).toNat % 65536) ∧
    (Config.nCap < 65536 → ∃ a : Addr, a.toNat / 65536 = 1 ∧ a.toNat % 65536 = Config.nCap) ∧
    ((0x00007 : Addr).toNat / 65536 = 0 ∧ (0x00007 : Addr).toNat % 65536 = 7) ∧ (0x30000 : Addr).toNat / 65536 = 3 ∧
    (0x40000 : Addr).toNat / 65536 = 4 ∧ (does (.write 7 0) pair).script = .op (.write 7 0) :: [] := by
  refine ⟨by decide, by decide, by decide, by decide, fun h => ⟨BitVec.ofNat 20 (65536 + Config.nCap), ?_, ?_⟩, by decide,
    by decide, by decide, rfl⟩ <;> simp <;> omega

theorem witness_CmdWriteExecutesTheCommand :
    decodeCommand 0x00000001 = some .hlb ∧ decodeCommand 0x00000008 = some .clr ∧ broken.err ≠ 0 ∧ (7 : Word) ≠ 0x00000008 := by
  decide

/-- A faulting read and a faulting write of a live block. -/
theorem witness_FaultsArePrecise :
    pair.err = 0 ∧ step (does (.read 8) pair) = .next (stepped (does (.read 8) pair)) ∧
    (stepped (does (.read 8) pair)).err ≠ 0 ∧ step (does (.write 0 0) pair) = .next (stepped (does (.write 0 0) pair)) ∧
    (stepped (does (.write 0 0) pair)).err ≠ 0 :=
  ⟨by decide, step_stepped _, by decide, step_stepped _, by decide⟩

theorem witness_FaultedBlockIgnoresAllButClr :
    broken.err ≠ 0 ∧ (does (.write 0 0x00010008) broken).script = .op (.write 0 0x00010008) :: [] ∧
    ¬((0 : Addr) = 0 ∧ (0x00010008 : Word) = 0x00000008) ∧ (does (.read 8) broken).script = .op (.read 8) :: [] ∧
    (does (.write 0 0x00000008) broken).script = .op (.write 0 0x00000008) :: [] ∧
    step (does (.read 8) broken) = .next (stepped (does (.read 8) broken)) :=
  ⟨by decide, rfl, by decide, rfl, rfl, step_stepped _⟩

/-- Three symbols of length 1: Kraft sum 3/2. -/
def crowded : State := block 3 1 [1, 1, 1] [1, 1, 1] []

/-- A fault of every code but `BadAccess`, whose index bound depends on `N_CAP`, and that one from a slot index. -/
theorem witness_EachFaultHasItsCause :
    (pair.err = 0 ∧ 1 ≤ pair.maxlen.toNat ∧ lone.err = 0 ∧ crowded.err = 0 ∧ 1 ≤ crowded.maxlen.toNat) ∧
    (after (.wrCmd 0) pair).err = 1 ∧ (after (.rdDtab 32768) pair).err = 2 ∧ (after (.wrMaxlen 0) pair).err = 3 ∧
    (after .hdt crowded).err = 4 ∧ (after .hlb crowded).err = 5 ∧ (after .cca crowded).err = 6 ∧
    (after (.enc 2) pair).err = 7 ∧ (after .dec { pair with src := [] }).err = 8 ∧ (after .dec lone).err = 9 := by
  decide +kernel

theorem witness_NotReadyUntilBuilt :
    (crowded.err = 0 ∧ crowded.codev = false ∧ crowded.dtabv = false ∧ exec .cca crowded = .next (after .cca crowded)) ∧
    pair.err = 0 ∧ pair.codev = true ∧ pair.dtabv = true ∧ exec .hdt pair = .next (after .hdt pair) ∧
    exec (.enc 1) pair = .next (after (.enc 1) pair) ∧ exec .dec pair = .next (after .dec pair) :=
  ⟨⟨by decide, by decide, by decide, exec_after _ _⟩, by decide, by decide, by decide, exec_after _ _, exec_after _ _,
    exec_after _ _⟩

/-- A key of the required form, and nodes that differ in each of its parts. -/
theorem witness_ExtractionOrderIsLexicographic :
    ∃ key : Node → Nat × Nat × Nat, (∀ i w, key (.leaf i w) = (w, 1, 65535 - i)) ∧
      (∀ k w a b, key (.internal k w a b) = (w, 0, k)) ∧ key (.leaf 65535 1) ≠ key (.leaf 65535 2) ∧
      key (.leaf 65535 1) ≠ key (.leaf 0 1) ∧ key (.leaf 0 1) ≠ key (.internal 0 1 (.leaf 0 1) (.leaf 1 1)) :=
  ⟨fun n => match n with
    | .leaf i w => (w, 1, 65535 - i)
    | .internal k w _ _ => (w, 0, k), fun _ _ => rfl, fun _ _ _ _ => rfl, by decide, by decide, by decide⟩

theorem witness_ExtractFirstTakesTheLeast :
    ([.leaf 0 1, .leaf 1 1, .internal 0 1 (.leaf 2 1) (.leaf 3 1)] : List Node).Pairwise
      (fun a b => nodeBefore a b = true ∨ nodeBefore b a = true) := by decide

/-- Two active symbols, and the five of V4, whose attempt with exponent 2 is 3 high. -/
theorem witness_AttemptDepthsAreThoseOfAFullTree :
    2 ≤ [0, 1].length ∧ 2 ≤ [0, 1, 2, 3, 4].length ∧
    (∀ p ∈ attempt [0, 1, 2, 3, 4] (table [1, 1, 2, 4, 8]) 2, p.2 ≤ 3) := by decide +kernel

/-- No active symbol, one, two and more with the first fit at 0 and at 2 (V4), and none that fits. -/
theorem witness_HlbTakesTheFirstFittingAttempt :
    State.reset.err = 0 ∧ activeSymbols 0 State.reset.weight = [] ∧ activeSymbols 2 (table [0, 1]) = [1] ∧
    (∀ p ∈ attempt [0, 1] pair.weight 0, p.2 ≤ 1) ∧
    (∀ p ∈ attempt [0, 1, 2, 3, 4] (table [1, 1, 2, 4, 8]) 2, p.2 ≤ 3) ∧
    (∀ j < 2, ∃ p ∈ attempt [0, 1, 2, 3, 4] (table [1, 1, 2, 4, 8]) j, 3 < p.2) ∧
    (∀ k ≤ 32, ∃ p ∈ attempt [0, 1, 2] crowded.weight k, 1 < p.2) := by decide +kernel

/-- `HLB` succeeds with no, one and two active symbols. -/
theorem witness_HlbLengthsGuarantee :
    (exec .hlb State.reset = .next (after .hlb State.reset) ∧ (after .hlb State.reset).err = 0) ∧
    (exec .hlb lone = .next (after .hlb lone) ∧ (after .hlb lone).err = 0 ∧ 1 ≤ lone.maxlen.toNat) ∧
    (exec .hlb pair = .next (after .hlb pair) ∧ (after .hlb pair).err = 0 ∧ 1 ≤ pair.maxlen.toNat) :=
  ⟨⟨exec_after _ _, by decide +kernel⟩, ⟨exec_after _ _, by decide +kernel⟩, ⟨exec_after _ _, by decide +kernel⟩⟩

/-- One more active symbol than fit. -/
theorem witness_HlbFaultsWhenTooManyActive :
    crowded.err = 0 ∧ 2 ^ crowded.maxlen.toNat + 1 = (activeSymbols crowded.nsym.toNat crowded.weight).length := by decide +kernel

/-- As many active symbols as fit. -/
theorem witness_HlbSucceedsWhenFeasible :
    pair.err = 0 ∧ (activeSymbols pair.nsym.toNat pair.weight).length = 2 ^ pair.maxlen.toNat := by decide +kernel

/-- Two blocks that differ in a weight outside the alphabet and in LEN, both fitting; and two that fault. -/
theorem witness_HlbDependsOnWeightsAlone :
    pair.nsym = (block 2 1 [1, 1, 7] [5, 5] []).nsym ∧ pair.maxlen = (block 2 1 [1, 1, 7] [5, 5] []).maxlen ∧
    (∀ i < pair.nsym.toNat, pair.weight.read i = (block 2 1 [1, 1, 7] [5, 5] []).weight.read i) ∧
    (after .hlb (block 2 1 [1, 1, 7] [5, 5] [])).err = 0 ∧ (after .hlb crowded).err ≠ 0 := by decide +kernel

/-- The lowest overlong entry is the second, and the first (V11 row 5). -/
theorem witness_CcaReportsTheLowestOverlongEntry :
    1 < npad (block 2 1 [] [1, 2] []) ∧ 1 < ((block 2 1 [] [1, 2] []).len.read 1).toNat ∧
    (∀ j < 1, ((block 2 1 [] [1, 2] []).len.read j).toNat ≤ 1) ∧
    2 < ((block 4 2 [] [3, 1, 3, 0] []).len.read 0).toNat := by decide +kernel

theorem witness_CcaReportsWhereTheKraftSumPassesOne :
    crowded.err = 0 ∧ (∀ i < npad crowded, (crowded.len.read i).toNat ≤ crowded.maxlen.toNat) ∧
    2 ^ crowded.maxlen.toNat + 1 = kraftScaled crowded.maxlen.toNat (npad crowded) crowded.len := by decide +kernel

/-- A Kraft sum of exactly 1, with an active and an unused symbol (V10 row 9's shape). -/
theorem witness_CcaAssignsCanonicalCodes :
    (∀ i < npad (block 3 2 [] [1, 2, 2] []), ((block 3 2 [] [1, 2, 2] []).len.read i).toNat ≤ 2) ∧
    kraftScaled 2 (npad (block 3 2 [] [1, 2, 2] [])) (block 3 2 [] [1, 2, 2] []).len = 2 ^ 2 ∧
    activeIn (npad (block 3 2 [] [1, 2, 2] [])) (block 3 2 [] [1, 2, 2] []).len 2 ∧
    (block 3 2 [] [1, 2, 2] []).len.read 3 = 0 := by decide +kernel

/-- Two blocks with different `MAXLEN` that both assign codes. -/
theorem witness_CodesDependOnLengthsAlone :
    pair.nsym = ({ pair with maxlen := 15 } : State).nsym ∧ (after .cca pair).err = 0 ∧
    (after .cca { pair with maxlen := 15 }).err = 0 := by decide +kernel

theorem witness_CodewordsArePrefixFree :
    Inv pair ∧ pair.codev = true ∧ activeIn (npad pair) pair.len 0 ∧ activeIn (npad pair) pair.len 1 :=
  ⟨witness_inv_pair, by decide, by decide, by decide⟩

/-- A slot a codeword begins, and one none begins. -/
theorem witness_HdtFillsEverySlot :
    Inv lone ∧ lone.err = 0 ∧ lone.codev = true ∧ codeword lone 0 <+: bitsMsbFirst lone.maxlen.toNat 0 ∧
    ∀ i, activeIn (npad lone) lone.len i → ¬(codeword lone i <+: bitsMsbFirst lone.maxlen.toNat 1) := by
  refine ⟨witness_inv_lone, by decide, by decide, by decide, fun i hi => ?_⟩
  obtain ⟨h1, h2⟩ := hi
  have h1 : i < 2 := h1
  interval_cases i
  · decide
  · exact absurd (by decide) h2

theorem witness_ValidSlotsAreTheFirstKraftMany :
    Inv lone ∧ lone.dtabv = true ∧ (0 < 2 ^ lone.maxlen.toNat ∧ 1 < 2 ^ lone.maxlen.toNat) :=
  ⟨witness_inv_lone, by decide, by decide⟩

theorem witness_EncbEqualsHlbThenCca :
    (exec .hlb pair = .next (after .hlb pair) ∧ (after .hlb pair).err = 0 ∧ 1 ≤ pair.maxlen.toNat) ∧
    (exec .hlb crowded = .next (after .hlb crowded) ∧ (after .hlb crowded).err ≠ 0 ∧ 1 ≤ crowded.maxlen.toNat) :=
  ⟨⟨exec_after _ _, by decide +kernel⟩, ⟨exec_after _ _, by decide +kernel⟩⟩

theorem witness_EncbCompletesWhenFeasible :
    pair.err = 0 ∧ 1 ≤ pair.maxlen.toNat ∧
    (activeSymbols pair.nsym.toNat pair.weight).length = 2 ^ pair.maxlen.toNat := by decide +kernel

theorem witness_SinkPutAppendsLowBitsMsbFirst : 1 ≤ 1 ∧ 15 ≤ 15 ∧ (sinkPut 3 6 pair).sink = [true, true, false] := by decide

/-- No codes; a symbol from `NPAD` on; an unused symbol; an active one, in a legal state. -/
theorem witness_EncPutsTheCodeword :
    crowded.codev = false ∧ lone.codev = true ∧ npad lone ≤ (2 : BitVec 16).toNat ∧
    (1 : BitVec 16).toNat < npad lone ∧ lone.len.read 1 = 0 ∧ (0 : BitVec 16).toNat < npad lone ∧ lone.len.read 0 = 1 ∧
    lone.err = 0 ∧ Inv lone :=
  ⟨by decide, by decide, by decide, by decide, by decide, by decide, by decide, by decide, witness_inv_lone⟩

theorem witness_DecbEqualsCcaThenHdt :
    (exec .cca pair = .next (after .cca pair) ∧ (after .cca pair).err = 0) ∧
    (exec .cca crowded = .next (after .cca crowded) ∧ (after .cca crowded).err ≠ 0) :=
  ⟨⟨exec_after _ _, by decide +kernel⟩, ⟨exec_after _ _, by decide +kernel⟩⟩

theorem witness_DecbCompletesOnALegalTable :
    pair.err = 0 ∧ (∀ i < npad pair, (pair.len.read i).toNat ≤ pair.maxlen.toNat) ∧
    kraftScaled pair.maxlen.toNat (npad pair) pair.len = 2 ^ pair.maxlen.toNat := by decide +kernel

theorem witness_SrcPeekIsTheValueOfTheNextBits :
    2 ≤ pair.src.length - pair.srcpos ∧ srcPeek 2 pair = 2 := by decide

/-- No table; one bit too few; a slot no codeword reaches; a slot of symbol 1, in a legal state. -/
theorem witness_DecLooksUpAndSkips :
    crowded.dtabv = false ∧
    (pair.dtabv = true ∧ ({ pair with src := [] } : State).src.length - pair.srcpos + 1 = pair.maxlen.toNat) ∧
    (lone.dtabv = true ∧ lone.maxlen.toNat ≤ lone.src.length - lone.srcpos ∧
      slotValid (lone.dtab.read (srcPeek lone.maxlen.toNat lone)) = false) ∧
    (pair.maxlen.toNat ≤ pair.src.length - pair.srcpos ∧
      slotValid (pair.dtab.read (srcPeek pair.maxlen.toNat pair)) = true) := by decide

theorem witness_CompleteCodeNeverInvalid :
    Inv pair ∧ pair.err = 0 ∧ pair.dtabv = true ∧
    kraftScaled pair.maxlen.toNat (npad pair) pair.len = 2 ^ pair.maxlen.toNat ∧ exec .dec pair = .next (after .dec pair) :=
  ⟨witness_inv_pair, by decide, by decide, by decide +kernel, exec_after _ _⟩

/-- The pair with `MAXLEN` 2: each symbol has twice as many slots (R133). -/
def wide : State := { pair with maxlen := 2, dtab := table [0x10000, 0x10000, 0x10001, 0x10001] }

theorem witness_DecodedSymbolIndependentOfMaxlen :
    Inv pair ∧ Inv wide ∧ pair.nsym = wide.nsym ∧ pair.src = wide.src ∧ pair.srcpos = wide.srcpos ∧
    (after .dec pair).err = 0 ∧ (after .dec wide).err = 0 := by
  refine ⟨witness_inv_pair, ⟨?_, ?_, ?_, ?_, by decide⟩, by decide, by decide, by decide, by decide, by decide⟩
  · exact ⟨tableOf_of_lt_two (by decide) (by decide), tableOf_of_lt_two (by decide) (by decide),
      tableOf_of_lt_two (by decide) (by decide), by decide⟩
  · exact ⟨nCap_pos.1, by decide, by decide, by decide, by decide, by decide⟩
  · exact fun _ => ⟨[(1, 1)], by decide +kernel, by decide +kernel⟩
  · exact fun _ => by decide +kernel

theorem witness_DecInvertsTheCodeword :
    Inv pair ∧ pair.err = 0 ∧ pair.dtabv = true ∧ activeIn (npad pair) pair.len (1 : BitVec 16).toNat ∧
    pair.maxlen.toNat ≤ pair.src.length - pair.srcpos ∧ codeword pair 1 <+: pair.src.drop pair.srcpos :=
  ⟨witness_inv_pair, by decide, by decide, by decide, by decide, by decide⟩

theorem witness_EncodingAListPutsItsCodewords :
    pair.err = 0 ∧ pair.codev = true ∧ ∀ y ∈ [(0 : BitVec 16), 1, 1], activeIn (npad pair) pair.len y.toNat :=
  ⟨by decide, by decide, fun y hy => by
    simp only [List.mem_cons, List.not_mem_nil, or_false] at hy
    rcases hy with rfl | rfl | rfl <;> decide⟩

/-- The source "10" is the codewords of symbols 1 and 0; `MAXLEN - LEN[0] = 0` bits of padding are enough. -/
theorem witness_DecodingAStreamReturnsItsSymbols :
    Inv pair ∧ pair.err = 0 ∧ pair.dtabv = true ∧
    (∀ x ∈ [(1 : BitVec 16)] ++ 0 :: [], activeIn (npad pair) pair.len x.toNat) ∧
    pair.src.drop pair.srcpos = ([(1 : BitVec 16)] ++ 0 :: []).flatMap (fun x : BitVec 16 => codeword pair x.toNat) ++ [] ∧
    pair.maxlen.toNat - (pair.len.read (((0 : BitVec 16) :: []).getLast (List.cons_ne_nil _ _)).toNat).toNat ≤
      ([] : List Bool).length :=
  ⟨witness_inv_pair, by decide, by decide, fun y hy => by
    simp only [List.cons_append, List.nil_append, List.mem_cons, List.not_mem_nil, or_false] at hy
    rcases hy with rfl | rfl <;> decide, by decide +kernel, by decide⟩

/-- A success and a fault of a live block, and a reset. -/
theorem witness_FlagsFollowTheirTable :
    pair.err = 0 ∧ exec (.wrLen 1 1) pair = .next (after (.wrLen 1 1) pair) ∧ (after (.wrLen 1 1) pair).err = 0 ∧
    (after .cca pair).err = 0 ∧ (after .hdt pair).err = 0 ∧ (after .decb pair).err = 0 ∧ (after (.enc 1) pair).err = 0 ∧
    (after .dec pair).err = 0 ∧ (after .cca crowded).err ≠ 0 ∧
    ({ pair with script := [.reset] } : State).script = .reset :: [] :=
  ⟨by decide, exec_after _ _, by decide +kernel, by decide +kernel, by decide +kernel, by decide +kernel, by decide +kernel,
    by decide, by decide +kernel, rfl⟩

/-- Every piece is changed by one of its writers. -/
theorem witness_EachPieceHasItsWriters :
    (∀ w, Instr.dec ≠ .wrCmd w) ∧ (after (.wrNsym 1) pair).nsym ≠ pair.nsym ∧
    (after (.wrMaxlen 2) pair).maxlen ≠ pair.maxlen ∧ (after (.wrWeight 0 9) pair).weight ≠ pair.weight ∧
    (after (.wrLen 0 9) pair).len ≠ pair.len ∧
    (after .cca { pair with code := [] }).code ≠ [] ∧ (after .hdt { pair with dtab := [] }).dtab ≠ [] ∧
    (after .hlb (block 5 3 [1, 1, 2, 4, 8] [] [])).shrink ≠ 0 ∧ (after .dec pair).result ≠ pair.result ∧
    (after .decb crowded).err ≠ crowded.err ∧ (after (.enc 2) pair).errinfo ≠ pair.errinfo ∧
    (after (.wrLen 0 1) pair).codev ≠ pair.codev ∧ (after .cca pair).dtabv ≠ pair.dtabv ∧
    (after (.enc 1) pair).sink ≠ pair.sink ∧ (after .dec pair).srcpos ≠ pair.srcpos := by
  refine ⟨fun _ h => Instr.noConfusion h, ?_⟩
  decide +kernel

theorem witness_BitStreamsOnlyAdvance :
    Inv (does (.write 0 0x00010006) pair) ∧
    step (does (.write 0 0x00010006) pair) = .next (stepped (does (.write 0 0x00010006) pair)) ∧
    (stepped (does (.write 0 0x00010006) pair)).sink = [true] := by
  obtain ⟨a, b, c, d, e⟩ := witness_inv_pair
  exact ⟨⟨a, b, c, d, e⟩, step_stepped _, by decide⟩

theorem witness_StepKeepsTablesCanonical :
    RegistersLegal pair ∧ TablesCanonical pair ∧ step pair = .next (stepped pair) :=
  ⟨witness_inv_pair.registers, witness_inv_pair.tables, step_stepped _⟩

theorem witness_StepKeepsRegistersLegal : RegistersLegal pair ∧ step pair = .next (stepped pair) :=
  ⟨witness_inv_pair.registers, step_stepped _⟩

theorem witness_StepKeepsTheInvariant :
    Inv pair ∧ step pair = .next (stepped pair) ∧ Inv (does (.write 0 0x00010006) pair) ∧
    step (does (.write 0 0x00010006) pair) = .next (stepped (does (.write 0 0x00010006) pair)) :=
  ⟨witness_inv_pair, step_stepped _, witness_BitStreamsOnlyAdvance.1, step_stepped _⟩

theorem witness_LaunchStateIsLegal : 2 ≤ [true, false].length := by decide

theorem witness_AttemptMergesTheTwoFirstNodes : 2 ≤ [0, 1].length ∧ [0, 1].Nodup ∧ 2 ≤ [0, 1, 2, 3].length := by decide

/-- R102: the transformed weights of V4 with exponents 0, 1 and 2, as the spec's trace lists them. -/
theorem test_transformed_weights :
    [1, 1, 2, 4, 8].map (transformed 0) = [1, 1, 2, 4, 8] ∧ [1, 1, 2, 4, 8].map (transformed 1) = [1, 1, 1, 2, 4] ∧
    [1, 1, 2, 4, 8].map (transformed 2) = [1, 1, 1, 1, 2] := by decide

end Sys2Proof.Tests
end

/-! PROOFS. The state of the block (10_state.md): its reset values (R41), the `CMD` register (R24), and how each event sets
the validity flags (R39). -/

namespace Sys2Proof.Machine

/-! ## Reset and `CLR` -/

/-- A reset event of the host clears the block (R200). -/
theorem step_of_reset {s : State} {rest : List HostEvent} (h : s.script = .reset :: rest) :
    step s = .next (clearBlock (setScript rest s)) := by
  unfold step fetch
  simp only [h]

theorem atReset_launch (sink src : List Bool) (srcpos : Nat) (script : List HostEvent) :
    AtReset (State.launch sink src srcpos script) :=
  ⟨rfl, rfl, rfl, rfl, rfl, rfl, rfl, rfl, rfl, fun _ => rfl, fun _ => rfl, fun _ => rfl, fun _ => rfl⟩

/-- Clearing leaves the block as it was launched (R41): `AtReset` does not speak of the replies, all that differs. -/
theorem atReset_clearBlock (s : State) : AtReset (clearBlock s) := atReset_launch s.sink s.src s.srcpos s.script

/-- Settles O7: `CLR` and a reset event both answer `clearBlock`, a launch state but for the replies. -/
theorem resetAndClrLeaveResetState : Obligations.ResetAndClrLeaveResetState := by
  unfold Obligations.ResetAndClrLeaveResetState
  refine ⟨fun sink src srcpos script => ⟨atReset_launch .., rfl, rfl, rfl⟩, fun s => ?_, fun s rest h => ?_⟩
  · exact ⟨clearBlock s, rfl, atReset_clearBlock s, rfl, rfl, rfl, rfl, rfl⟩
  · exact ⟨_, step_of_reset h, atReset_clearBlock _, rfl, rfl, rfl, rfl, rfl⟩

/-! ## The `CMD` register -/

/-- In the faulted block a write to `CMD` of any word but `CLR` is ignored (R24, R186). -/
theorem execWrCmd_of_faulted {v : Word} {s : State} (hs : s.err ≠ 0) (hv : v ≠ 8) : execWrCmd v s = .next s := by
  unfold execWrCmd
  rw [if_pos hs, if_neg hv]

/-- Settles O17: `WR CMD` of a legal word is that command, faulted block or not. -/
theorem cmdWriteExecutesTheCommand : Obligations.CmdWriteExecutesTheCommand := by
  unfold Obligations.CmdWriteExecutesTheCommand
  refine fun w s => ⟨fun i hd => ?_, execWrCmd_of_faulted, rfl⟩
  obtain ⟨t, ht⟩ := exec_next i s
  exact ⟨t, ht, (execWrCmd_of_decode hd s).trans ht⟩

/-- No command word is a write to `CMD` (R83). -/
theorem decodeCommand_ne_wrCmd {w : Word} {i : Instr} (h : decodeCommand w = some i) (v : Word) : i ≠ .wrCmd v := by
  rintro rfl
  simpa using decodeCommand_cases h

/-! ## The flags -/

/-- The flag an instruction needs to run without a fault (R175). -/
def FlagNeeded (i : Instr) (s : State) : Prop :=
  match i with
  | .hdt | .enc _ => s.codev = true
  | .dec => s.dtabv = true
  | _ => True

/-- `CODEV` and `DTABV` after an instruction that does not fault (R39). `WR CMD` has no row of its own: it runs its
command. -/
def flagsAfter (i : Instr) (s : State) : Bool × Bool :=
  match i with
  | .wrLen _ _ | .wrNsym _ | .wrMaxlen _ | .hlb | .clr => (false, false)
  | .cca | .encb => (true, false)
  | .hdt => (s.codev, true)
  | .decb => (true, true)
  | _ => (s.codev, s.dtabv)

/-- `t` is a fault that keeps the flags of `s`, or a success of `i`, whose flag was set, with the flags of its row in R39. -/
def FlagOutcome (i : Instr) (s t : State) : Prop :=
  (t.err ≠ 0 ∧ t.codev = s.codev ∧ t.dtabv = s.dtabv) ∨
    (t.err = 0 ∧ FlagNeeded i s ∧ t.codev = (flagsAfter i s).1 ∧ t.dtabv = (flagsAfter i s).2)

theorem FlagOutcome.kept_of_fault {i : Instr} {s t : State} (h : FlagOutcome i s t) (ht : t.err ≠ 0) :
    t.codev = s.codev ∧ t.dtabv = s.dtabv :=
  h.elim And.right fun hok => absurd hok.1 ht

theorem FlagOutcome.row_of_success {i : Instr} {s t : State} (h : FlagOutcome i s t) (ht : t.err = 0) :
    FlagNeeded i s ∧ t.codev = (flagsAfter i s).1 ∧ t.dtabv = (flagsAfter i s).2 :=
  h.elim (fun hbad => absurd ht hbad.1) And.right

/-- Fault entry writes no flag (R171). -/
theorem flagOutcome_raise (i : Instr) (f : FaultName) (info : Word) (s : State) : FlagOutcome i s (raise f info s) :=
  .inl ⟨code_ne_zero f, rfl, rfl⟩

/-- A bad read in a live block raises `BadAccess` and returns 0 (R68). -/
theorem badRead_of_live {s : State} (hs : s.err = 0) (a : Addr) :
    badRead a s = reply 0 (raise .badAccess (a.zeroExtend 32) s) := by
  rw [badRead, ifLive_of_live hs]

section
variable {s : State} (hs : s.err = 0)
include hs

theorem flagOutcome_ifLive {i : Instr} {t : State} (ht : FlagOutcome i s t) : FlagOutcome i s (ifLive s t) := by
  rwa [ifLive_of_live hs]

/-- A table read keeps both flags, whether its index is mapped or not (R39, R160). -/
theorem flagOutcome_tableRead {i : Instr} (hn : FlagNeeded i s) (hf : flagsAfter i s = (s.codev, s.dtabv)) (p : Prop)
    [Decidable p] (a : Addr) (w : Word) : FlagOutcome i s (tableRead p a w s) := by
  rcases tableRead_cases p a w s with ⟨-, e⟩ | ⟨-, e⟩
  · rw [e]
    exact .inr ⟨hs, hn, by rw [hf, reply_codev], by rw [hf, reply_dtabv]⟩
  · rw [e, badRead_of_live hs]
    exact .inl ⟨code_ne_zero .badAccess, rfl, rfl⟩

/-- A host write has its effect's flags, or is one of its two faults (R39, R161). -/
theorem flagOutcome_checkedWrite {i : Instr} {t : State} (ht : FlagOutcome i s t) (p q : Prop) [Decidable p] [Decidable q]
    (a : Addr) (v : Word) : FlagOutcome i s (checkedWrite p q a v s t) := by
  rcases checkedWrite_cases p q a v s t with ⟨h, -⟩ | ⟨-, -, -, e⟩ | ⟨-, -, -, e⟩ | ⟨-, -, e⟩
  · exact absurd hs h
  · rwa [e]
  · rw [e]; exact flagOutcome_raise ..
  · rw [e]; exact flagOutcome_raise ..

theorem flagOutcome_lengthEffect : FlagOutcome .hlb s (lengthEffect s) := by
  rcases lengthEffect_cases s with ⟨_, _, -, e⟩ | ⟨_, -, e⟩ <;> rw [e]
  · exact .inr ⟨hs, trivial, rfl, rfl⟩
  · exact flagOutcome_raise ..

theorem flagOutcome_assignEffect : FlagOutcome .cca s (assignEffect s) := by
  rcases assignEffect_cases s with ⟨_, -, e⟩ | ⟨_, -, e⟩ <;> rw [e]
  · exact .inr ⟨hs, trivial, rfl, rfl⟩
  · exact flagOutcome_raise ..

theorem flagOutcome_tableEffect : FlagOutcome .hdt s (tableEffect s) := by
  rcases tableEffect_cases s with ⟨hc, e⟩ | ⟨-, e⟩ <;> rw [e]
  · exact .inr ⟨hs, hc, rfl, rfl⟩
  · exact flagOutcome_raise ..

theorem flagOutcome_encoderEffect : FlagOutcome .encb s (encoderEffect s) := by
  rcases encoderEffect_cases s with ⟨_, _, _, -, -, e⟩ | ⟨_, -, e⟩ | ⟨_, _, _, -, -, e⟩ <;> rw [e]
  · exact .inr ⟨hs, trivial, rfl, rfl⟩
  · exact flagOutcome_raise ..
  · exact flagOutcome_raise ..

theorem flagOutcome_decoderEffect : FlagOutcome .decb s (decoderEffect s) := by
  rcases decoderEffect_cases s with ⟨_, -, e⟩ | ⟨_, -, e⟩ <;> rw [e]
  · exact .inr ⟨hs, trivial, rfl, rfl⟩
  · exact flagOutcome_raise ..

theorem flagOutcome_encodeEffect (sym : BitVec 16) : FlagOutcome (.enc sym) s (encodeEffect sym s) := by
  rcases encodeEffect_cases sym s with ⟨hc, -, -, e⟩ | ⟨-, -, e⟩ | ⟨-, e⟩ <;> rw [e]
  · exact .inr ⟨hs, hc, rfl, rfl⟩
  · exact flagOutcome_raise ..
  · exact flagOutcome_raise ..

theorem flagOutcome_decodeEffect : FlagOutcome .dec s (decodeEffect s) := by
  rcases decodeEffect_cases s with ⟨hd, -, -, e⟩ | ⟨-, -, -, e⟩ | ⟨-, -, e⟩ | ⟨-, e⟩ <;> rw [e]
  · exact .inr ⟨hs, hd, rfl, rfl⟩
  · exact flagOutcome_raise ..
  · exact flagOutcome_raise ..
  · exact flagOutcome_raise ..

/-- R39, one row after another: every instruction but `WR CMD`, in a live block. -/
theorem exec_flagOutcome {i : Instr} {t : State} (hi : ∀ v, i ≠ .wrCmd v) (h : exec i s = .next t) :
    FlagOutcome i s t := by
  cases i with
  | wrCmd v => exact absurd rfl (hi v)
  | hlb => cases h; exact flagOutcome_ifLive hs (flagOutcome_lengthEffect hs)
  | cca => cases h; exact flagOutcome_ifLive hs (flagOutcome_assignEffect hs)
  | hdt => cases h; exact flagOutcome_ifLive hs (flagOutcome_tableEffect hs)
  | encb => cases h; exact flagOutcome_ifLive hs (flagOutcome_encoderEffect hs)
  | decb => cases h; exact flagOutcome_ifLive hs (flagOutcome_decoderEffect hs)
  | enc sym => cases h; exact flagOutcome_ifLive hs (flagOutcome_encodeEffect hs sym)
  | dec => cases h; exact flagOutcome_ifLive hs (flagOutcome_decodeEffect hs)
  | clr => cases h; exact .inr ⟨rfl, trivial, rfl, rfl⟩
  | wrNsym | wrMaxlen | wrWeight | wrLen =>
    cases h
    apply flagOutcome_checkedWrite hs
    exact .inr ⟨hs, trivial, rfl, rfl⟩
  | rdWeight | rdLen | rdCode | rdDtab =>
    cases h
    apply flagOutcome_tableRead hs
    · trivial
    · rfl
  | rdCmd | rdStatus | rdErrinfo | rdNsym | rdMaxlen | rdNpad | rdShrink | rdResult =>
    cases h
    exact .inr ⟨hs, trivial, rfl, rfl⟩

/-- A faulting operation of a live block keeps both flags (R171, R39): `WR CMD` because its command does, or because its
word is illegal. -/
theorem exec_fault_keeps_flags {i : Instr} {t : State} (h : exec i s = .next t) (ht : t.err ≠ 0) :
    t.codev = s.codev ∧ t.dtabv = s.dtabv := by
  by_cases hi : ∃ v, i = .wrCmd v
  · obtain ⟨v, rfl⟩ := hi
    change execWrCmd v s = .next t at h
    cases hd : decodeCommand v with
    | none =>
      rw [execWrCmd_of_illegal hd, ifLive_of_live hs] at h
      cases h
      exact ⟨rfl, rfl⟩
    | some j =>
      rw [execWrCmd_of_decode hd] at h
      exact (exec_flagOutcome hs (decodeCommand_ne_wrCmd hd) h).kept_of_fault ht
  · exact (exec_flagOutcome hs (not_exists.1 hi) h).kept_of_fault ht

end

/-- Settles O50: the clauses for a success read off `flagsAfter`; those about reset are `clearBlock`'s. -/
theorem flagsFollowTheirTable : Obligations.FlagsFollowTheirTable := by
  unfold Obligations.FlagsFollowTheirTable
  intro i s t hs h
  refine ⟨exec_fault_keeps_flags hs h, fun ht => ?_, fun u rest hu u' hu' => ?_⟩
  · have row : (∀ v, i ≠ .wrCmd v) →
        FlagNeeded i s ∧ t.codev = (flagsAfter i s).1 ∧ t.dtabv = (flagsAfter i s).2 := fun hi =>
      (exec_flagOutcome hs hi h).row_of_success ht
    refine ⟨?_, ?_, ?_, ?_, ?_, ?_, ?_, ?_⟩
    · rintro (⟨k, v, rfl⟩ | ⟨sym, rfl⟩ | rfl) <;> exact (row nofun).2
    · rintro (⟨k, v, rfl⟩ | ⟨v, rfl⟩ | ⟨v, rfl⟩ | rfl | rfl) <;> exact (row nofun).2
    · rintro (rfl | rfl) <;> exact (row nofun).2
    · rintro rfl
      obtain ⟨hc, hcodev, hdtabv⟩ := row nofun
      exact ⟨hc, hcodev.trans hc, hdtabv⟩
    · rintro rfl
      exact (row nofun).2
    · rintro ⟨sym, rfl⟩
      exact (row nofun).1
    · rintro rfl
      exact (row nofun).1
    · rintro (rfl | rfl | rfl | rfl | rfl | rfl | rfl | rfl | ⟨k, rfl | rfl | rfl | rfl⟩) <;> exact (row nofun).2
  · rw [step_of_reset hu] at hu'
    cases hu'
    exact ⟨rfl, rfl⟩

end Sys2Proof.Machine

/-! PROOFS. The memory map and the bit ports (20_memory.md): values out of range (R67), bad accesses (R68), and what
`SinkPut` appends (R62). -/

namespace Sys2Proof

/-! ## Addresses as numbers -/

theorem region_eq_iff (a : Addr) (r : BitVec 4) : region a = r ↔ a.toNat / 65536 = r.toNat := by
  rw [← region_toNat, BitVec.toNat_inj]

theorem index_eq_iff (a : Addr) (i : BitVec 16) : index a = i ↔ a.toNat % 65536 = i.toNat := by
  rw [← index_toNat, BitVec.toNat_inj]

/-- A read without a row in R87: a register index from 8 on, a slot index from 32768 on, a region from 5 on. -/
theorem decodeRead_eq_none {a : Addr}
    (h : 5 ≤ a.toNat / 65536 ∨ (a.toNat / 65536 = 0 ∧ 8 ≤ a.toNat % 65536) ∨
      (a.toNat / 65536 = 4 ∧ 32768 ≤ a.toNat % 65536)) : decodeRead a = none := by
  unfold decodeRead decodeRegisterRead
  rcases h with hr | ⟨hr, hi⟩ | ⟨hr, hi⟩
  · have hne : ∀ k < 5, a.toNat / 65536 ≠ k := fun k hk => by omega
    simp [region_eq_iff, hne]
  · have hne : ∀ k < 8, a.toNat % 65536 ≠ k := fun k hk => by omega
    simp [region_eq_iff, hr, index_eq_iff, hne]
  · have htop : (index a).getLsbD 15 = true := by
      rw [BitVec.getLsbD, index_toNat, Nat.testBit_eq_decide_div_mod_eq]
      simp only [decide_eq_true_eq]
      omega
    simp [region_eq_iff, hr, htop]

/-- A write without a row in R87: a register that is not `CMD`, `NSYM` or `MAXLEN`, a region from 3 on. -/
theorem decodeWrite_eq_none {a : Addr} (v : Word)
    (h : 3 ≤ a.toNat / 65536 ∨
      (a.toNat / 65536 = 0 ∧ a.toNat % 65536 ≠ 0 ∧ a.toNat % 65536 ≠ 3 ∧ a.toNat % 65536 ≠ 4)) :
    decodeWrite a v = none := by
  unfold decodeWrite decodeRegisterWrite
  rcases h with hr | ⟨hr, hi⟩
  · have hne : ∀ k < 3, a.toNat / 65536 ≠ k := fun k hk => by omega
    simp [region_eq_iff, hne]
  · simp [region_eq_iff, hr, index_eq_iff, hi]

end Sys2Proof

namespace Sys2Proof.Machine

/-! ## Values out of range -/

/-- `v[31:8] = 0` as a bound (R67). -/
theorem legalLen_iff (v : Word) : legalLen v ↔ v.toNat / 256 = 0 := by
  have := v.isLt
  rw [legalLen, ← BitVec.toNat_inj, BitVec.extractLsb'_toNat, Nat.shiftRight_eq_div_pow,
    BitVec.ofNat_eq_ofNat, BitVec.toNat_zero]
  omega

section
variable {p q : Prop} [Decidable p] [Decidable q] {s : State}

theorem checkedWrite_of_legal (hs : s.err = 0) (hp : p) (hq : q) (a : Addr) (v : Word) (t : State) :
    checkedWrite p q a v s t = t := by
  rw [checkedWrite, ifLive_of_live hs, if_pos hp, if_pos hq]

theorem checkedWrite_of_illegal (hs : s.err = 0) (hp : p) (hq : ¬q) (a : Addr) (v : Word) (t : State) :
    checkedWrite p q a v s t = raise .invalidConfig v s := by
  rw [checkedWrite, ifLive_of_live hs, if_pos hp, if_neg hq]

end

/-- Settles O15: each checked write is live and mapped, so its value decides; `WR CMD` runs or refuses its word. -/
theorem outOfRangeValueIsInvalidConfig : Obligations.OutOfRangeValueIsInvalidConfig := by
  unfold Obligations.OutOfRangeValueIsInvalidConfig
  intro s v hs
  refine ⟨fun i hi hv => ?_, fun hv => ?_, fun hv => ?_, fun i hi => ⟨s.weight.write i.toNat v, ?_⟩,
    fun i hd => execWrCmd_of_decode hd s, fun hd => ?_⟩
  · exact congrArg Host.Outcome.next (checkedWrite_of_illegal hs hi (mt (legalLen_iff v).1 hv) ..)
  · exact congrArg Host.Outcome.next (checkedWrite_of_illegal hs trivial (not_le.2 hv) ..)
  · have hbad : ¬legalMaxlen v := by
      unfold legalMaxlen Config.maxlenCap
      omega
    exact congrArg Host.Outcome.next (checkedWrite_of_illegal hs trivial hbad ..)
  · exact congrArg Host.Outcome.next (checkedWrite_of_legal hs hi trivial ..)
  · exact (execWrCmd_of_illegal hd s).trans (congrArg Host.Outcome.next (ifLive_of_live hs))

/-! ## Bad accesses -/

/-- The addresses a host read finds no element at (R66, R68). -/
def UnmappedRead (a : Addr) : Prop :=
  5 ≤ a.toNat / 65536 ∨ (a.toNat / 65536 = 0 ∧ 8 ≤ a.toNat % 65536) ∨
    ((a.toNat / 65536 = 1 ∨ a.toNat / 65536 = 2 ∨ a.toNat / 65536 = 3) ∧ Config.nCap ≤ a.toNat % 65536) ∨
    (a.toNat / 65536 = 4 ∧ 32768 ≤ a.toNat % 65536)

/-- The addresses a host write finds no writable element at: those of `CODE` and `DTAB`, of the read-only registers, and
those that are not mapped (R66, R68). -/
def UnmappedWrite (a : Addr) : Prop :=
  3 ≤ a.toNat / 65536 ∨
    (a.toNat / 65536 = 0 ∧ a.toNat % 65536 ≠ 0 ∧ a.toNat % 65536 ≠ 3 ∧ a.toNat % 65536 ≠ 4) ∨
    ((a.toNat / 65536 = 1 ∨ a.toNat / 65536 = 2) ∧ Config.nCap ≤ a.toNat % 65536)

theorem not_inTable_index {a : Addr} (h : Config.nCap ≤ a.toNat % 65536) : ¬inTable (index a) := by
  rw [inTable, index_toNat]
  omega

/-- A table read whose index is not mapped is a bad read of the address the host gave. -/
theorem tableRead_of_unmapped {p : Prop} [Decidable p] (hp : ¬p) {a : Addr} {r : BitVec 4} (hr : region a = r)
    (w : Word) (s : State) : tableRead p (addr r (index a)) w s = badRead a s := by
  rw [tableRead, if_neg hp, ← hr, addr_region_index]

/-- A table write whose index is not mapped is a bad write of the address the host gave. -/
theorem checkedWrite_of_unmapped {p q : Prop} [Decidable p] [Decidable q] (hp : ¬p) {a : Addr} {r : BitVec 4}
    (hr : region a = r) (v : Word) (s t : State) : checkedWrite p q (addr r (index a)) v s t = badWrite a s := by
  rw [checkedWrite, if_neg hp, ← hr, addr_region_index, badWrite]

section
variable {s : State} {a : Addr} {rest : List HostEvent}

/-- A read of an unmapped address is a bad read (R68, R160): it has no row in R87, or its table has no such index. -/
theorem step_of_unmappedRead (h : s.script = .op (.read a) :: rest) (ha : UnmappedRead a) :
    step s = .next (badRead a (setScript rest s)) := by
  rcases ha with hr | hr | ⟨hr | hr | hr, hi⟩ | hr
  · exact step_of_bad h (decodeRead_eq_none (.inl hr))
  · exact step_of_bad h (decodeRead_eq_none (.inr (.inl hr)))
  · have hreg : region a = 1 := (region_eq_iff a 1).2 hr
    rw [step_of_decode h (i := .rdWeight (index a)) (by simp [decodeHostOp, decodeRead, hreg])]
    exact congrArg Host.Outcome.next (tableRead_of_unmapped (not_inTable_index hi) hreg ..)
  · have hreg : region a = 2 := (region_eq_iff a 2).2 hr
    rw [step_of_decode h (i := .rdLen (index a)) (by simp [decodeHostOp, decodeRead, hreg])]
    exact congrArg Host.Outcome.next (tableRead_of_unmapped (not_inTable_index hi) hreg ..)
  · have hreg : region a = 3 := (region_eq_iff a 3).2 hr
    rw [step_of_decode h (i := .rdCode (index a)) (by simp [decodeHostOp, decodeRead, hreg])]
    exact congrArg Host.Outcome.next (tableRead_of_unmapped (not_inTable_index hi) hreg ..)
  · exact step_of_bad h (decodeRead_eq_none (.inr (.inr hr)))

/-- A write to an address with no writable element is a bad write (R68, R161), whatever the value. -/
theorem step_of_unmappedWrite {v : Word} (h : s.script = .op (.write a v) :: rest) (ha : UnmappedWrite a) :
    step s = .next (badWrite a (setScript rest s)) := by
  rcases ha with hr | hr | ⟨hr | hr, hi⟩
  · exact step_of_bad h (decodeWrite_eq_none v (.inl hr))
  · exact step_of_bad h (decodeWrite_eq_none v (.inr hr))
  · have hreg : region a = 1 := (region_eq_iff a 1).2 hr
    rw [step_of_decode h (i := .wrWeight (index a) v) (by simp [decodeHostOp, decodeWrite, hreg])]
    exact congrArg Host.Outcome.next (checkedWrite_of_unmapped (not_inTable_index hi) hreg ..)
  · have hreg : region a = 2 := (region_eq_iff a 2).2 hr
    rw [step_of_decode h (i := .wrLen (index a) v) (by simp [decodeHostOp, decodeWrite, hreg])]
    exact congrArg Host.Outcome.next (checkedWrite_of_unmapped (not_inTable_index hi) hreg ..)

end

/-- A bad write in a live block raises `BadAccess` (R68). -/
theorem badWrite_of_live {s : State} (hs : s.err = 0) (a : Addr) :
    badWrite a s = raise .badAccess (a.zeroExtend 32) s := by
  rw [badWrite, ifLive_of_live hs]

/-- Settles O16: every bad access of R68 is an unmapped read or write; a read of `CMD` is the row `RD CMD`. -/
theorem badAccessIsAFault : Obligations.BadAccessIsAFault := by
  unfold Obligations.BadAccessIsAFault
  rintro s a rest r i hs rfl rfl
  refine ⟨fun h => ⟨fun hbad => ?_, ?_⟩, fun v h hbad => ?_⟩
  · rw [step_of_unmappedRead h hbad, badRead_of_live (s := setScript rest s) hs]
    rfl
  · rintro rfl
    exact step_of_decode h (i := .rdCmd) rfl
  · have ha : UnmappedWrite a := by
      unfold UnmappedWrite
      omega
    rw [step_of_unmappedWrite h ha, badWrite_of_live (s := setScript rest s) hs]
    rfl

/-! ## The sink -/

/-- The `k`-th of the `l` low bits, most significant first, is bit `l - 1 - k` (R6, R62). -/
theorem getElem_bitsMsbFirst (l v k : Nat) (h : k < (bitsMsbFirst l v).length) :
    (bitsMsbFirst l v)[k] = v.testBit (l - 1 - k) := by
  simp [bitsMsbFirst]

/-- Bits from `l` on are not among the `l` low ones (R62). -/
theorem bitsMsbFirst_mod (l v : Nat) : bitsMsbFirst l (v % 2 ^ l) = bitsMsbFirst l v := by
  have := bitsMsbFirst_bitsValue (bitsMsbFirst l v)
  rwa [length_bitsMsbFirst, bitsValue_bitsMsbFirst] at this

/-- Settles O39: what is appended is `bitsMsbFirst L v`, for every `L`. -/
theorem sinkPutAppendsLowBitsMsbFirst : Obligations.SinkPutAppendsLowBitsMsbFirst := by
  unfold Obligations.SinkPutAppendsLowBitsMsbFirst
  intro l v s _ _
  refine ⟨bitsMsbFirst l v, rfl, length_bitsMsbFirst l v, getElem_bitsMsbFirst l v, ?_⟩
  rw [sinkPut, sinkPut, bitsMsbFirst_mod]

end Sys2Proof.Machine

/-! PROOFS. The command words (30_encoding.md): the rows of R83, and what an illegal word is and does (R84, R174). -/

namespace Sys2Proof

/-! ## The rows -/

/-- A command's word decodes to it (R83). -/
theorem decodeCommand_of_encode {i : Instr} {w : Word} (h : encode i = .command w) : decodeCommand w = some i := by
  cases i with
  | enc sym => cases h; simp [decodeCommand]
  | hlb | cca | hdt | encb | decb | dec | clr => cases h; decide
  | _ => cases h

/-- The word of a row is the only one that decodes to its command (R83). -/
theorem decodeCommand_eq_some_iff {w : Word} {i : Instr} : decodeCommand w = some i ↔ encode i = .command w :=
  ⟨fun h => (Laws.EncodingUnique.decodeCommand_encode h).symm, decodeCommand_of_encode⟩

/-- A mask of all 32 bits leaves nothing free. -/
theorem and_fullMask (w : Word) : w &&& 0xFFFFFFFF = w := BitVec.and_allOnes

theorem and_lowMask_toNat (w : Word) : (w &&& 0x0000FFFF).toNat = w.toNat % 65536 := by
  rw [BitVec.toNat_and]
  exact Nat.and_two_pow_sub_one_eq_mod w.toNat 16

/-- A row without operand: its masked bits are the whole word. -/
theorem decodeCommand_eq_some_iff_fullMask {w v : Word} {i : Instr} (hi : encode i = .command v) :
    decodeCommand w = some i ↔ w &&& 0xFFFFFFFF = v := by
  rw [decodeCommand_eq_some_iff, hi, and_fullMask, Encoding.command.injEq, eq_comm]

/-- The row of `ENC`: its masked bits are the low half, the symbol is the high one. -/
theorem decodeCommand_eq_some_enc_iff {w : Word} {sym : BitVec 16} :
    decodeCommand w = some (.enc sym) ↔ w &&& 0x0000FFFF = 0x00000006 ∧ sym.toNat = w.toNat / 2 ^ 16 := by
  rw [decodeCommand_eq_some_iff, encode, Encoding.command.injEq, ← BitVec.toNat_inj, commandWord_toNat,
    ← BitVec.toNat_inj, and_lowMask_toNat]
  simp only [BitVec.ofNat_eq_ofNat, BitVec.toNat_ofNat]
  omega

/-- The row's mask covers the low half of the word, and so do the bits it asks for. -/
def CoversLowHalf (row : Word × Word) : Prop := row.2 &&& 0x0000FFFF = 0x0000FFFF ∧ row.1 &&& 0x0000FFFF = row.1

/-- A word that matches such a row has the row's bits for its low half. -/
theorem CoversLowHalf.low_of_match {row : Word × Word} (hr : CoversLowHalf row) {w : Word} (h : w &&& row.2 = row.1) :
    w &&& 0x0000FFFF = row.1 := by
  obtain ⟨hmask, hbits⟩ := hr
  rw [← hmask, ← BitVec.and_assoc, h, hbits]

/-- Two such rows that ask for different bits match no common word. -/
theorem CoversLowHalf.disjoint {a b : Word × Word} (ha : CoversLowHalf a) (hb : CoversLowHalf b) (hab : a.1 ≠ b.1)
    (w : Word) : ¬(w &&& a.2 = a.1 ∧ w &&& b.2 = b.1) :=
  fun ⟨hwa, hwb⟩ => hab ((ha.low_of_match hwa).symm.trans (hb.low_of_match hwb))

/-- Settles O2: a row decodes exactly its own word, and the low half of a word tells the eight rows apart. -/
theorem commandWordMatchesItsRow : Obligations.CommandWordMatchesItsRow := by
  unfold Obligations.CommandWordMatchesItsRow
  intro w
  refine ⟨decodeCommand_eq_some_iff_fullMask rfl, decodeCommand_eq_some_iff_fullMask rfl,
    decodeCommand_eq_some_iff_fullMask rfl, decodeCommand_eq_some_iff_fullMask rfl,
    decodeCommand_eq_some_iff_fullMask rfl, fun _ => decodeCommand_eq_some_enc_iff,
    decodeCommand_eq_some_iff_fullMask rfl, decodeCommand_eq_some_iff_fullMask rfl, ?_⟩
  refine List.Pairwise.imp (R := fun a b => CoversLowHalf a ∧ CoversLowHalf b ∧ a.1 ≠ b.1)
    (fun ⟨ha, hb, hab⟩ => ha.disjoint hb hab w) ?_
  unfold CoversLowHalf
  decide

/-! ## Illegal words -/

theorem opField_eq_iff (w : Word) (op : BitVec 8) : opField w = op ↔ w.toNat % 256 = op.toNat := by
  rw [← opField_toNat, BitVec.toNat_inj]

theorem zeroField_eq_iff (w : Word) (z : BitVec 8) : zeroField w = z ↔ w.toNat / 256 % 256 = z.toNat := by
  rw [← zeroField_toNat, BitVec.toNat_inj]

/-- A command without operand has nothing in `sym` (R84). -/
theorem noOperand_eq_none_iff (w : Word) (i : Instr) : noOperand w i = none ↔ w.toNat / 65536 ≠ 0 := by
  rw [noOperand, ite_eq_right_iff, ← symField_toNat, ← BitVec.toNat_inj]
  simp

/-- R84, R85: an `op` outside 1 to 8, or a field that must be zero and is not. -/
theorem decodeCommand_eq_none_iff (w : Word) :
    decodeCommand w = none ↔
      w.toNat % 256 = 0 ∨ 9 ≤ w.toNat % 256 ∨ w.toNat / 256 % 256 ≠ 0 ∨ (w.toNat % 256 ≠ 6 ∧ w.toNat / 65536 ≠ 0) := by
  simp only [decodeCommand, ne_eq, zeroField_eq_iff, opField_eq_iff, BitVec.ofNat_eq_ofNat,
    BitVec.toNat_ofNat]
  split_ifs <;> simp only [noOperand_eq_none_iff, true_iff, false_iff] <;> omega

end Sys2Proof

namespace Sys2Proof.Machine

/-- Settles O3: the branches of `decodeCommand` as numbers, and `WR CMD` of a word it refuses. -/
theorem illegalWordIsAFault : Obligations.IllegalWordIsAFault := by
  unfold Obligations.IllegalWordIsAFault
  refine fun w => ⟨decodeCommand_eq_none_iff w, fun hd s => ⟨fun hs => ?_, fun hs => ?_⟩⟩
  · exact (execWrCmd_of_illegal hd s).trans (congrArg Host.Outcome.next (ifLive_of_live hs))
  · exact (execWrCmd_of_illegal hd s).trans (congrArg Host.Outcome.next (ifLive_of_faulted hs))

end Sys2Proof.Machine

/-! PROOFS. The length builder (40_length_builder.md): whose depths an attempt records (R103, R105, R106), the first attempt
that fits (R107, R108), and what `HLB` commits (R100, R101). -/

namespace Sys2Proof.Machine

/-! ## The symbols of a tree -/

/-- The symbols of the leaves below a node, left to right. -/
def leafSymbols : Node → List Nat
  | .leaf i _ => [i]
  | .internal _ _ c0 c1 => leafSymbols c0 ++ leafSymbols c1

/-- The depths are recorded leaf by leaf (R106). -/
theorem map_fst_leafDepths (n : Node) (d : Nat) : (leafDepths n d).map Prod.fst = leafSymbols n := by
  induction n generalizing d with
  | leaf i w => rfl
  | internal k w a b iha ihb => rw [leafDepths, List.map_append, iha, ihb, leafSymbols]

/-- Merging loses no leaf and makes none (R105): the root's are those of the queue. -/
theorem leafSymbols_mergeNodes_perm (k : Nat) (n : Node) (q : List Node) :
    (leafSymbols (mergeNodes q.length k n q)).Perm ((n :: q).flatMap leafSymbols) := by
  induction hq : q.length generalizing k n q with
  | zero =>
    rw [List.length_eq_zero_iff.1 hq]
    simp [mergeNodes]
  | succ fuel ih =>
    obtain ⟨m, q, rfl⟩ := List.exists_cons_of_length_eq_add_one hq
    obtain ⟨a, b, rest1, c, rest2, h1, h2, hl, hm⟩ := mergeNodes_succ fuel k n m q
    have p1 : (a :: c :: rest1).Perm (n :: m :: q) := by simpa only [h1] using extractFirst_perm n (m :: q)
    have p2 : (b :: rest2).Perm (c :: rest1) := by simpa only [h2] using extractFirst_perm c rest1
    rw [hm]
    refine (ih _ _ rest2 (hl.trans (Nat.succ.inj hq))).trans ?_
    calc (Node.internal k (nodeWeight a + nodeWeight b) a b :: rest2).flatMap leafSymbols
        = (a :: b :: rest2).flatMap leafSymbols := by simp [leafSymbols]
      List.Perm _ ((n :: m :: q).flatMap leafSymbols) := ((p2.cons a).trans p1).flatMap_right _

/-- An attempt records one depth for every active symbol (R103, R106). -/
theorem map_fst_attempt_perm (act : List Nat) (weight : Memory 32) (k : Nat) :
    ((attempt act weight k).map Prod.fst).Perm act := by
  have hleaves : (attemptLeaves act weight k).flatMap leafSymbols = act := by
    simp [attemptLeaves, List.flatMap_map, leafSymbols]
  rw [attempt]
  split
  · next h =>
    rw [← hleaves, h]
    simp
  · next n rest h =>
    rw [h] at hleaves
    rw [map_fst_leafDepths]
    exact (leafSymbols_mergeNodes_perm 0 n rest).trans (.of_eq hleaves)

/-! ## The first attempt that fits -/

theorem fits_iff {m : Nat} {d : List (Nat × Nat)} : fits m d = true ↔ ∀ p ∈ d, p.2 ≤ m := by
  simp only [fits, List.all_eq_true, decide_eq_true_eq]

theorem fits_eq_false_iff {m : Nat} {d : List (Nat × Nat)} : fits m d = false ↔ ∃ p ∈ d, m < p.2 := by
  simp only [← Bool.not_eq_true, fits_iff, not_forall, not_le, exists_prop]

/-- The retry loop takes the first exponent whose attempt fits, if it is among those it tries (R108). -/
theorem retryFrom_of_first {act : List Nat} {weight : Memory 32} {m fuel k : Nat} (hk : k < fuel)
    (hfit : fits m (attempt act weight k) = true) (hfirst : ∀ j < k, fits m (attempt act weight j) = false) :
    retryFrom act weight m fuel 0 = some (attempt act weight k, k) := by
  cases hr : retryFrom act weight m fuel 0 with
  | none => exact absurd hfit (by simp [retryFrom_eq_none.1 hr k (Nat.zero_le k) (by omega)])
  | some p =>
    obtain ⟨d, j⟩ := p
    obtain ⟨-, -, rfl, hj, hjfirst⟩ := retryFrom_eq_some hr
    rcases Nat.lt_trichotomy j k with h | rfl | h
    · exact absurd hj (by simp [hfirst j h])
    · rfl
    · exact absurd hfit (by simp [hjfirst k (Nat.zero_le k) h])

/-! ## What `HLB` computes -/

section
variable {n m : Nat} {weight : Memory 32}

theorem buildLengths_of_nil (h : activeSymbols n weight = []) : buildLengths n m weight = .ok ([], 0) := by
  rw [buildLengths, h]

theorem buildLengths_of_singleton {a : Nat} (h : activeSymbols n weight = [a]) :
    buildLengths n m weight = .ok (lengthTable [(a, 1)], 0) := by
  rw [buildLengths, h]

/-- With two or more active symbols, the outcome of the retry loop decides (R108). -/
theorem buildLengths_of_some (h : 2 ≤ (activeSymbols n weight).length) {d : List (Nat × Nat)} {k : Nat}
    (hr : retryFrom (activeSymbols n weight) weight m 33 0 = some (d, k)) :
    buildLengths n m weight = .ok (lengthTable d, k) := by
  rcases buildLengths_cases n m weight with ⟨h0, -⟩ | ⟨a, h1, -⟩ | ⟨-, d', k', hr', e⟩ | ⟨-, hr', -⟩
  · simp [h0] at h
  · simp [h1] at h
  · cases hr.symm.trans hr'
    exact e
  · cases hr.symm.trans hr'

theorem buildLengths_of_none (h : 2 ≤ (activeSymbols n weight).length)
    (hr : retryFrom (activeSymbols n weight) weight m 33 0 = none) :
    buildLengths n m weight = .error (activeSymbols n weight).length := by
  rcases buildLengths_cases n m weight with ⟨h0, -⟩ | ⟨a, h1, -⟩ | ⟨-, d', k', hr', -⟩ | ⟨-, -, e⟩
  · simp [h0] at h
  · simp [h1] at h
  · cases hr.symm.trans hr'
  · exact e

end

/-! ## What `HLB` commits -/

section
variable {s : State} (hs : s.err = 0)
include hs

theorem exec_hlb_of_ok {t : Memory 8} {sh : Nat}
    (hb : buildLengths s.nsym.toNat s.maxlen.toNat s.weight = .ok (t, sh)) :
    exec .hlb s = .next { s with
      len := Memory.replaceBelow (npad s) t s.len, shrink := BitVec.ofNat 6 sh, codev := false, dtabv := false } := by
  change Host.Outcome.next (ifLive s (lengthEffect s)) = _
  rw [ifLive_of_live hs, lengthEffect, hb]
  rfl

theorem exec_hlb_of_error {a : Nat} (hb : buildLengths s.nsym.toNat s.maxlen.toNat s.weight = .error a) :
    exec .hlb s = .next { s with err := 5, errinfo := BitVec.ofNat 32 a } := by
  change Host.Outcome.next (ifLive s (lengthEffect s)) = _
  rw [ifLive_of_live hs, lengthEffect, hb]
  rfl

end

/-- An active symbol has an entry in the part of LEN that `HLB` writes (R28). -/
theorem lt_npad_of_mem_activeSymbols {s : State} {i : Nat} (hi : i ∈ activeSymbols s.nsym.toNat s.weight) :
    i < npad s := by
  have := (mem_activeSymbols.1 hi).1
  unfold npad
  omega

/-- The length table of one symbol (R101). -/
theorem read_lengthTable_singleton (a i : Nat) : (lengthTable [(a, 1)]).read i = if i = a then 1 else 0 := by
  obtain ⟨hin, hout⟩ := read_lengthTable (d := [(a, 1)]) (by simp) i
  split_ifs with h
  · exact hin 1 (by simp [h])
  · exact hout (by simpa using h)

/-- A recorded depth that fits in a word of LEN is the symbol's length, not cut off (R33). -/
theorem toNat_read_lengthTable {d : List (Nat × Nat)} (hd : (d.map Prod.fst).Nodup) {i x : Nat} (hx : (i, x) ∈ d)
    (hlt : x < 256) : ((lengthTable d).read i).toNat = x := by
  rw [(read_lengthTable hd i).1 x hx, BitVec.toNat_ofNat, Nat.mod_eq_of_lt hlt]

/-- Settles O25: `buildLengths` in each of its four cases, and LEN read through the commit. -/
theorem hlbTakesTheFirstFittingAttempt : Obligations.HlbTakesTheFirstFittingAttempt := by
  unfold Obligations.HlbTakesTheFirstFittingAttempt
  rintro s _ hs rfl
  refine ⟨fun h => ?_, fun a h => ?_, fun h2 k hk hfit hfirst => ?_, fun h2 hnone => ?_⟩
  · exact ⟨_, exec_hlb_of_ok hs (buildLengths_of_nil h), Memory.read_replaceBelow _ _ _⟩
  · refine ⟨_, exec_hlb_of_ok hs (buildLengths_of_singleton h), fun i => ?_⟩
    rw [Memory.read_replaceBelow, read_lengthTable_singleton]
  · have hperm := map_fst_attempt_perm (activeSymbols s.nsym.toNat s.weight) s.weight k
    have hnodup := hperm.nodup_iff.2 (nodup_activeSymbols s.nsym.toNat s.weight)
    have hretry := retryFrom_of_first (fuel := 33) (by omega) (fits_iff.2 hfit)
      fun j hj => fits_eq_false_iff.2 (hfirst j hj)
    refine ⟨_, _, ?_, exec_hlb_of_ok hs (buildLengths_of_some h2 hretry), fun i d hd => ?_, fun i hi hout => ?_,
      fun i hi => ?_⟩
    · rw [BitVec.toNat_ofNat]
      omega
    · have hmem := hperm.mem_iff.1 (List.mem_map_of_mem hd)
      have hle : d ≤ s.maxlen.toNat := hfit _ hd
      rw [Memory.read_replaceBelow, if_pos (lt_npad_of_mem_activeSymbols hmem)]
      exact toNat_read_lengthTable hnodup hd (by omega)
    · rw [Memory.read_replaceBelow, if_pos hi]
      exact (read_lengthTable hnodup i).2 (mt hperm.mem_iff.1 hout)
    · rw [Memory.read_replaceBelow, if_neg (not_lt.2 hi)]
  · refine exec_hlb_of_error hs (buildLengths_of_none h2 (retryFrom_eq_none.2 fun j _ hj => ?_))
    exact fits_eq_false_iff.2 (hnone j (by omega))

end Sys2Proof.Machine

/-! PROOFS. The encoder (43_encoder.md): what a code table that `CCA` computed guarantees (R124), and `ENC` (R141). -/

namespace Sys2Proof.Machine

/-! ## What the two checks of `CCA` guarantee -/

/-- The pairs are taken by length (R121). -/
theorem sortedPairs_pairwise_length (p : Nat) (len : Memory 8) :
    (sortedPairs p len).Pairwise (fun a b => a.1 ≤ b.1) :=
  (sortedPairs_pairwise p len).imp fun hab => by omega

section
variable {p m : Nat} {len : Memory 8} {c : Memory 16} (h : assignCodes p m len = .ok c)
include h

/-- The length bound was checked (R122). -/
theorem length_le_of_assignCodes_ok {i : Nat} (hi : i < p) : (len.read i).toNat ≤ m := by
  rcases assignCodes_cases p m len with ⟨k, -, e⟩ | ⟨ho, -⟩
  · cases h.symm.trans e
  · exact overlong_eq_none.1 ho i hi

theorem assignFrom_of_assignCodes_ok : assignFrom (sortedPairs p len) 0 1 [] = .ok c := by
  rcases assignCodes_cases p m len with ⟨k, -, e⟩ | ⟨-, e⟩
  · cases h.symm.trans e
  · exact e.symm.trans h

theorem sortedPairs_bounds_of_assignCodes_ok : ∀ a ∈ sortedPairs p len, 1 ≤ a.1 ∧ a.1 ≤ m := by
  rintro ⟨l, i⟩ ha
  obtain ⟨hi, hne, rfl⟩ := mem_sortedPairs.1 ha
  exact ⟨Nat.one_le_iff_ne_zero.2 (BitVec.toNat_ne_iff_ne.2 hne), length_le_of_assignCodes_ok h hi⟩

/-- The Kraft sum was checked, pair by pair (R123). -/
theorem kraftScaled_le_of_assignCodes_ok : kraftScaled m p len ≤ 2 ^ m := by
  have hb := sortedPairs_bounds_of_assignCodes_ok h
  by_contra hsum
  rw [← pairSum_sortedPairs] at hsum
  obtain ⟨_, _, i, _, -, e, -⟩ := assignFrom_error (c0 := []) (bits := 0) (cur := 1)
    (sortedPairs_pairwise_length p len) (fun a ha => (hb a ha).1) (fun a ha => (hb a ha).2) (by simp)
    (by simpa using hsum)
  cases (assignFrom_of_assignCodes_ok h).symm.trans e

/-- Each code fits its length (R124, item 2). -/
theorem code_lt_of_assignCodes_ok {i : Nat} (hi : activeIn p len i) :
    (c.read i).toNat < 2 ^ (len.read i).toNat := by
  have hb := sortedPairs_bounds_of_assignCodes_ok h
  have hsum := kraftScaled_le_of_assignCodes_ok h
  rw [← pairSum_sortedPairs] at hsum
  obtain ⟨c', e, -, -, hcode⟩ := assignFrom_ok (bits := 0) (cur := 1) (sortedPairs_pairwise_length p len)
    (sortedPairs_nodup_symbols p len) (fun a ha => (hb a ha).1) (fun a ha => (hb a ha).2) Memory.wf_nil
    (by simpa using hsum)
  cases (assignFrom_of_assignCodes_ok h).symm.trans e
  obtain ⟨pre, post, hsplit⟩ := sortedPairs_split hi
  obtain ⟨b, hread, hlt, -⟩ := hcode pre _ i post hsplit
  rw [hread, BitVec.toNat_ofNat]
  exact (Nat.mod_le _ _).trans_lt hlt

end

/-- In a legal state with `CODEV = 1`, each code fits its length (R40, R124). -/
theorem CodesCurrent.code_lt {s : State} (h : CodesCurrent s) (hc : s.codev = true) {i : Nat}
    (hi : activeIn (npad s) s.len i) : (s.code.read i).toNat < 2 ^ (s.len.read i).toNat := by
  obtain ⟨c, hok, hread⟩ := h hc
  rw [hread i hi.1]
  exact code_lt_of_assignCodes_ok hok hi

/-! ## `ENC` -/

/-- The command word of `ENC sym` as a number (R83). -/
theorem commandWord_eq_ofNat (sym : BitVec 16) (op : BitVec 8) :
    commandWord sym op = BitVec.ofNat 32 (sym.toNat * 65536 + op.toNat) := by
  rw [← commandWord_toNat, BitVec.ofNat_toNat, BitVec.setWidth_eq]

/-- The bits that are put, by index (R62). -/
theorem bitsMsbFirst_eq_map (l v : Nat) : bitsMsbFirst l v = (List.range l).map (fun k => v.testBit (l - 1 - k)) :=
  List.ext_getElem (by simp) fun k hk _ => by simp [getElem_bitsMsbFirst l v k hk]

section
variable {s : State} {sym : BitVec 16} (hs : s.err = 0)
include hs

theorem exec_enc_of_live : exec (.enc sym) s = .next (encodeEffect sym s) := congrArg _ (ifLive_of_live hs)

/-- The first check (R141): the codes are not built. -/
theorem exec_enc_of_notReady (hc : s.codev = false) :
    exec (.enc sym) s = .next { s with err := 4, errinfo := BitVec.ofNat 32 (sym.toNat * 65536 + 6) } := by
  rw [exec_enc_of_live hs]
  rcases encodeEffect_cases sym s with ⟨h, -⟩ | ⟨h, -⟩ | ⟨-, e⟩
  · simp [hc] at h
  · simp [hc] at h
  · rw [e, commandWord_eq_ofNat]
    rfl

/-- The second and the third check (R141): the symbol is outside the table or unused. -/
theorem exec_enc_of_invalid (hc : s.codev = true) (h : npad s ≤ sym.toNat ∨ lenOf s sym = 0) :
    exec (.enc sym) s = .next { s with err := 7, errinfo := BitVec.ofNat 32 sym.toNat } := by
  rw [exec_enc_of_live hs]
  rcases encodeEffect_cases sym s with ⟨-, hlt, hne, -⟩ | ⟨-, -, e⟩ | ⟨h0, -⟩
  · exact absurd h (by omega)
  · rw [e, zeroExtend_eq_ofNat]
    rfl
  · simp [hc] at h0

/-- All checks passed (R141): the codeword is put. -/
theorem exec_enc_of_active (hc : s.codev = true) (hlt : sym.toNat < npad s) (hne : lenOf s sym ≠ 0) :
    exec (.enc sym) s = .next (sinkPut (lenOf s sym) (codeOf s sym) s) := by
  rw [exec_enc_of_live hs]
  rcases encodeEffect_cases sym s with ⟨-, -, -, e⟩ | ⟨-, h, -⟩ | ⟨h0, -⟩
  · rw [e]
  · exact absurd h (by omega)
  · simp [hc] at h0

end

/-- Settles O40: one lemma per outcome of `ENC`; no bit is cut off because the codes are those `CCA` computes. -/
theorem encPutsTheCodeword : Obligations.EncPutsTheCodeword := by
  unfold Obligations.EncPutsTheCodeword
  rintro s sym _ _ hs rfl rfl
  refine ⟨exec_enc_of_notReady hs, fun hc hle => ?_, fun hc _ hl => ?_, fun hc hlt hne => ⟨?_, fun hinv => ?_⟩⟩
  · exact exec_enc_of_invalid hs hc (.inl hle)
  · exact exec_enc_of_invalid hs hc (.inr hl)
  · rw [exec_enc_of_active hs hc hlt hne, sinkPut, bitsMsbFirst_eq_map]
    rfl
  · exact hinv.codes.code_lt hc ⟨hlt, BitVec.toNat_ne_iff_ne.1 hne⟩

end Sys2Proof.Machine

/-! PROOFS. The decoder (44_decoder.md): what a valid slot of a current decode table names (R132), and `DEC` (R151). -/

namespace Sys2Proof.Machine

/-! ## What a valid slot names -/

/-- Every symbol below `NPAD` has a number of 16 bits (R4, R28). -/
theorem npad_le_of_registersLegal {s : State} (h : RegistersLegal s) : npad s ≤ 65536 := by
  obtain ⟨hnsym, -⟩ := h
  have := Config.nCapExtra.isLt
  unfold Config.nCap at hnsym
  unfold npad
  omega

/-- A valid slot of a built table names an active symbol whose range has the slot (R131, R132). -/
theorem covers_slotSym_of_slotValid {p m v : Nat} {len : Memory 8} {code : Memory 16} (hp : p ≤ 65536)
    (h : slotValid ((buildTable p m len code).read v) = true) :
    (slotSym ((buildTable p m len code).read v)).toNat < p ∧
      Covers m len code (slotSym ((buildTable p m len code).read v)).toNat v := by
  rcases read_buildTable_cases p m len code v with ⟨-, hread⟩ | ⟨i, hi, hcov, -, hread⟩
  · rw [hread, slotValid_zero] at h
    cases h
  · have hsym : (BitVec.ofNat 16 i).toNat = i := by
      rw [BitVec.toNat_ofNat, Nat.mod_eq_of_lt (by omega)]
    rw [hread, slotSym_validSlot, hsym]
    exact ⟨hi, hcov⟩

namespace Inv

variable {s : State} (h : Inv s)
include h

/-- R132: while `DTABV = 1`, a valid slot names an active symbol. -/
theorem activeIn_slotSym (hd : s.dtabv = true) {v : Nat} (hv : v < 2 ^ s.maxlen.toNat)
    (hvalid : slotValid (s.dtab.read v) = true) : activeIn (npad s) s.len (slotSym (s.dtab.read v)).toNat := by
  rw [h.table hd v hv] at hvalid ⊢
  obtain ⟨hlt, hne, -⟩ := covers_slotSym_of_slotValid (npad_le_of_registersLegal h.registers) hvalid
  exact ⟨hlt, hne⟩

/-- The decode table is current only while the codes are (R40). -/
theorem codev_of_dtabv (hd : s.dtabv = true) : s.codev = true := by
  obtain ⟨-, -, -, -, -, hflags⟩ := h.registers
  exact hflags hd

/-- While `CODEV = 1`, the length of an active symbol passed the check of `CCA` (R40, R122). -/
theorem length_bounds_of_active (hc : s.codev = true) {i : Nat} (hi : activeIn (npad s) s.len i) :
    1 ≤ (s.len.read i).toNat ∧ (s.len.read i).toNat ≤ s.maxlen.toNat := by
  obtain ⟨hlt, hne⟩ := hi
  obtain ⟨c, hok, -⟩ := h.codes hc
  exact ⟨Nat.one_le_iff_ne_zero.2 (BitVec.toNat_ne_iff_ne.2 hne), length_le_of_assignCodes_ok hok hlt⟩

end Inv

/-! ## `DEC` -/

section
variable {s : State} (hs : s.err = 0)
include hs

theorem exec_dec_of_live : exec .dec s = .next (decodeEffect s) := congrArg _ (ifLive_of_live hs)

/-- The first check (R151): the decode table is not built. -/
theorem exec_dec_of_notReady (hd : s.dtabv = false) :
    exec .dec s = .next { s with err := 4, errinfo := 0x00000007 } := by
  rw [exec_dec_of_live hs]
  rcases decodeEffect_cases s with ⟨h, -⟩ | ⟨h, -⟩ | ⟨h, -⟩ | ⟨-, e⟩
  · simp [hd] at h
  · simp [hd] at h
  · simp [hd] at h
  · rw [e]
    rfl

section
variable (hd : s.dtabv = true)
include hd

/-- The second check (R151, R153): too few bits to peek. -/
theorem exec_dec_of_truncated (hav : avail s < s.maxlen.toNat) :
    exec .dec s = .next { s with err := 8, errinfo := BitVec.ofNat 32 (avail s) } := by
  rw [exec_dec_of_live hs]
  rcases decodeEffect_cases s with ⟨-, h, -⟩ | ⟨-, h, -⟩ | ⟨-, -, e⟩ | ⟨h, -⟩
  · omega
  · omega
  · rw [e]
    rfl
  · simp [hd] at h

/-- The third check (R151, R152): no codeword reaches the slot. -/
theorem exec_dec_of_invalid (hav : s.maxlen.toNat ≤ avail s) (hv : slotValid (peekedSlot s) = false) :
    exec .dec s = .next { s with err := 9, errinfo := BitVec.ofNat 32 (srcPeek s.maxlen.toNat s) } := by
  rw [exec_dec_of_live hs]
  rcases decodeEffect_cases s with ⟨-, -, h, -⟩ | ⟨-, -, -, e⟩ | ⟨-, h, -⟩ | ⟨h, -⟩
  · simp [hv] at h
  · rw [e]
    rfl
  · omega
  · simp [hd] at h

/-- All checks passed (R151): the slot's symbol is the result and its length is skipped. -/
theorem exec_dec_of_valid (hav : s.maxlen.toNat ≤ avail s) (hv : slotValid (peekedSlot s) = true) :
    exec .dec s = .next { s with
      srcpos := s.srcpos + lenOf s (slotSym (peekedSlot s)), result := slotSym (peekedSlot s) } := by
  rw [exec_dec_of_live hs]
  rcases decodeEffect_cases s with ⟨-, -, -, e⟩ | ⟨-, -, h, -⟩ | ⟨-, h, -⟩ | ⟨h, -⟩
  · rw [e]
    rfl
  · simp [hv] at h
  · omega
  · simp [hd] at h

end

end

/-- Settles O44: one lemma per outcome of `DEC`; the length skipped is in bounds because a valid slot names an active
symbol. -/
theorem decLooksUpAndSkips : Obligations.DecLooksUpAndSkips := by
  unfold Obligations.DecLooksUpAndSkips
  rintro s _ _ _ _ hs rfl rfl rfl rfl
  refine ⟨exec_dec_of_notReady hs, exec_dec_of_truncated hs, exec_dec_of_invalid hs, fun hd hav hv => ?_⟩
  refine ⟨exec_dec_of_valid hs hd hav hv, fun hinv => ?_⟩
  obtain ⟨hpos, hle⟩ :=
    hinv.length_bounds_of_active (hinv.codev_of_dtabv hd) (hinv.activeIn_slotSym hd srcPeek_lt hv)
  exact ⟨hpos, hle, by omega⟩

end Sys2Proof.Machine

/-! PROOFS. Host access (45_host_access_and_control.md): what a read of an address returns (R160) and what a write to it does
(R161), in a live and in a faulted block (R186). -/

namespace Sys2Proof

/-- The depth of `WEIGHT`, `LEN` and `CODE` is at most the size of a region (R4, R66). -/
theorem nCap_le : Config.nCap ≤ 65536 := by
  unfold Config.nCap
  omega

/-- A read in region 0 is decoded by its index alone (R87). -/
theorem decodeRead_of_register {a : Addr} {k : BitVec 16} (hr : a.toNat / 65536 = 0) (hk : (index a).toNat = k.toNat) :
    decodeRead a = decodeRegisterRead k := by
  rw [decodeRead, if_pos ((region_eq_iff a 0).2 hr), BitVec.eq_of_toNat_eq hk]

/-- Every slot index below 32768 is a row (R87). -/
theorem decodeRead_of_slot {a : Addr} (hr : a.toNat / 65536 = 4) (hi : (index a).toNat < 32768) :
    decodeRead a = some (.rdDtab (index a)) := by
  have htop : (index a).getLsbD 15 = false := Nat.testBit_lt_two_pow hi
  simp only [decodeRead, region_eq_iff, hr, htop]
  rfl

end Sys2Proof

namespace Sys2Proof.Machine

/-! ## Reads -/

/-- `STATUS` as the port's map writes it (R25, R160). -/
theorem statusWord_eq_ofNat (s : State) :
    statusWord s = BitVec.ofNat 32 (s.err.toNat * 256 + s.dtabv.toNat * 2 + s.codev.toNat) := by
  have hsum : s.err.toNat * 256 + s.dtabv.toNat * 2 + s.codev.toNat = (statusWord s).toNat := by
    rw [statusWord_toNat]
    omega
  rw [hsum, BitVec.ofNat_toNat, BitVec.setWidth_eq]

section
variable {s : State} {i : BitVec 16}

/-- A read of an index of `WEIGHT` returns the word, in every state (R32, R160). -/
theorem exec_rdWeight_of_inTable (hi : inTable i) : exec (.rdWeight i) s = .next (reply (s.weight.read i.toNat) s) :=
  congrArg _ (if_pos hi)

/-- A read of an index of `LEN` returns the word, in every state (R33, R160). -/
theorem exec_rdLen_of_inTable (hi : inTable i) :
    exec (.rdLen i) s = .next (reply (BitVec.ofNat 32 (s.len.read i.toNat).toNat) s) := by
  rw [← zeroExtend_eq_ofNat]
  exact congrArg _ (if_pos hi)

/-- A read of an index of `CODE` returns the word, in every state (R34, R160). -/
theorem exec_rdCode_of_inTable (hi : inTable i) :
    exec (.rdCode i) s = .next (reply (BitVec.ofNat 32 (s.code.read i.toNat).toNat) s) := by
  rw [← zeroExtend_eq_ofNat]
  exact congrArg _ (if_pos hi)

/-- A read of a slot of `DTAB` returns the slot, in every state (R35, R160). -/
theorem exec_rdDtab_of_inDtab (hi : inDtab i) :
    exec (.rdDtab i) s = .next (reply (BitVec.ofNat 32 (s.dtab.read i.toNat).toNat) s) := by
  rw [← zeroExtend_eq_ofNat]
  exact congrArg _ (if_pos hi)

end

section
variable {s : State} {a : Addr} {rest : List HostEvent}

/-- The map leaves no element out but those R68 lists (R66). -/
theorem unmappedRead_of_portValue (h : portValue s a = none) : UnmappedRead a := by
  simp only [portValue] at h
  unfold UnmappedRead
  split_ifs at h <;> omega

/-- An address with a value is a row of R87, and the row's read returns the value in every state (R160). -/
theorem exists_readRow_of_portValue {w : Word} (h : portValue s a = some w) :
    ∃ i, decodeRead a = some i ∧ exec i s = .next (reply w s) := by
  simp only [portValue, ← index_toNat] at h
  split_ifs at h with hr hi hi hi hi hi hi hi hi hr hi hr hi hr hi hr hi <;> obtain rfl := Option.some.inj h
  · exact ⟨.rdCmd, decodeRead_of_register (k := 0) hr hi, rfl⟩
  · exact ⟨.rdStatus, decodeRead_of_register (k := 1) hr hi, by rw [← statusWord_eq_ofNat]; rfl⟩
  · exact ⟨.rdErrinfo, decodeRead_of_register (k := 2) hr hi, rfl⟩
  · exact ⟨.rdNsym, decodeRead_of_register (k := 3) hr hi, by rw [← zeroExtend_eq_ofNat]; rfl⟩
  · exact ⟨.rdMaxlen, decodeRead_of_register (k := 4) hr hi, by rw [← zeroExtend_eq_ofNat]; rfl⟩
  · exact ⟨.rdNpad, decodeRead_of_register (k := 5) hr hi, rfl⟩
  · exact ⟨.rdShrink, decodeRead_of_register (k := 6) hr hi, by rw [← zeroExtend_eq_ofNat]; rfl⟩
  · exact ⟨.rdResult, decodeRead_of_register (k := 7) hr hi, by rw [← zeroExtend_eq_ofNat]; rfl⟩
  · exact ⟨.rdWeight (index a), by simp [decodeRead, region_eq_iff, hr], exec_rdWeight_of_inTable hi⟩
  · exact ⟨.rdLen (index a), by simp [decodeRead, region_eq_iff, hr], exec_rdLen_of_inTable hi⟩
  · exact ⟨.rdCode (index a), by simp [decodeRead, region_eq_iff, hr], exec_rdCode_of_inTable hi⟩
  · exact ⟨.rdDtab (index a), decodeRead_of_slot hr hi, exec_rdDtab_of_inDtab hi⟩

/-- A read of a mapped address returns its value and changes nothing else, in the faulted block too (R160). -/
theorem step_of_portValue_some {w : Word} (h : s.script = .op (.read a) :: rest) (hw : portValue s a = some w) :
    step s = .next (reply w (setScript rest s)) := by
  obtain ⟨i, hd, he⟩ := exists_readRow_of_portValue (s := setScript rest s) hw
  exact (step_of_decode h hd).trans he

/-- A read of an address with no element is a bad read (R160). -/
theorem step_of_portValue_none (h : s.script = .op (.read a) :: rest) (hw : portValue s a = none) :
    step s = .next (badRead a (setScript rest s)) :=
  step_of_unmappedRead h (unmappedRead_of_portValue hw)

end

/-- A bad read in a faulted block returns 0 and raises nothing (R160, R186). -/
theorem badRead_of_faulted {s : State} (hs : s.err ≠ 0) (a : Addr) : badRead a s = reply 0 s := by
  rw [badRead, ifLive_of_faulted hs]

/-- Settles O9: a mapped address has a row whose read returns the map's word; elsewhere the read is a bad one. -/
theorem readReturnsThePortValue : Obligations.ReadReturnsThePortValue := by
  unfold Obligations.ReadReturnsThePortValue
  refine fun s a rest h => ⟨fun w hw => step_of_portValue_some h hw, fun hw hs => ?_, fun hw hs => ?_⟩
  · rw [step_of_portValue_none h hw, badRead_of_faulted (s := setScript rest s) hs]
    rfl
  · rw [step_of_portValue_none h hw, badRead_of_live (s := setScript rest s) hs, zeroExtend_eq_ofNat]
    rfl

/-! ## Writes -/

section
variable {s : State} {a : Addr} {v : Word} {rest : List HostEvent}

/-- In the faulted block every row of R87 with `rw = 1` is ignored, unless it writes the `CLR` word to `CMD` (R186). -/
theorem exec_write_of_faulted {i : Instr} (hi : .hostOp (.write a v) = encode i) (hs : s.err ≠ 0)
    (hne : ¬(a = 0 ∧ v = 8)) : exec i s = .next s := by
  cases i with
  | wrCmd => cases hi; exact execWrCmd_of_faulted hs fun hv => hne ⟨rfl, hv⟩
  | wrNsym | wrMaxlen | wrWeight | wrLen => exact congrArg _ (ifLive_of_faulted hs)
  | _ => cases hi

/-- In the faulted block a write has no effect, unless it is the `CLR` word to `CMD` (R161, R186). -/
theorem step_of_write_faulted (h : s.script = .op (.write a v) :: rest) (hs : s.err ≠ 0) (hne : ¬(a = 0 ∧ v = 8)) :
    step s = .next (setScript rest s) := by
  cases hd : decodeWrite a v with
  | none => exact (step_of_bad h hd).trans (congrArg _ (ifLive_of_faulted hs))
  | some i =>
    exact (step_of_decode h hd).trans (exec_write_of_faulted (Laws.EncodingUnique.decodeWrite_encode hd) hs hne)

/-- A write in region 0 is decoded by its index alone (R87). -/
theorem step_of_write_register {k : BitVec 16} {i : Instr} (h : s.script = .op (.write a v) :: rest)
    (ha : a.toNat = k.toNat) (hd : decodeRegisterWrite k v = some i) : step s = exec i (setScript rest s) := by
  have hk := k.isLt
  have hreg : region a = 0 := (region_eq_iff a 0).2 (Nat.div_eq_of_lt (ha ▸ hk))
  have hidx : index a = k := (index_eq_iff a k).2 (by omega)
  exact step_of_decode h (by rw [decodeHostOp, decodeWrite, if_pos hreg, hidx, hd])

/-- A write in region 1 is `WR WEIGHT[i]` (R87). -/
theorem step_of_write_weight (h : s.script = .op (.write a v) :: rest) (hr : region a = 1) :
    step s = exec (.wrWeight (index a) v) (setScript rest s) :=
  step_of_decode h (i := .wrWeight (index a) v) (by simp [decodeHostOp, decodeWrite, hr])

/-- A write in region 2 is `WR LEN[i]` (R87). -/
theorem step_of_write_len (h : s.script = .op (.write a v) :: rest) (hr : region a = 2) :
    step s = exec (.wrLen (index a) v) (setScript rest s) :=
  step_of_decode h (i := .wrLen (index a) v) (by simp [decodeHostOp, decodeWrite, hr])

/-- An address in the first `N_CAP` words of region `r` names word `a - r * 65536` of the region's table (R66). -/
theorem region_index_of_table {r : BitVec 4} (hlo : r.toNat * 65536 ≤ a.toNat)
    (hhi : a.toNat < r.toNat * 65536 + Config.nCap) :
    region a = r ∧ inTable (index a) ∧ (index a).toNat = a.toNat - r.toNat * 65536 := by
  have hcap := nCap_le
  rw [region_eq_iff, inTable, index_toNat]
  omega

end

section
variable {s : State} {v : Word} (hs : s.err = 0)
include hs

/-- A legal value is stored in `NSYM`; the flags are cleared and no table word changes (R161). -/
theorem exec_wrNsym_of_legal (hv : legalNsym v) :
    exec (.wrNsym v) s = .next { s with nsym := BitVec.ofNat 17 v.toNat, codev := false, dtabv := false } := by
  rw [exec, execWrNsym, checkedWrite_of_legal hs trivial hv, BitVec.ofNat_toNat]
  rfl

/-- A legal value is stored in `MAXLEN` and the flags are cleared (R161). -/
theorem exec_wrMaxlen_of_legal (hv : legalMaxlen v) :
    exec (.wrMaxlen v) s = .next { s with maxlen := BitVec.ofNat 4 v.toNat, codev := false, dtabv := false } := by
  rw [exec, execWrMaxlen, checkedWrite_of_legal hs trivial hv, BitVec.ofNat_toNat]
  rfl

/-- Every value is stored in `WEIGHT[i]`; the flags stay (R161). -/
theorem exec_wrWeight_of_inTable {i : BitVec 16} (hi : inTable i) :
    exec (.wrWeight i v) s = .next { s with weight := s.weight.write i.toNat v } :=
  congrArg _ (checkedWrite_of_legal hs hi trivial ..)

/-- A legal value is stored in `LEN[i]` and the flags are cleared (R161). -/
theorem exec_wrLen_of_legal {i : BitVec 16} (hi : inTable i) (hv : legalLen v) :
    exec (.wrLen i v) s =
      .next { s with len := s.len.write i.toNat (BitVec.ofNat 8 v.toNat), codev := false, dtabv := false } := by
  rw [exec, execWrLen, checkedWrite_of_legal hs hi hv, BitVec.ofNat_toNat]
  rfl

end

/-- Settles O12: the faulted block ignores every row but `CLR`; in a live block each range of addresses is one row, whose
values are legal or out of range (O15), and what is left is unmapped. -/
theorem writeFollowsTheAddressMap : Obligations.WriteFollowsTheAddressMap := by
  unfold Obligations.WriteFollowsTheAddressMap
  rintro s a v rest _ h rfl
  refine ⟨?_, step_of_write_faulted h, fun hs => ?_⟩
  · rintro - ⟨rfl, rfl⟩
    exact (step_of_write_register (k := 0) h rfl rfl).trans (execWrCmd_of_decode rfl _)
  have hlive : (setScript rest s).err = 0 := hs
  obtain ⟨lenIllegal, nsymIllegal, maxlenIllegal, -, cmdLegal, cmdIllegal⟩ :=
    outOfRangeValueIsInvalidConfig (setScript rest s) v hlive
  refine ⟨fun ha => ?_, fun ha => ?_, fun ha => ?_, fun hlo hhi => ?_, fun hlo hhi => ?_, fun h0 h3 h4 hw hl => ?_⟩
  · rw [step_of_write_register (k := 0) h ha rfl]
    exact ⟨cmdLegal, cmdIllegal⟩
  · rw [step_of_write_register (k := 3) h ha rfl]
    exact ⟨exec_wrNsym_of_legal hlive, nsymIllegal⟩
  · rw [step_of_write_register (k := 4) h ha rfl]
    exact ⟨exec_wrMaxlen_of_legal hlive, fun hv => maxlenIllegal (by omega)⟩
  · obtain ⟨hreg, hin, hidx⟩ := region_index_of_table (r := 1) hlo hhi
    rw [step_of_write_weight h hreg, exec_wrWeight_of_inTable hlive hin, hidx]
    rfl
  · obtain ⟨hreg, hin, hidx⟩ := region_index_of_table (r := 2) hlo hhi
    rw [step_of_write_len h hreg]
    refine ⟨fun hv => ?_, fun hv => lenIllegal _ hin (by omega)⟩
    rw [exec_wrLen_of_legal hlive hin ((legalLen_iff v).2 (Nat.div_eq_of_lt hv)), hidx]
    rfl
  · have ha : UnmappedWrite a := by
      unfold UnmappedWrite
      omega
    rw [step_of_unmappedWrite h ha, badWrite_of_live hlive, zeroExtend_eq_ofNat]
    rfl

end Sys2Proof.Machine

/-! PROOFS. The faults (60_exceptions.md): what a faulting operation leaves (R171, R172), which commands raise `NotReady`
(R175), and the faulted block (R186). -/

namespace Sys2Proof.Machine

/-! ## Commands in a live block -/

theorem one_le_code (f : FaultName) : 1 ≤ f.code.toNat := by cases f <;> decide

/-- Code 4 is `NotReady`'s alone (R173). -/
theorem code_eq_four_iff (f : FaultName) : f.code = 4 ↔ f = .notReady := by cases f <;> decide

/-- `t` is a success, or fault entry of one of the faults `fs` and nothing else (R171, R172). -/
def SucceedsOrRaises (fs : List FaultName) (s t : State) : Prop := t.err = 0 ∨ ∃ f ∈ fs, ∃ info, t = raise f info s

theorem SucceedsOrRaises.of_raise {fs : List FaultName} {f : FaultName} (hf : f ∈ fs) (info : Word) (s : State) :
    SucceedsOrRaises fs s (raise f info s) :=
  .inr ⟨f, hf, info, rfl⟩

theorem SucceedsOrRaises.exists_raise {fs : List FaultName} {s t : State} (h : SucceedsOrRaises fs s t)
    (ht : t.err ≠ 0) : ∃ f info, t = raise f info s := by
  obtain h0 | ⟨f, -, info, e⟩ := h
  · exact absurd h0 ht
  · exact ⟨f, info, e⟩

theorem SucceedsOrRaises.err_ne_four {fs : List FaultName} {s t : State} (h : SucceedsOrRaises fs s t)
    (hfs : .notReady ∉ fs) : t.err ≠ 4 := by
  obtain h0 | ⟨f, hf, info, rfl⟩ := h
  · rw [h0]
    decide
  · intro h4
    rw [(code_eq_four_iff f).1 h4] at hf
    exact hfs hf

/-- The faults a command can raise in a live block (R175, R185); `CLR` raises none, and other instructions are no
commands. -/
def commandFaults (i : Instr) (s : State) : List FaultName :=
  match i with
  | .hlb => [.lengthLimitInfeasible]
  | .cca | .decb => [.invalidLengthTable]
  | .encb => [.lengthLimitInfeasible, .invalidLengthTable]
  | .hdt => if s.codev then [] else [.notReady]
  | .enc _ => if s.codev then [.invalidSymbol] else [.notReady]
  | .dec => if s.dtabv then [.truncatedStream, .invalidCode] else [.notReady]
  | _ => []

@[simp] theorem commandFaults_hlb (s : State) : commandFaults .hlb s = [.lengthLimitInfeasible] := rfl
@[simp] theorem commandFaults_cca (s : State) : commandFaults .cca s = [.invalidLengthTable] := rfl
@[simp] theorem commandFaults_decb (s : State) : commandFaults .decb s = [.invalidLengthTable] := rfl
@[simp] theorem commandFaults_encb (s : State) :
    commandFaults .encb s = [.lengthLimitInfeasible, .invalidLengthTable] := rfl
@[simp] theorem commandFaults_hdt (s : State) : commandFaults .hdt s = if s.codev then [] else [.notReady] := rfl
@[simp] theorem commandFaults_enc (sym : BitVec 16) (s : State) :
    commandFaults (.enc sym) s = if s.codev then [.invalidSymbol] else [.notReady] := rfl
@[simp] theorem commandFaults_dec (s : State) :
    commandFaults .dec s = if s.dtabv then [.truncatedStream, .invalidCode] else [.notReady] := rfl
@[simp] theorem commandFaults_clr (s : State) : commandFaults .clr s = [] := rfl

section
variable {s : State} (hs : s.err = 0)
include hs

theorem lengthEffect_succeedsOrRaises : SucceedsOrRaises (commandFaults .hlb s) s (lengthEffect s) := by
  rcases lengthEffect_cases s with ⟨_, _, -, e⟩ | ⟨_, -, e⟩ <;> rw [e]
  · exact .inl hs
  · exact .of_raise (by simp) ..

theorem assignEffect_succeedsOrRaises : SucceedsOrRaises (commandFaults .cca s) s (assignEffect s) := by
  rcases assignEffect_cases s with ⟨_, -, e⟩ | ⟨_, -, e⟩ <;> rw [e]
  · exact .inl hs
  · exact .of_raise (by simp) ..

theorem tableEffect_succeedsOrRaises : SucceedsOrRaises (commandFaults .hdt s) s (tableEffect s) := by
  rcases tableEffect_cases s with ⟨-, e⟩ | ⟨hc, e⟩ <;> rw [e]
  · exact .inl hs
  · exact .of_raise (by simp [hc]) ..

theorem encoderEffect_succeedsOrRaises : SucceedsOrRaises (commandFaults .encb s) s (encoderEffect s) := by
  rcases encoderEffect_cases s with ⟨_, _, _, -, -, e⟩ | ⟨_, -, e⟩ | ⟨_, _, _, -, -, e⟩ <;> rw [e]
  · exact .inl hs
  · exact .of_raise (by simp) ..
  · exact .of_raise (by simp) ..

theorem decoderEffect_succeedsOrRaises : SucceedsOrRaises (commandFaults .decb s) s (decoderEffect s) := by
  rcases decoderEffect_cases s with ⟨_, -, e⟩ | ⟨_, -, e⟩ <;> rw [e]
  · exact .inl hs
  · exact .of_raise (by simp) ..

theorem encodeEffect_succeedsOrRaises (sym : BitVec 16) :
    SucceedsOrRaises (commandFaults (.enc sym) s) s (encodeEffect sym s) := by
  rcases encodeEffect_cases sym s with ⟨-, -, -, e⟩ | ⟨hc, -, e⟩ | ⟨hc, e⟩ <;> rw [e]
  · exact .inl hs
  · exact .of_raise (by simp [hc]) ..
  · exact .of_raise (by simp [hc]) ..

theorem decodeEffect_succeedsOrRaises : SucceedsOrRaises (commandFaults .dec s) s (decodeEffect s) := by
  rcases decodeEffect_cases s with ⟨-, -, -, e⟩ | ⟨hd, -, -, e⟩ | ⟨hd, -, e⟩ | ⟨hd, e⟩ <;> rw [e]
  · exact .inl hs
  · exact .of_raise (by simp [hd]) ..
  · exact .of_raise (by simp [hd]) ..
  · exact .of_raise (by simp [hd]) ..

/-- A gated answer of a live block is the effect (R186). -/
theorem eq_of_next_ifLive {t u : State} (h : (.next (ifLive s u) : Host.Outcome State Fault Refusal) = .next t) :
    u = t := by
  rw [ifLive_of_live hs] at h
  exact Host.Outcome.next.inj h

/-- What a command answers in a live block, one command after another. -/
theorem exec_command_succeedsOrRaises {i : Instr} {w : Word} {t : State} (hi : encode i = .command w)
    (h : exec i s = .next t) : SucceedsOrRaises (commandFaults i s) s t := by
  cases i with
  | hlb => exact eq_of_next_ifLive hs h ▸ lengthEffect_succeedsOrRaises hs
  | cca => exact eq_of_next_ifLive hs h ▸ assignEffect_succeedsOrRaises hs
  | hdt => exact eq_of_next_ifLive hs h ▸ tableEffect_succeedsOrRaises hs
  | encb => exact eq_of_next_ifLive hs h ▸ encoderEffect_succeedsOrRaises hs
  | decb => exact eq_of_next_ifLive hs h ▸ decoderEffect_succeedsOrRaises hs
  | enc sym => exact eq_of_next_ifLive hs h ▸ encodeEffect_succeedsOrRaises hs sym
  | dec => exact eq_of_next_ifLive hs h ▸ decodeEffect_succeedsOrRaises hs
  | clr => cases h; exact .inl rfl
  | _ => cases hi

end

/-! ## Host operations in a live block -/

/-- What a faulting host operation answers besides its fault: a read returns 0 (R172). -/
def answerFault : HostOp → State → State
  | .read _, s => reply 0 s
  | .write _ _, s => s

/-- A host operation without a row in R87 faults with `BadAccess` (R68). -/
theorem exists_raise_of_badAccess {s t : State} (hs : s.err = 0) {o : HostOp} (h : badAccess o s = t) :
    ∃ f info, t = answerFault o (raise f info s) := by
  rcases badAccess_cases o s with ⟨_, rfl, -, e⟩ | ⟨_, -, hf, -⟩ | ⟨_, _, rfl, -, e⟩ | ⟨_, _, -, hf, -⟩
  · exact ⟨_, _, h.symm.trans e⟩
  · exact absurd hs hf
  · exact ⟨_, _, h.symm.trans e⟩
  · exact absurd hs hf

/-- With nothing to do the block keeps its state (R191). -/
theorem step_of_nil {s : State} (h : s.script = []) : step s = .next s := by
  unfold step fetch
  simp only [h]

section
variable {s t : State} (hs : s.err = 0) (ht : t.err ≠ 0)
include hs ht

/-- A table read faults with `BadAccess` alone, and returns 0 (R160). -/
theorem exists_raise_of_tableRead {p : Prop} [Decidable p] {a : Addr} {w : Word} (h : tableRead p a w s = t) :
    ∃ f info, t = reply 0 (raise f info s) := by
  rcases tableRead_cases p a w s with ⟨-, e⟩ | ⟨-, e⟩
  · rw [← h, e] at ht
    exact absurd hs ht
  · rw [← h, e, badRead_of_live hs]
    exact ⟨_, _, rfl⟩

/-- A checked write faults by fault entry alone, if its effect is no fault (R161). -/
theorem exists_raise_of_checkedWrite {p q : Prop} [Decidable p] [Decidable q] {a : Addr} {v : Word} {u : State}
    (hu : u.err = 0) (h : checkedWrite p q a v s u = t) : ∃ f info, t = raise f info s := by
  rcases checkedWrite_cases p q a v s u with ⟨hf, -⟩ | ⟨-, -, -, e⟩ | ⟨-, -, -, e⟩ | ⟨-, -, e⟩
  · exact absurd hs hf
  · rw [← h, e] at ht
    exact absurd hu ht
  · exact ⟨_, _, h.symm.trans e⟩
  · exact ⟨_, _, h.symm.trans e⟩

/-- A write to `CMD` faults by fault entry alone: its word is illegal, or its command faults (R24, R174). -/
theorem exists_raise_of_execWrCmd {v : Word} (h : execWrCmd v s = .next t) : ∃ f info, t = raise f info s := by
  cases hd : decodeCommand v with
  | none =>
    rw [execWrCmd_of_illegal hd, ifLive_of_live hs] at h
    cases h
    exact ⟨_, _, rfl⟩
  | some i =>
    rw [execWrCmd_of_decode hd] at h
    exact (exec_command_succeedsOrRaises hs (decodeCommand_eq_some_iff.1 hd) h).exists_raise ht

/-- A row of R87 with `rw = 0` faults by fault entry and returns 0. -/
theorem exists_raise_of_exec_read {i : Instr} {a : Addr} (hi : .hostOp (.read a) = encode i) (h : exec i s = .next t) :
    ∃ f info, t = reply 0 (raise f info s) := by
  cases i with
  | rdWeight | rdLen | rdCode | rdDtab => exact exists_raise_of_tableRead hs ht (Host.Outcome.next.inj h)
  | rdCmd | rdStatus | rdErrinfo | rdNsym | rdMaxlen | rdNpad | rdShrink | rdResult => cases h; exact absurd hs ht
  | _ => cases hi

/-- A row of R87 with `rw = 1` faults by fault entry alone. -/
theorem exists_raise_of_exec_write {i : Instr} {a : Addr} {v : Word} (hi : .hostOp (.write a v) = encode i)
    (h : exec i s = .next t) : ∃ f info, t = raise f info s := by
  cases i with
  | wrCmd => exact exists_raise_of_execWrCmd hs ht h
  | wrNsym | wrMaxlen | wrWeight | wrLen =>
    refine exists_raise_of_checkedWrite hs ht ?_ (Host.Outcome.next.inj h)
    exact hs
  | _ => cases hi

/-- Every row of R87 faults by fault entry, and returns 0 if it is a read (R171, R172). -/
theorem exists_raise_of_exec {o : HostOp} {i : Instr} (hd : decodeHostOp o = some i) (h : exec i s = .next t) :
    ∃ f info, t = answerFault o (raise f info s) := by
  cases o with
  | read a => exact exists_raise_of_exec_read hs ht (Laws.EncodingUnique.decodeRead_encode hd) h
  | write a v => exact exists_raise_of_exec_write hs ht (Laws.EncodingUnique.decodeWrite_encode hd) h

/-- A live block faults by a host operation alone, which it takes off the host's list. -/
theorem exists_raise_of_step (h : step s = .next t) :
    ∃ o rest f info, s.script = .op o :: rest ∧ t = answerFault o (raise f info (setScript rest s)) := by
  match hscript : s.script with
  | [] =>
    rw [step_of_nil hscript] at h
    cases h
    exact absurd hs ht
  | .reset :: rest =>
    rw [step_of_reset hscript] at h
    cases h
    exact absurd rfl ht
  | .op o :: rest =>
    refine ⟨o, rest, ?_⟩
    cases hd : decodeHostOp o with
    | none =>
      rw [step_of_bad hscript hd] at h
      obtain ⟨f, info, e⟩ := exists_raise_of_badAccess (s := setScript rest s) hs (Host.Outcome.next.inj h)
      exact ⟨f, info, rfl, e⟩
    | some i =>
      rw [step_of_decode hscript hd] at h
      obtain ⟨f, info, e⟩ := exists_raise_of_exec (s := setScript rest s) hs ht hd h
      exact ⟨f, info, rfl, e⟩

end

/-- Settles O18: whatever faults is fault entry on the state without the operation, and a read's 0. -/
theorem faultsArePrecise : Obligations.FaultsArePrecise := by
  unfold Obligations.FaultsArePrecise
  intro s t hs h ht
  obtain ⟨o, rest, f, info, hscript, rfl⟩ := exists_raise_of_step hs ht h
  cases o with
  | read a => exact ⟨one_le_code f, code_le_nine f, .inl ⟨a, rest, hscript, rfl⟩⟩
  | write a v => exact ⟨one_le_code f, code_le_nine f, .inr ⟨a, v, rest, hscript, rfl⟩⟩

/-! ## `NotReady` -/

/-- The first check of `HDT` (R130): the codes are not built. -/
theorem exec_hdt_of_notReady {s : State} (hs : s.err = 0) (hc : s.codev = false) :
    exec .hdt s = .next { s with err := 4, errinfo := 0x00000003 } := by
  rcases tableEffect_cases s with ⟨h, -⟩ | ⟨-, e⟩
  · simp [hc] at h
  · exact congrArg _ ((ifLive_of_live hs).trans e)

/-- Settles O21: a missing flag is the first check of `HDT`, `ENC` and `DEC`; every other answer of a command is one of
`commandFaults` or a success. -/
theorem notReadyUntilBuilt : Obligations.NotReadyUntilBuilt := by
  unfold Obligations.NotReadyUntilBuilt
  intro s hs
  have never {i : Instr} {w : Word} {t : State} (hi : encode i = .command w) (hf : .notReady ∉ commandFaults i s)
      (h : exec i s = .next t) : t.err ≠ 4 :=
    (exec_command_succeedsOrRaises hs hi h).err_ne_four hf
  refine ⟨exec_hdt_of_notReady hs, fun hc _ => exec_enc_of_notReady hs hc, exec_dec_of_notReady hs, ?_, ?_, ?_⟩
  · rintro hc i t (rfl | ⟨sym, rfl⟩)
    · exact never rfl (by simp [hc])
    · exact never rfl (by simp [hc])
  · exact fun hd t => never rfl (by simp [hd])
  · rintro i t (rfl | rfl | rfl | rfl | rfl) <;> exact never rfl (by simp)

/-! ## The faulted block -/

/-- A write of the `CLR` word to `CMD` clears the block, faulted or not (R165, R187). -/
theorem step_of_write_clr {s : State} {rest : List HostEvent} (h : s.script = .op (.write 0 0x00000008) :: rest) :
    step s = .next (clearBlock (setScript rest s)) :=
  (step_of_write_register (k := 0) h rfl rfl).trans (execWrCmd_of_decode (i := .clr) rfl _)

/-- In the faulted block a read returns the word of a mapped address and 0 elsewhere, and raises nothing (R186). -/
theorem step_of_read_faulted {s : State} {a : Addr} {rest : List HostEvent} (h : s.script = .op (.read a) :: rest)
    (hs : s.err ≠ 0) : step s = .next (reply ((portValue s a).getD 0) (setScript rest s)) := by
  cases hw : portValue s a with
  | none => rw [step_of_portValue_none h hw, badRead_of_faulted (s := setScript rest s) hs, Option.getD_none]
  | some w => exact step_of_portValue_some h hw

/-- The faulted block keeps `ERR` and `ERRINFO` in every step but reset and `CLR` (R186). -/
theorem step_keeps_fault {s t : State} (hs : s.err ≠ 0) (h : step s = .next t) :
    (t.err = s.err ∧ t.errinfo = s.errinfo) ∨
      s.script.head? = some .reset ∨ s.script.head? = some (.op (.write 0 0x00000008)) := by
  match hscript : s.script with
  | [] =>
    rw [step_of_nil hscript] at h
    cases h
    exact .inl ⟨rfl, rfl⟩
  | .reset :: rest => exact .inr (.inl rfl)
  | .op (.read a) :: rest =>
    rw [step_of_read_faulted hscript hs] at h
    cases h
    exact .inl ⟨rfl, rfl⟩
  | .op (.write a v) :: rest =>
    by_cases hclr : a = 0 ∧ v = 0x00000008
    · obtain ⟨rfl, rfl⟩ := hclr
      exact .inr (.inr rfl)
    · rw [step_of_write_faulted hscript hs hclr] at h
      cases h
      exact .inl ⟨rfl, rfl⟩

/-- Settles O19: one lemma per event of the host. -/
theorem faultedBlockIgnoresAllButClr : Obligations.FaultedBlockIgnoresAllButClr := by
  unfold Obligations.FaultedBlockIgnoresAllButClr
  intro s rest hs
  refine ⟨fun a v h hne => step_of_write_faulted h hs hne, fun a h => step_of_read_faulted h hs, fun h => ?_,
    fun t => step_keeps_fault hs⟩
  exact ⟨_, step_of_write_clr h, atReset_clearBlock _⟩

end Sys2Proof.Machine

/-! PROOFS. Encoding and decoding are inverse (30_encoding.md R83, R87), and a step runs what the host's next operation
decodes to (R70, R80). -/

namespace Sys2Proof

/-- A host read decodes to the row it was encoded from (R87). -/
theorem decodeRead_of_encode {i : Instr} {a : Addr} (hw : WellFormed i = true) (h : encode i = .hostOp (.read a)) :
    decodeRead a = some i := by
  cases i with
  | rdDtab k =>
    have htop : k.getLsbD 15 = false := by simpa [WellFormed] using hw
    cases h
    simp only [decodeRead, region_addr, index_addr, htop]
    rfl
  | rdWeight | rdLen | rdCode =>
    cases h
    simp [decodeRead]
  | rdCmd | rdStatus | rdErrinfo | rdNsym | rdMaxlen | rdNpad | rdShrink | rdResult => cases h; decide
  | _ => cases h

/-- A host write decodes to the row it was encoded from (R87). -/
theorem decodeWrite_of_encode {i : Instr} {a : Addr} {v : Word} (h : encode i = .hostOp (.write a v)) :
    decodeWrite a v = some i := by
  cases i with
  | wrCmd | wrNsym | wrMaxlen | wrWeight | wrLen =>
    cases h
    simp [decodeWrite, decodeRegisterWrite]
  | _ => cases h

end Sys2Proof

namespace Sys2Proof.Machine

/-- Settles O1: one inverse lemma for each of the three forms an encoding can have. -/
theorem decodeInvertsEncode : Obligations.DecodeInvertsEncode := by
  unfold Obligations.DecodeInvertsEncode
  intro i hw
  rcases h : encode i with w | a | ⟨a, v⟩
  · exact decodeCommand_of_encode h
  · exact decodeRead_of_encode hw h
  · exact decodeWrite_of_encode h

/-- Settles O4: the decoder run on nine words. -/
theorem wordsWrittenOutDecode : Obligations.WordsWrittenOutDecode := by
  unfold Obligations.WordsWrittenOutDecode
  decide

/-- Settles O5: a row of R87 is run by `step`; `WR CMD` of a command's word is that command. -/
theorem stepRunsTheDecodedInstruction : Obligations.StepRunsTheDecodedInstruction := by
  unfold Obligations.StepRunsTheDecodedInstruction
  refine fun s o rest h => ⟨fun i hd _ => step_of_decode h hd, ?_⟩
  rintro w i rfl hd -
  exact (step_of_write_register (k := 0) h rfl rfl).trans (execWrCmd_of_decode hd _)

end Sys2Proof.Machine

/-! PROOFS. What an instruction and a step can do, said once: the fault rows of 60_exceptions.md R173 with their causes
(R185), the successes of a live block, and what a step makes of them (R65, R70). -/

namespace Sys2Proof.Machine

/-! ## The faults and the successes -/

/-- A row of R87 with `rw = 0`. -/
def IsRead (i : Instr) : Prop := ∃ a, encode i = .hostOp (.read a)

/-- The fault rows of R173: the instruction, the fault, what is recorded, and the check that fails (R185). `WR CMD` has no
row: it runs its command. -/
inductive FaultCause (s : State) : Instr → FaultName → Word → Prop
  | rdWeight {k : BitVec 16} (h : ¬inTable k) : FaultCause s (.rdWeight k) .badAccess ((addr 1 k).zeroExtend 32)
  | wrWeight {k : BitVec 16} {v : Word} (h : ¬inTable k) :
      FaultCause s (.wrWeight k v) .badAccess ((addr 1 k).zeroExtend 32)
  | rdLen {k : BitVec 16} (h : ¬inTable k) : FaultCause s (.rdLen k) .badAccess ((addr 2 k).zeroExtend 32)
  | wrLen {k : BitVec 16} {v : Word} (h : ¬inTable k) : FaultCause s (.wrLen k v) .badAccess ((addr 2 k).zeroExtend 32)
  | rdCode {k : BitVec 16} (h : ¬inTable k) : FaultCause s (.rdCode k) .badAccess ((addr 3 k).zeroExtend 32)
  | rdDtab {k : BitVec 16} (h : ¬inDtab k) : FaultCause s (.rdDtab k) .badAccess ((addr 4 k).zeroExtend 32)
  | nsymValue {v : Word} (h : ¬legalNsym v) : FaultCause s (.wrNsym v) .invalidConfig v
  | maxlenValue {v : Word} (h : ¬legalMaxlen v) : FaultCause s (.wrMaxlen v) .invalidConfig v
  | lenValue {k : BitVec 16} {v : Word} (h : ¬legalLen v) : FaultCause s (.wrLen k v) .invalidConfig v
  | hlb {a : Nat} (h : buildLengths s.nsym.toNat s.maxlen.toNat s.weight = .error a) :
      FaultCause s .hlb .lengthLimitInfeasible (BitVec.ofNat 32 a)
  | encbLengths {a : Nat} (h : buildLengths s.nsym.toNat s.maxlen.toNat s.weight = .error a) :
      FaultCause s .encb .lengthLimitInfeasible (BitVec.ofNat 32 a)
  | encbCodes {l : Memory 8} {sh k : Nat} (hl : buildLengths s.nsym.toNat s.maxlen.toNat s.weight = .ok (l, sh))
      (hc : assignCodes (npad s) s.maxlen.toNat l = .error k) :
      FaultCause s .encb .invalidLengthTable (BitVec.ofNat 32 k)
  | cca {k : Nat} (h : assignCodes (npad s) s.maxlen.toNat s.len = .error k) :
      FaultCause s .cca .invalidLengthTable (BitVec.ofNat 32 k)
  | decb {k : Nat} (h : assignCodes (npad s) s.maxlen.toNat s.len = .error k) :
      FaultCause s .decb .invalidLengthTable (BitVec.ofNat 32 k)
  | hdt (h : s.codev = false) : FaultCause s .hdt .notReady 3
  | encNotReady {sym : BitVec 16} (h : s.codev = false) : FaultCause s (.enc sym) .notReady (commandWord sym 6)
  | encSymbol {sym : BitVec 16} (hc : s.codev = true) (h : npad s ≤ sym.toNat ∨ lenOf s sym = 0) :
      FaultCause s (.enc sym) .invalidSymbol (sym.zeroExtend 32)
  | decNotReady (h : s.dtabv = false) : FaultCause s .dec .notReady 7
  | decTruncated (hd : s.dtabv = true) (h : avail s < s.maxlen.toNat) :
      FaultCause s .dec .truncatedStream (BitVec.ofNat 32 (avail s))
  | decCode (hd : s.dtabv = true) (h : slotValid (peekedSlot s) = false) :
      FaultCause s .dec .invalidCode (BitVec.ofNat 32 (srcPeek s.maxlen.toNat s))

/-- What a write or a command but `CLR` does in a live block when none of its checks fails, with the checks that passed. -/
inductive Success (s : State) : Instr → State → Prop
  | wrNsym {v : Word} (h : legalNsym v) : Success s (.wrNsym v) (inval (setNsym (v.setWidth 17) s))
  | wrMaxlen {v : Word} (h : legalMaxlen v) : Success s (.wrMaxlen v) (inval (setMaxlen (v.setWidth 4) s))
  | wrWeight {k : BitVec 16} {v : Word} (h : inTable k) : Success s (.wrWeight k v) (setWeight k.toNat v s)
  | wrLen {k : BitVec 16} {v : Word} (h : inTable k) :
      Success s (.wrLen k v) (inval (setLen k.toNat (v.setWidth 8) s))
  | hlb {l : Memory 8} {sh : Nat} (h : buildLengths s.nsym.toNat s.maxlen.toNat s.weight = .ok (l, sh)) :
      Success s .hlb (inval (setShrink (BitVec.ofNat 6 sh) (commitLen (npad s) l s)))
  | cca {c : Memory 16} (h : assignCodes (npad s) s.maxlen.toNat s.len = .ok c) :
      Success s .cca (codesBuilt (commitCode (npad s) c s))
  | hdt (h : s.codev = true) :
      Success s .hdt
        (tableBuilt (commitDtab (2 ^ s.maxlen.toNat) (buildTable (npad s) s.maxlen.toNat s.len s.code) s))
  | encb {l : Memory 8} {sh : Nat} {c : Memory 16}
      (hl : buildLengths s.nsym.toNat s.maxlen.toNat s.weight = .ok (l, sh))
      (hc : assignCodes (npad s) s.maxlen.toNat l = .ok c) :
      Success s .encb (codesBuilt (setShrink (BitVec.ofNat 6 sh) (commitCode (npad s) c (commitLen (npad s) l s))))
  | decb {c : Memory 16} (h : assignCodes (npad s) s.maxlen.toNat s.len = .ok c) :
      Success s .decb (allBuilt (commitDtab (2 ^ s.maxlen.toNat) (buildTable (npad s) s.maxlen.toNat s.len c)
        (commitCode (npad s) c s)))
  | enc {sym : BitVec 16} (hc : s.codev = true) (hlt : sym.toNat < npad s) (hne : lenOf s sym ≠ 0) :
      Success s (.enc sym) (sinkPut (lenOf s sym) (codeOf s sym) s)
  | dec (hd : s.dtabv = true) (hav : s.maxlen.toNat ≤ avail s) (hv : slotValid (peekedSlot s) = true) :
      Success s .dec (setResult (slotSym (peekedSlot s)) (srcSkip (lenOf s (slotSym (peekedSlot s))) s))

/-- A success of a live block leaves it live. -/
theorem Success.err_eq {i : Instr} {s t : State} (h : Success s i t) : t.err = s.err := by cases h <;> rfl

/-! ## What an instruction answers -/

/-- What instruction `i`, other than `WR CMD`, can answer in state `s`: a faulted block ignores it, `CLR` clears the block,
a read returns a word, and in a live block it succeeds or raises one of its faults. -/
inductive Answers (i : Instr) (s : State) : State → Prop
  | ignored (hs : s.err ≠ 0) (hi : ¬IsRead i) : Answers i s s
  | cleared (hi : i = .clr) : Answers i s (clearBlock s)
  | replied (w : Word) (hi : IsRead i) : Answers i s (reply w s)
  | done {t : State} (hs : s.err = 0) (hi : ¬IsRead i) (h : Success s i t) : Answers i s t
  | raised {f : FaultName} {info : Word} (hs : s.err = 0) (hi : ¬IsRead i) (h : FaultCause s i f info) :
      Answers i s (raise f info s)
  | badRead {f : FaultName} {info : Word} (hs : s.err = 0) (hi : IsRead i) (h : FaultCause s i f info) :
      Answers i s (reply 0 (raise f info s))

theorem not_isRead_of_command {i : Instr} {w : Word} (h : encode i = .command w) : ¬IsRead i := by
  rintro ⟨a, ha⟩
  cases h.symm.trans ha

theorem not_isRead_of_write {i : Instr} {a : Addr} {v : Word} (h : encode i = .hostOp (.write a v)) : ¬IsRead i := by
  rintro ⟨b, hb⟩
  cases h.symm.trans hb

section
variable {i : Instr} {s : State}

/-- A gated effect is ignored in the faulted block; in a live one it is what it answers there (R186). -/
theorem answers_ifLive {u : State} (hi : ¬IsRead i) (h : s.err = 0 → Answers i s u) : Answers i s (ifLive s u) := by
  rcases ifLive_cases s u with ⟨hs, e⟩ | ⟨hs, e⟩ <;> rw [e]
  · exact h hs
  · exact .ignored hs hi

/-- A table read returns the word, or 0 with a bad access in a live block (R160). -/
theorem answers_tableRead {p : Prop} [Decidable p] {a : Addr} (w : Word) (hi : IsRead i)
    (hp : ¬p → FaultCause s i .badAccess (a.zeroExtend 32)) : Answers i s (tableRead p a w s) := by
  rcases tableRead_cases p a w s with ⟨-, e⟩ | ⟨h, e⟩ <;> rw [e]
  · exact .replied w hi
  · by_cases hs : s.err = 0
    · rw [badRead_of_live hs]
      exact .badRead hs hi (hp h)
    · rw [badRead_of_faulted hs]
      exact .replied 0 hi

/-- A host write has its effect or one of its two faults, and is ignored in the faulted block (R161). -/
theorem answers_checkedWrite {p q : Prop} [Decidable p] [Decidable q] {a : Addr} {v : Word} {u : State}
    (hi : ¬IsRead i) (hok : p → q → Success s i u) (hp : ¬p → FaultCause s i .badAccess (a.zeroExtend 32))
    (hq : ¬q → FaultCause s i .invalidConfig v) : Answers i s (checkedWrite p q a v s u) := by
  rcases checkedWrite_cases p q a v s u with ⟨hs, e⟩ | ⟨hs, h1, h2, e⟩ | ⟨hs, -, h2, e⟩ | ⟨hs, h1, e⟩ <;> rw [e]
  · exact .ignored hs hi
  · exact .done hs hi (hok h1 h2)
  · exact .raised hs hi (hq h2)
  · exact .raised hs hi (hp h1)

end

section
variable {s : State} (hs : s.err = 0)
include hs

theorem answers_lengthEffect : Answers .hlb s (lengthEffect s) := by
  rcases lengthEffect_cases s with ⟨t, sh, h, e⟩ | ⟨a, h, e⟩ <;> rw [e]
  · exact .done hs nofun (.hlb h)
  · exact .raised hs nofun (.hlb h)

theorem answers_assignEffect : Answers .cca s (assignEffect s) := by
  rcases assignEffect_cases s with ⟨c, h, e⟩ | ⟨k, h, e⟩ <;> rw [e]
  · exact .done hs nofun (.cca h)
  · exact .raised hs nofun (.cca h)

theorem answers_tableEffect : Answers .hdt s (tableEffect s) := by
  rcases tableEffect_cases s with ⟨h, e⟩ | ⟨h, e⟩ <;> rw [e]
  · exact .done hs nofun (.hdt h)
  · exact .raised hs nofun (.hdt h)

theorem answers_encoderEffect : Answers .encb s (encoderEffect s) := by
  rcases encoderEffect_cases s with ⟨t, sh, c, hl, hc, e⟩ | ⟨a, h, e⟩ | ⟨t, sh, k, hl, hc, e⟩ <;> rw [e]
  · exact .done hs nofun (.encb hl hc)
  · exact .raised hs nofun (.encbLengths h)
  · exact .raised hs nofun (.encbCodes hl hc)

theorem answers_decoderEffect : Answers .decb s (decoderEffect s) := by
  rcases decoderEffect_cases s with ⟨c, h, e⟩ | ⟨k, h, e⟩ <;> rw [e]
  · exact .done hs nofun (.decb h)
  · exact .raised hs nofun (.decb h)

theorem answers_encodeEffect (sym : BitVec 16) : Answers (.enc sym) s (encodeEffect sym s) := by
  rcases encodeEffect_cases sym s with ⟨hc, hlt, hne, e⟩ | ⟨hc, h, e⟩ | ⟨hc, e⟩ <;> rw [e]
  · exact .done hs nofun (.enc hc hlt hne)
  · exact .raised hs nofun (.encSymbol hc h)
  · exact .raised hs nofun (.encNotReady hc)

theorem answers_decodeEffect : Answers .dec s (decodeEffect s) := by
  rcases decodeEffect_cases s with ⟨hd, hav, hv, e⟩ | ⟨hd, -, hv, e⟩ | ⟨hd, hav, e⟩ | ⟨hd, e⟩ <;> rw [e]
  · exact .done hs nofun (.dec hd hav hv)
  · exact .raised hs nofun (.decCode hd hv)
  · exact .raised hs nofun (.decTruncated hd hav)
  · exact .raised hs nofun (.decNotReady hd)

end

/-- One instruction after another. -/
theorem exec_answers {i : Instr} {s t : State} (hi : ∀ v, i ≠ .wrCmd v) (h : exec i s = .next t) : Answers i s t := by
  cases i with
  | wrCmd v => exact absurd rfl (hi v)
  | hlb => cases h; exact answers_ifLive nofun answers_lengthEffect
  | cca => cases h; exact answers_ifLive nofun answers_assignEffect
  | hdt => cases h; exact answers_ifLive nofun answers_tableEffect
  | encb => cases h; exact answers_ifLive nofun answers_encoderEffect
  | decb => cases h; exact answers_ifLive nofun answers_decoderEffect
  | enc sym => cases h; exact answers_ifLive nofun fun hs => answers_encodeEffect hs sym
  | dec => cases h; exact answers_ifLive nofun answers_decodeEffect
  | clr => cases h; exact .cleared rfl
  | wrNsym v => cases h; exact answers_checkedWrite nofun (fun _ => .wrNsym) (absurd trivial) .nsymValue
  | wrMaxlen v => cases h; exact answers_checkedWrite nofun (fun _ => .wrMaxlen) (absurd trivial) .maxlenValue
  | wrWeight k v => cases h; exact answers_checkedWrite nofun (fun hk _ => .wrWeight hk) .wrWeight (absurd trivial)
  | wrLen k v => cases h; exact answers_checkedWrite nofun (fun hk _ => .wrLen hk) .wrLen .lenValue
  | rdWeight k => cases h; exact answers_tableRead _ ⟨_, rfl⟩ .rdWeight
  | rdLen k => cases h; exact answers_tableRead _ ⟨_, rfl⟩ .rdLen
  | rdCode k => cases h; exact answers_tableRead _ ⟨_, rfl⟩ .rdCode
  | rdDtab k => cases h; exact answers_tableRead _ ⟨_, rfl⟩ .rdDtab
  | rdCmd | rdStatus | rdErrinfo | rdNsym | rdMaxlen | rdNpad | rdShrink | rdResult =>
    cases h
    exact .replied _ ⟨_, rfl⟩

end Sys2Proof.Machine

/-! PROOFS. Which instruction writes which piece of state (10_state.md R25 to R37), and the rules every step keeps. -/

namespace Sys2Proof.Machine

/-! ## Writers -/

/-- The instructions with a row in R173, other than `WR CMD`. -/
theorem FaultCause.instr_mem {s : State} {i : Instr} {f : FaultName} {info : Word} (h : FaultCause s i f info) :
    i = .hlb ∨ i = .cca ∨ i = .hdt ∨ i = .encb ∨ i = .decb ∨ (∃ sym, i = .enc sym) ∨ i = .dec ∨
      (∃ v, i = .wrNsym v) ∨ (∃ v, i = .wrMaxlen v) ∨ (∃ k v, i = .wrWeight k v) ∨ (∃ k v, i = .wrLen k v) ∨
      ∃ k, i = .rdWeight k ∨ i = .rdLen k ∨ i = .rdCode k ∨ i = .rdDtab k := by
  cases h <;> simp

/-- Settles O51: `CLR` may write every piece; an ignored, replying or faulting instruction writes `ERR` and `ERRINFO` at
most; each success writes its own pieces. -/
theorem eachPieceHasItsWriters : Obligations.EachPieceHasItsWriters := by
  unfold Obligations.EachPieceHasItsWriters
  intro i s t hi h
  cases exec_answers hi h with
  | ignored | replied => simp
  | cleared hclr => simp [hclr]
  | @raised f _ hs _ hf =>
    have hne : f.code ≠ 0#8 := code_ne_zero f
    simp [hs, hne, hf.instr_mem]
  | @badRead f _ hs _ hf =>
    have hne : f.code ≠ 0#8 := code_ne_zero f
    simp [hs, hne, hf.instr_mem]
  | done _ _ hd => cases hd <;> simp

/-! ## Steps -/

/-- What a host write, a command or a reset can do to the state, whatever the instruction. -/
inductive Change (s : State) : State → Prop
  | ignored : Change s s
  | cleared : Change s (clearBlock s)
  | done {i : Instr} {t : State} (hs : s.err = 0) (h : Success s i t) : Change s t
  | raised (f : FaultName) (info : Word) (hs : s.err = 0) : Change s (raise f info s)

/-- An instruction that is no read, `WR CMD` aside, makes one of the changes. -/
theorem Answers.change {i : Instr} {s t : State} (h : Answers i s t) (hi : ¬IsRead i) : Change s t := by
  cases h with
  | ignored => exact .ignored
  | cleared => exact .cleared
  | done hs _ hd => exact .done hs hd
  | raised hs _ _ => exact .raised _ _ hs
  | replied _ hr | badRead _ hr _ => exact absurd hr hi

/-- A read makes one of the changes, and returns one word (R65). -/
theorem Answers.change_reply {i : Instr} {s t : State} (h : Answers i s t) (hi : IsRead i) :
    ∃ w u, Change s u ∧ t = reply w u := by
  cases h with
  | replied w _ => exact ⟨w, s, .ignored, rfl⟩
  | badRead hs _ _ => exact ⟨0, _, .raised _ _ hs, rfl⟩
  | cleared hclr =>
    subst hclr
    cases hi.choose_spec
  | ignored _ hr | done _ hr _ | raised _ hr _ => exact absurd hi hr

/-- A fault that is gated is one of the changes (R171, R186). -/
theorem change_ifLive_raise (f : FaultName) (info : Word) (s : State) : Change s (ifLive s (raise f info s)) := by
  rcases ifLive_cases s (raise f info s) with ⟨hs, e⟩ | ⟨-, e⟩ <;> rw [e]
  · exact .raised f info hs
  · exact .ignored

/-- A write to `CMD` makes one of the changes: its command's, or the fault of an illegal word (R24, R174). -/
theorem change_of_execWrCmd {v : Word} {s t : State} (h : execWrCmd v s = .next t) : Change s t := by
  cases hd : decodeCommand v with
  | none =>
    rw [execWrCmd_of_illegal hd] at h
    cases h
    exact change_ifLive_raise ..
  | some i =>
    rw [execWrCmd_of_decode hd] at h
    exact (exec_answers (decodeCommand_ne_wrCmd hd) h).change
      (not_isRead_of_command (decodeCommand_eq_some_iff.1 hd))

section
variable {s t : State} {a : Addr} {rest : List HostEvent}

/-- A host read (R65): one of the changes, and one word. -/
theorem change_of_step_read (h : s.script = .op (.read a) :: rest) (ht : step s = .next t) :
    ∃ w u, Change (setScript rest s) u ∧ t = reply w u := by
  cases hd : decodeRead a with
  | none =>
    rw [step_of_bad h hd] at ht
    cases ht
    exact ⟨0, _, change_ifLive_raise .., rfl⟩
  | some i =>
    have hi := (Laws.EncodingUnique.decodeRead_encode hd).symm
    rw [step_of_decode h hd] at ht
    refine (exec_answers ?_ ht).change_reply ⟨a, hi⟩
    rintro v rfl
    cases hi

/-- A host write (R65): one of the changes. -/
theorem change_of_step_write {v : Word} (h : s.script = .op (.write a v) :: rest) (ht : step s = .next t) :
    Change (setScript rest s) t := by
  cases hd : decodeWrite a v with
  | none =>
    rw [step_of_bad h hd] at ht
    cases ht
    exact change_ifLive_raise ..
  | some i =>
    rw [step_of_decode h hd] at ht
    by_cases hi : ∃ w, i = .wrCmd w
    · obtain ⟨w, rfl⟩ := hi
      exact change_of_execWrCmd ht
    · exact (exec_answers (not_exists.1 hi) ht).change
        (not_isRead_of_write (Laws.EncodingUnique.decodeWrite_encode hd).symm)

/-- What a step does (R65, R70, R191): nothing with nothing to do; else it takes the next event off the host's list and
makes one of the changes, and a read, only, returns one word. -/
theorem step_cases (ht : step s = .next t) :
    (s.script = [] ∧ t = s) ∨
      ∃ e rest, s.script = e :: rest ∧
        (((∃ a, e = .op (.read a)) ∧ ∃ w u, Change (setScript rest s) u ∧ t = reply w u) ∨
          ((¬∃ a, e = .op (.read a)) ∧ Change (setScript rest s) t)) := by
  match h : s.script with
  | [] =>
    rw [step_of_nil h] at ht
    cases ht
    exact .inl ⟨rfl, rfl⟩
  | .reset :: rest =>
    rw [step_of_reset h] at ht
    cases ht
    exact .inr ⟨_, rest, rfl, .inr ⟨by simp, .cleared⟩⟩
  | .op (.read a) :: rest => exact .inr ⟨_, rest, rfl, .inl ⟨⟨a, rfl⟩, change_of_step_read h ht⟩⟩
  | .op (.write a v) :: rest => exact .inr ⟨_, rest, rfl, .inr ⟨by simp, change_of_step_write h ht⟩⟩

end

/-- What the host's list, a read's word and every change keep, every step keeps. -/
theorem step_keeps {P : State → Prop} (hscript : ∀ s l, P s → P (setScript l s)) (hreply : ∀ s w, P s → P (reply w s))
    (hchange : ∀ s t, P s → Change s t → P t) {s t : State} (hs : P s) (h : step s = .next t) : P t := by
  rcases step_cases h with ⟨-, rfl⟩ | ⟨e, rest, -, ⟨-, w, u, hu, rfl⟩ | ⟨-, hu⟩⟩
  · exact hs
  · exact hreply u w (hchange _ u (hscript s rest hs) hu)
  · exact hchange _ t (hscript s rest hs) hu

/-! ## The host's list, the replies and the bit streams -/

/-- A change touches neither the host's list nor the replies. -/
theorem Change.host_eq {s t : State} (h : Change s t) : t.script = s.script ∧ t.replies = s.replies := by
  cases h with
  | ignored | cleared | raised => exact ⟨rfl, rfl⟩
  | done _ hd => cases hd <;> exact ⟨rfl, rfl⟩

/-- Settles O6: `step_cases`, and no change touches what is the host's. -/
theorem stepConsumesOneEvent : Obligations.StepConsumesOneEvent := by
  unfold Obligations.StepConsumesOneEvent
  refine fun s => ⟨step_of_nil, fun t ht => ?_⟩
  rcases step_cases ht with ⟨h, rfl⟩ | ⟨_, rest, h, ⟨⟨a, rfl⟩, w, u, hu, rfl⟩ | ⟨hne, hu⟩⟩
  · simp [h]
  · obtain ⟨hscript, hreplies⟩ := hu.host_eq
    simp [h, hscript, hreplies]
  · obtain ⟨hscript, hreplies⟩ := hu.host_eq
    simp only [h, hscript, hreplies]
    refine ⟨rfl, ?_, fun _ => rfl⟩
    rintro ⟨a, rest', he⟩
    exact absurd ⟨a, (List.cons.inj he).1⟩ hne

/-- The sink grows by at most 15 bits, the source stays and its cursor does not move back (R36, R37). -/
def StreamsAdvance (s t : State) : Prop :=
  (∃ bits : List Bool, t.sink = s.sink ++ bits ∧ bits.length ≤ 15) ∧ t.src = s.src ∧ s.srcpos ≤ t.srcpos

theorem streamsAdvance_of_eq {s t : State} (h1 : t.sink = s.sink) (h2 : t.src = s.src) (h3 : t.srcpos = s.srcpos) :
    StreamsAdvance s t :=
  ⟨⟨[], by simp [h1], by simp⟩, h2, h3.ge⟩

/-- A codeword has at most 15 bits in a legal state (R31, R40). -/
theorem Inv.lenOf_le {s : State} (h : Inv s) (hc : s.codev = true) {sym : BitVec 16} (hlt : sym.toNat < npad s)
    (hne : lenOf s sym ≠ 0) : lenOf s sym ≤ 15 := by
  have hle : lenOf s sym ≤ s.maxlen.toNat :=
    (h.length_bounds_of_active hc ⟨hlt, BitVec.toNat_ne_iff_ne.1 hne⟩).2
  have := s.maxlen.isLt
  omega

theorem Change.streamsAdvance {s t : State} (hinv : Inv s) (h : Change s t) : StreamsAdvance s t := by
  cases h with
  | ignored | cleared | raised => exact streamsAdvance_of_eq rfl rfl rfl
  | done _ hd =>
    cases hd with
    | enc hc hlt hne => exact ⟨⟨_, rfl, by rw [length_bitsMsbFirst]; exact hinv.lenOf_le hc hlt hne⟩, rfl, le_rfl⟩
    | dec => exact ⟨⟨[], by simp, by simp⟩, rfl, Nat.le_add_right ..⟩
    | _ => exact streamsAdvance_of_eq rfl rfl rfl

/-- A legal state does not depend on what the host will do. -/
theorem Inv.setScript {s : State} (h : Inv s) (l : List HostEvent) : Inv (setScript l s) := by
  obtain ⟨tables, registers, codes, table, cursor⟩ := h
  exact ⟨tables, registers, codes, table, cursor⟩

/-- Nor on what it has read. -/
theorem Inv.reply {s : State} (h : Inv s) (w : Word) : Inv (reply w s) := by
  obtain ⟨tables, registers, codes, table, cursor⟩ := h
  exact ⟨tables, registers, codes, table, cursor⟩

/-- Settles O52: `ENC` puts a codeword, `DEC` moves the cursor, and nothing else touches the streams. -/
theorem bitStreamsOnlyAdvance : Obligations.BitStreamsOnlyAdvance := by
  unfold Obligations.BitStreamsOnlyAdvance
  intro s t hinv h
  rcases step_cases h with ⟨-, rfl⟩ | ⟨e, rest, -, ⟨-, w, u, hu, rfl⟩ | ⟨-, hu⟩⟩
  · exact streamsAdvance_of_eq rfl rfl rfl
  · exact Change.streamsAdvance (s := setScript rest s) (t := u) (hinv.setScript rest) hu
  · exact Change.streamsAdvance (s := setScript rest s) (hinv.setScript rest) hu

end Sys2Proof.Machine

/-! PROOFS. What a legal state keeps in every step: the tables' form (10_state.md R32 to R35), the registers (R26 to R31),
and what the flags guarantee (R40). -/

namespace Sys2Proof.Machine

/-! ## Tables -/

section
variable {n d : Nat} {m : Memory n}

theorem Memory.tableOf_nil : Memory.tableOf d ([] : Memory n) := ⟨Memory.wf_nil, by simp⟩

/-- A write at an index of the table keeps it a table. -/
theorem Memory.tableOf_write (h : m.tableOf d) {i : Nat} (hi : i < d) (v : BitVec n) : (m.write i v).tableOf d := by
  refine ⟨Memory.wf_write h.1 i v, fun e he => ?_⟩
  rcases Memory.mem_write he with he | ⟨rfl, -⟩
  · exact h.2 e he
  · exact hi

/-- A commit of words below the depth keeps it a table. -/
theorem Memory.tableOf_replaceBelow {p : Nat} (hp : p ≤ d) {new : Memory n} (hnew : new.wf) (h : m.tableOf d) :
    (Memory.replaceBelow p new m).tableOf d := by
  refine ⟨Memory.wf_replaceBelow hnew h.1, fun e he => ?_⟩
  rcases Memory.mem_replaceBelow he with ⟨-, hlt⟩ | ⟨he, -⟩
  · exact hlt.trans_le hp
  · exact h.2 e he

end

theorem read_replaceBelow_of_lt {n p : Nat} (new old : Memory n) {i : Nat} (hi : i < p) :
    (Memory.replaceBelow p new old).read i = new.read i := by
  rw [Memory.read_replaceBelow, if_pos hi]

theorem read_replaceBelow_of_ge {n p : Nat} (new old : Memory n) {i : Nat} (hi : p ≤ i) :
    (Memory.replaceBelow p new old).read i = old.read i := by
  rw [Memory.read_replaceBelow, if_neg (not_lt.2 hi)]

/-- The length table of `HLB` is in canonical form. -/
theorem wf_of_buildLengths_ok {n m sh : Nat} {weight : Memory 32} {l : Memory 8}
    (h : buildLengths n m weight = .ok (l, sh)) : l.wf := by
  rcases buildLengths_cases n m weight with ⟨-, e⟩ | ⟨a, -, e⟩ | ⟨-, d, k, -, e⟩ | ⟨-, -, e⟩ <;> cases h.symm.trans e
  · exact Memory.wf_nil
  · exact wf_lengthTable _
  · exact wf_lengthTable _

/-- The assignment keeps the canonical form (R121). -/
theorem wf_of_assignFrom_ok {ps : List (Nat × Nat)} {bits cur : Nat} {c0 c : Memory 16} (h0 : c0.wf)
    (h : assignFrom ps bits cur c0 = .ok c) : c.wf := by
  induction ps generalizing bits cur c0 with
  | nil => cases h; exact h0
  | cons p rest ih =>
    obtain ⟨l, i⟩ := p
    simp only [assignFrom] at h
    split_ifs at h
    exact ih (Memory.wf_write h0 _ _) h

/-- The code table of `CCA` is in canonical form. -/
theorem wf_of_assignCodes_ok {p m : Nat} {len : Memory 8} {c : Memory 16} (h : assignCodes p m len = .ok c) : c.wf :=
  wf_of_assignFrom_ok Memory.wf_nil (assignFrom_of_assignCodes_ok h)

/-- `NPAD` is at most `N_CAP`, which is even (R4, R28). -/
theorem npad_le_nCap {s : State} (h : s.nsym.toNat ≤ Config.nCap) : npad s ≤ Config.nCap := by
  unfold npad
  unfold Config.nCap at *
  omega

theorem two_pow_maxlen_le (m : BitVec 4) : 2 ^ m.toNat ≤ Config.dtabDepth := by
  have hm : m.toNat ≤ 15 := Nat.le_of_lt_succ m.isLt
  exact Nat.pow_le_pow_right (by decide) hm

theorem tablesCanonical_launch (sink src : List Bool) (srcpos : Nat) (script : List HostEvent) :
    TablesCanonical (State.launch sink src srcpos script) :=
  ⟨Memory.tableOf_nil, Memory.tableOf_nil, Memory.tableOf_nil, Memory.tableOf_nil⟩

/-- A success writes inside the tables: at an index that was checked, or below `NPAD` or `2^MAXLEN`. -/
theorem Success.tablesCanonical {i : Instr} {s t : State} (h : Success s i t) (hn : s.nsym.toNat ≤ Config.nCap)
    (htab : TablesCanonical s) : TablesCanonical t := by
  obtain ⟨hweight, hlen, hcode, hdtab⟩ := htab
  have hp := npad_le_nCap hn
  have hd := two_pow_maxlen_le s.maxlen
  cases h with
  | wrNsym | wrMaxlen | enc | dec => exact ⟨hweight, hlen, hcode, hdtab⟩
  | wrWeight hk => exact ⟨Memory.tableOf_write hweight hk _, hlen, hcode, hdtab⟩
  | wrLen hk => exact ⟨hweight, Memory.tableOf_write hlen hk _, hcode, hdtab⟩
  | hlb hl => exact ⟨hweight, Memory.tableOf_replaceBelow hp (wf_of_buildLengths_ok hl) hlen, hcode, hdtab⟩
  | cca hc => exact ⟨hweight, hlen, Memory.tableOf_replaceBelow hp (wf_of_assignCodes_ok hc) hcode, hdtab⟩
  | hdt => exact ⟨hweight, hlen, hcode, Memory.tableOf_replaceBelow hd (wf_buildTable ..) hdtab⟩
  | encb hl hc =>
    exact ⟨hweight, Memory.tableOf_replaceBelow hp (wf_of_buildLengths_ok hl) hlen,
      Memory.tableOf_replaceBelow hp (wf_of_assignCodes_ok hc) hcode, hdtab⟩
  | decb hc =>
    exact ⟨hweight, hlen, Memory.tableOf_replaceBelow hp (wf_of_assignCodes_ok hc) hcode,
      Memory.tableOf_replaceBelow hd (wf_buildTable ..) hdtab⟩

theorem Change.tablesCanonical {s t : State} (h : Change s t) (hn : s.nsym.toNat ≤ Config.nCap)
    (htab : TablesCanonical s) : TablesCanonical t := by
  cases h with
  | ignored | raised => exact htab
  | cleared => exact tablesCanonical_launch s.sink s.src s.srcpos s.script
  | done _ hd => exact hd.tablesCanonical hn htab

/-! ## Registers -/

/-- The shrink exponent of a successful `HLB` is at most 32 (R29, R108). -/
theorem shrink_le_of_buildLengths_ok {n m sh : Nat} {weight : Memory 32} {l : Memory 8}
    (h : buildLengths n m weight = .ok (l, sh)) : sh ≤ Config.sCap := by
  rcases buildLengths_cases n m weight with ⟨-, e⟩ | ⟨a, -, e⟩ | ⟨-, d, k, hr, e⟩ | ⟨-, -, e⟩ <;> cases h.symm.trans e
  · exact Nat.zero_le _
  · exact Nat.zero_le _
  · obtain ⟨-, hk, -⟩ := retryFrom_eq_some hr
    exact Nat.le_of_lt_succ (by simpa [Config.sCap] using hk)

theorem toNat_ofNat_shrink {sh : Nat} (h : sh ≤ Config.sCap) : (BitVec.ofNat 6 sh).toNat = sh := by
  unfold Config.sCap at h
  rw [BitVec.toNat_ofNat]
  omega

theorem toNat_setWidth_of_legalNsym {v : Word} (h : legalNsym v) : (v.setWidth 17).toNat = v.toNat := by
  have := nCap_le
  rw [BitVec.toNat_setWidth]
  omega

theorem toNat_setWidth_of_legalMaxlen {v : Word} (h : legalMaxlen v) : (v.setWidth 4).toNat = v.toNat := by
  obtain ⟨-, hle⟩ := h
  unfold Config.maxlenCap at hle
  rw [BitVec.toNat_setWidth]
  omega

theorem registersLegal_launch (sink src : List Bool) (srcpos : Nat) (script : List HostEvent) :
    RegistersLegal (State.launch sink src srcpos script) :=
  ⟨Nat.zero_le _, Nat.le_of_ble_eq_true rfl, Nat.zero_le _, fun _ => rfl, Nat.zero_le _, nofun⟩

/-- A success writes legal values, and sets `DTABV` only with `CODEV`. -/
theorem Success.registersLegal {i : Instr} {s t : State} (h : Success s i t) (hreg : RegistersLegal s) :
    RegistersLegal t := by
  obtain ⟨hnsym, hmax, herr, hinfo, hshrink, hflags⟩ := hreg
  cases h with
  | wrNsym hv => exact ⟨(toNat_setWidth_of_legalNsym hv).trans_le hv, hmax, herr, hinfo, hshrink, nofun⟩
  | wrMaxlen hv => exact ⟨hnsym, hv.1.trans_eq (toNat_setWidth_of_legalMaxlen hv).symm, herr, hinfo, hshrink, nofun⟩
  | wrWeight | enc | dec => exact ⟨hnsym, hmax, herr, hinfo, hshrink, hflags⟩
  | wrLen | cca => exact ⟨hnsym, hmax, herr, hinfo, hshrink, nofun⟩
  | hlb hl | encb hl _ =>
    have hsh := shrink_le_of_buildLengths_ok hl
    exact ⟨hnsym, hmax, herr, hinfo, (toNat_ofNat_shrink hsh).trans_le hsh, nofun⟩
  | hdt hc => exact ⟨hnsym, hmax, herr, hinfo, hshrink, fun _ => hc⟩
  | decb => exact ⟨hnsym, hmax, herr, hinfo, hshrink, fun _ => rfl⟩

theorem Change.registersLegal {s t : State} (h : Change s t) (hreg : RegistersLegal s) : RegistersLegal t := by
  cases h with
  | ignored => exact hreg
  | cleared => exact registersLegal_launch s.sink s.src s.srcpos s.script
  | done _ hd => exact hd.registersLegal hreg
  | raised f =>
    obtain ⟨hnsym, hmax, -, -, hshrink, hflags⟩ := hreg
    exact ⟨hnsym, hmax, code_le_nine f, fun h0 => absurd h0 (code_ne_zero f), hshrink, hflags⟩

/-- Settles O54: every change writes legal values. -/
theorem stepKeepsRegistersLegal : Obligations.StepKeepsRegistersLegal := by
  unfold Obligations.StepKeepsRegistersLegal
  exact fun s t hreg => step_keeps (fun _ _ h => h) (fun _ _ h => h) (fun _ _ h hu => hu.registersLegal h) hreg

/-- Settles O53: `NSYM` stays legal, so every change writes inside the tables. -/
theorem stepKeepsTablesCanonical : Obligations.StepKeepsTablesCanonical := by
  unfold Obligations.StepKeepsTablesCanonical
  intro s t hreg htab h
  have hboth : RegistersLegal t ∧ TablesCanonical t :=
    step_keeps (P := fun u => RegistersLegal u ∧ TablesCanonical u) (fun _ _ h => h) (fun _ _ h => h)
      (fun _ _ ⟨hreg, htab⟩ hu => ⟨hu.registersLegal hreg, hu.tablesCanonical hreg.1 htab⟩) ⟨hreg, htab⟩ h
  exact hboth.2

/-! ## What the flags guarantee -/

/-- The code table just committed is the one `CCA` computes from the present length table (R40, R120). -/
theorem codesCurrent_of_commit {s : State} {len : Memory 8} {c old : Memory 16}
    (hc : assignCodes (npad s) s.maxlen.toNat len = .ok c) (hlen : ∀ i < npad s, s.len.read i = len.read i)
    (hcode : s.code = Memory.replaceBelow (npad s) c old) : CodesCurrent s := by
  refine fun _ => ⟨c, (assignCodes_congr hlen).trans hc, fun i hi => ?_⟩
  rw [hcode, read_replaceBelow_of_lt _ _ hi]

/-- The decode table just committed is the one `HDT` computes from the present tables (R40, R130). -/
theorem tableCurrent_of_commit {s : State} {c : Memory 16} {old : Memory 17}
    (hcode : ∀ i < npad s, s.code.read i = c.read i)
    (hdtab : s.dtab = Memory.replaceBelow (2 ^ s.maxlen.toNat) (buildTable (npad s) s.maxlen.toNat s.len c) old) :
    TableCurrent s := by
  intro _ v hv
  rw [hdtab, read_replaceBelow_of_lt _ _ hv, buildTable_congr (fun _ _ => rfl) hcode]

/-- A success clears the flags, leaves all they speak of, or has just built it. -/
theorem Success.flagsCurrent {i : Instr} {s t : State} (h : Success s i t) (hinv : Inv s) :
    CodesCurrent t ∧ TableCurrent t := by
  cases h with
  | wrNsym | wrMaxlen | wrLen | hlb => exact ⟨nofun, nofun⟩
  | wrWeight | enc | dec => exact ⟨hinv.codes, hinv.table⟩
  | cca hc => exact ⟨codesCurrent_of_commit hc (fun _ _ => rfl) rfl, nofun⟩
  | encb _ hc => exact ⟨codesCurrent_of_commit hc (fun _ => read_replaceBelow_of_lt _ _) rfl, nofun⟩
  | hdt => exact ⟨hinv.codes, tableCurrent_of_commit (fun _ _ => rfl) rfl⟩
  | decb hc =>
    exact ⟨codesCurrent_of_commit hc (fun _ _ => rfl) rfl,
      tableCurrent_of_commit (fun _ => read_replaceBelow_of_lt _ _) rfl⟩

/-- `DEC` skips a length of at most `MAXLEN`, and `MAXLEN` bits were there (R64, R151). -/
theorem Success.cursorInside {i : Instr} {s t : State} (h : Success s i t) (hinv : Inv s) : CursorInside t := by
  cases h with
  | dec hd hav hv =>
    obtain ⟨-, hle⟩ := hinv.length_bounds_of_active (hinv.codev_of_dtabv hd) (hinv.activeIn_slotSym hd srcPeek_lt hv)
    have hcur := hinv.cursor
    have hskip : s.maxlen.toNat ≤ s.src.length - s.srcpos := hav
    change s.srcpos + (s.len.read _).toNat ≤ s.src.length
    unfold peekedSlot
    omega
  | _ => exact hinv.cursor

/-- Settles O56: every table is empty and no flag is set. -/
theorem launchStateIsLegal : Obligations.LaunchStateIsLegal := by
  unfold Obligations.LaunchStateIsLegal
  have launch (sink src : List Bool) (srcpos : Nat) (script : List HostEvent) (h : srcpos ≤ src.length) :
      Inv (State.launch sink src srcpos script) :=
    ⟨tablesCanonical_launch .., registersLegal_launch .., nofun, nofun, h⟩
  exact ⟨launch [] [] 0 [] le_rfl, launch⟩

theorem Inv.of_change {s t : State} (hinv : Inv s) (h : Change s t) : Inv t := by
  have hreg := h.registersLegal hinv.registers
  have htab := h.tablesCanonical hinv.registers.1 hinv.tables
  cases h with
  | ignored => exact hinv
  | cleared => exact ⟨htab, hreg, nofun, nofun, hinv.cursor⟩
  | raised => exact ⟨htab, hreg, hinv.codes, hinv.table, hinv.cursor⟩
  | done _ hd =>
    obtain ⟨hcodes, htable⟩ := hd.flagsCurrent hinv
    exact ⟨htab, hreg, hcodes, htable, hd.cursorInside hinv⟩

/-- Settles O55: the host's list and the replies are no part of `Inv`, and every change keeps it. -/
theorem stepKeepsTheInvariant : Obligations.StepKeepsTheInvariant := by
  unfold Obligations.StepKeepsTheInvariant
  exact fun s t => step_keeps (fun _ l h => h.setScript l) (fun _ w h => h.reply w) (fun _ _ h hu => h.of_change hu)

end Sys2Proof.Machine

/-! PROOFS. The tree of an attempt (40_length_builder.md): the extraction order (R104), the turns of the merging (R105), and
Kraft's equality of its depths (R106). -/

namespace Sys2Proof.Machine

/-! ## The extraction order -/

/-- Settles O22: the clauses of the order, kind by kind of the two nodes, are those of the keys. -/
theorem extractionOrderIsLexicographic : Obligations.ExtractionOrderIsLexicographic := by
  unfold Obligations.ExtractionOrderIsLexicographic
  intro key hleaf hinternal
  have lex (a b : Node) (ha : ∀ i w, a = .leaf i w → i ≤ 65535) (hb : ∀ i w, b = .leaf i w → i ≤ 65535) :
      nodeBefore a b = true ↔ (key a).1 < (key b).1 ∨ ((key a).1 = (key b).1 ∧ ((key a).2.1 < (key b).2.1 ∨
        ((key a).2.1 = (key b).2.1 ∧ (key a).2.2 < (key b).2.2))) := by
    cases a with
    | leaf i w =>
      have hi := ha i w rfl
      cases b with
      | leaf j v =>
        have hj := hb j v rfl
        simp only [nodeBefore_iff, nodeWeight, tieBefore, hleaf, decide_eq_true_eq, lt_self_iff_false, true_and,
          false_or]
        omega
      | internal l v c d => simp [nodeBefore_iff, nodeWeight, tieBefore, hleaf, hinternal]
    | internal k w c d =>
      cases b with
      | leaf j v => simp [nodeBefore_iff, nodeWeight, tieBefore, hleaf, hinternal]
      | internal l v e f => simp [nodeBefore_iff, nodeWeight, tieBefore, hinternal]
  refine fun a b ha hb => ⟨lex a b ha hb, fun hne => ?_⟩
  rw [← Bool.not_eq_true, lex a b ha hb, lex b a hb ha]
  rw [Ne, Prod.ext_iff, Prod.ext_iff] at hne
  omega

/-- One of the two nodes is before the other. -/
abbrev Comparable (a b : Node) : Prop := nodeBefore a b = true ∨ nodeBefore b a = true

/-- The queue's nodes are the one taken and those left. -/
theorem eq_or_mem_of_extractFirst {n x : Node} {q : List Node} (hx : x ∈ n :: q) :
    x = (extractFirst n q).1 ∨ x ∈ (extractFirst n q).2 :=
  List.mem_cons.1 ((extractFirst_perm n q).mem_iff.2 hx)

/-- On comparable nodes, extraction takes the first one (R104). -/
theorem nodeBefore_extractFirst {n : Node} {q : List Node} (h : (n :: q).Pairwise Comparable) :
    ∀ x ∈ (extractFirst n q).2, nodeBefore (extractFirst n q).1 x = true := by
  induction q generalizing n with
  | nil => simp [extractFirst]
  | cons m q ih =>
    obtain ⟨hn, hmq⟩ := List.pairwise_cons.1 h
    obtain ⟨hm, hq⟩ := List.pairwise_cons.1 hmq
    -- What is taken after comparing `y` with `z` is before `z`, if `y` is.
    have first_before {y z : Node} (hy : (y :: q).Pairwise Comparable) (hyz : nodeBefore y z = true) :
        nodeBefore (extractFirst y q).1 z = true := by
      rcases eq_or_mem_of_extractFirst (List.mem_cons_self (a := y) (l := q)) with he | hmem
      · rwa [← he]
      · exact nodeBefore_trans (ih hy y hmem) hyz
    rw [extractFirst]
    by_cases hb : nodeBefore m n = true
    · simp only [if_pos hb]
      intro x hx
      rcases List.mem_cons.1 hx with rfl | hx
      · exact first_before hmq hb
      · exact ih hmq x hx
    · simp only [if_neg hb]
      have hnq : (n :: q).Pairwise Comparable :=
        List.pairwise_cons.2 ⟨fun x hx => hn x (List.mem_cons_of_mem m hx), hq⟩
      intro x hx
      rcases List.mem_cons.1 hx with rfl | hx
      · exact first_before hnq ((hn x List.mem_cons_self).resolve_right hb)
      · exact ih hnq x hx

/-- Settles O23: `extractFirst` permutes the queue and takes its first node. -/
theorem extractFirstTakesTheLeast : Obligations.ExtractFirstTakesTheLeast := by
  unfold Obligations.ExtractFirstTakesTheLeast
  exact fun n q h => ⟨extractFirst_perm n q, nodeBefore_extractFirst h⟩

/-! ## The turns of the merging -/

/-- One turn of the merging (R105): the first node `a` and the first of the others, `b`, become the children of a new
internal node with creation index `k`. -/
def MergeTurn (k : Nat) (q q' : List Node) : Prop :=
  ∃ (a b : Node) (rest : List Node), q.Perm (a :: b :: rest) ∧ (∀ x ∈ b :: rest, nodeBefore a x = true) ∧
    (∀ x ∈ rest, nodeBefore b x = true) ∧ q' = .internal k (nodeWeight a + nodeWeight b) a b :: rest

/-- The node's creation index, if it has one, is below `k`. -/
def createdBefore (k : Nat) : Node → Prop
  | .leaf _ _ => True
  | .internal j _ _ _ => j < k

theorem createdBefore_mono {j k : Nat} (hjk : j ≤ k) {x : Node} (h : createdBefore j x) : createdBefore k x := by
  cases x with
  | leaf => trivial
  | internal i => exact lt_of_lt_of_le h hjk

/-- The tie-break tells any two nodes of the queue apart, and node `k` is still to be created. -/
def Distinguished (k : Nat) (q : List Node) : Prop :=
  q.Pairwise (fun a b => tieBefore a b = true ∨ tieBefore b a = true) ∧ ∀ x ∈ q, createdBefore k x

theorem Distinguished.comparable {k : Nat} {q : List Node} (h : Distinguished k q) : q.Pairwise Comparable :=
  h.1.imp nodeBefore_total

theorem Distinguished.perm {k : Nat} {q q' : List Node} (h : Distinguished k q) (hp : q.Perm q') :
    Distinguished k q' :=
  ⟨(hp.pairwise_iff Or.symm).1 h.1, fun x hx => h.2 x (hp.mem_iff.2 hx)⟩

/-- The node created next is told apart from all that are there (R104, clauses 2 and 4). -/
theorem tieBefore_created {k w : Nat} {a b x : Node} (h : createdBefore k x) :
    tieBefore (.internal k w a b) x = true ∨ tieBefore x (.internal k w a b) = true := by
  cases x with
  | leaf => exact .inl rfl
  | internal j => exact .inr (decide_eq_true h)

/-- A turn keeps the nodes distinguished. -/
theorem Distinguished.turn {k w : Nat} {a b : Node} {rest : List Node} (h : Distinguished k (a :: b :: rest)) :
    Distinguished (k + 1) (.internal k w a b :: rest) := by
  obtain ⟨hpair, hcreated⟩ := h
  have hrest : ∀ x ∈ rest, createdBefore k x := fun x hx => hcreated x (by simp [hx])
  refine ⟨List.pairwise_cons.2 ⟨fun x hx => tieBefore_created (hrest x hx), hpair.of_cons.of_cons⟩, fun x hx => ?_⟩
  rcases List.mem_cons.1 hx with rfl | hx
  · exact Nat.lt_succ_self k
  · exact createdBefore_mono (Nat.le_succ k) (hrest x hx)

/-- The queues with `q0` before them. -/
def queuesFrom (q0 : List Node) (q : Nat → List Node) : Nat → List Node
  | 0 => q0
  | j + 1 => q j

/-- The merging is `|Q| - 1` turns, which leave the root (R105). -/
theorem exists_mergeTurns {k : Nat} {n : Node} {rest : List Node} (h : Distinguished k (n :: rest)) :
    ∃ q : Nat → List Node, q 0 = n :: rest ∧ (∀ j < rest.length, MergeTurn (k + j) (q j) (q (j + 1))) ∧
      q rest.length = [mergeNodes rest.length k n rest] := by
  induction hl : rest.length generalizing k n rest with
  | zero =>
    rw [List.length_eq_zero_iff.1 hl]
    exact ⟨fun _ => [n], rfl, nofun, rfl⟩
  | succ fuel ih =>
    obtain ⟨m, rest, rfl⟩ := List.exists_cons_of_length_eq_add_one hl
    obtain ⟨a, b, rest1, c, rest2, h1, h2, hlen, hmerge⟩ := mergeNodes_succ fuel k n m rest
    have p1 : (a :: c :: rest1).Perm (n :: m :: rest) := by simpa only [h1] using extractFirst_perm n (m :: rest)
    have p2 : (b :: rest2).Perm (c :: rest1) := by simpa only [h2] using extractFirst_perm c rest1
    have hfirst : ∀ x ∈ c :: rest1, nodeBefore a x = true := by
      simpa only [h1] using nodeBefore_extractFirst h.comparable
    have hsecond : ∀ x ∈ rest2, nodeBefore b x = true := by
      simpa only [h2] using nodeBefore_extractFirst (h.perm p1.symm).comparable.of_cons
    have hperm : (n :: m :: rest).Perm (a :: b :: rest2) := p1.symm.trans (p2.symm.cons a)
    obtain ⟨q, hq0, hturns, hroot⟩ := ih (h.perm hperm).turn (hlen.trans (Nat.succ.inj hl))
    refine ⟨queuesFrom (n :: m :: rest) q, rfl, fun j hj => ?_, hmerge ▸ hroot⟩
    cases j with
    | zero => exact ⟨a, b, rest2, hperm, fun x hx => hfirst x (p2.mem_iff.1 hx), hsecond, hq0⟩
    | succ j =>
      have hk : k + (j + 1) = k + 1 + j := by omega
      rw [hk]
      exact hturns j (Nat.lt_of_succ_lt_succ hj)

/-- What an attempt on active symbols is (R103, R106): the depths below the root of the merging. -/
theorem attempt_eq {act : List Nat} {weight : Memory 32} {k : Nat} {n : Node} {rest : List Node}
    (h : attemptLeaves act weight k = n :: rest) :
    attempt act weight k = leafDepths (mergeNodes rest.length 0 n rest) 0 := by
  rw [attempt, h]

theorem length_attemptLeaves (act : List Nat) (weight : Memory 32) (k : Nat) :
    (attemptLeaves act weight k).length = act.length := List.length_map _

theorem exists_attemptLeaves_eq {act : List Nat} (weight : Memory 32) (k : Nat) (h : 2 ≤ act.length) :
    ∃ n m rest, attemptLeaves act weight k = n :: m :: rest := by
  rw [← length_attemptLeaves act weight k] at h
  match attemptLeaves act weight k, h with
  | n :: m :: rest, _ => exact ⟨n, m, rest, rfl⟩

/-- Leaves of distinct symbols are told apart (R104, clause 3), and no internal node is there yet. -/
theorem distinguished_attemptLeaves {act : List Nat} (weight : Memory 32) (k : Nat) (h : act.Nodup) :
    Distinguished 0 (attemptLeaves act weight k) := by
  refine ⟨?_, fun x hx => ?_⟩
  · refine List.Pairwise.map _ (fun i j (hij : i ≠ j) => ?_) h
    simp only [tieBefore, decide_eq_true_eq]
    omega
  · obtain ⟨i, -, rfl⟩ := List.mem_map.1 hx
    trivial

/-- The turns of an attempt, from the leaves to the root. -/
theorem exists_attemptTurns {act : List Nat} (weight : Memory 32) (k : Nat) (h2 : 2 ≤ act.length) (h : act.Nodup) :
    ∃ (q : Nat → List Node) (root : Node), q 0 = attemptLeaves act weight k ∧
      (∀ j < act.length - 1, MergeTurn j (q j) (q (j + 1))) ∧ q (act.length - 1) = [root] ∧
      attempt act weight k = leafDepths root 0 := by
  obtain ⟨n, m, rest, hleaves⟩ := exists_attemptLeaves_eq weight k h2
  have hlen : act.length - 1 = (m :: rest).length := by
    rw [← length_attemptLeaves act weight k, hleaves]
    rfl
  obtain ⟨q, hq0, hturns, hroot⟩ := exists_mergeTurns (hleaves ▸ distinguished_attemptLeaves weight k h)
  refine ⟨q, _, hq0.trans hleaves.symm, fun j hj => ?_, hlen ▸ hroot, attempt_eq hleaves⟩
  rw [← Nat.zero_add j]
  simpa using hturns j (hlen ▸ hj)

/-- Settles O57: the queues of the attempt's turns. -/
theorem attemptMergesTheTwoFirstNodes : Obligations.AttemptMergesTheTwoFirstNodes := by
  unfold Obligations.AttemptMergesTheTwoFirstNodes
  exact fun act weight k h2 h => exists_attemptTurns weight k h2 h

/-! ## The depths -/

/-- The merging of two nodes or more ends in an internal node (R105). -/
theorem exists_internal_of_mergeNodes (k : Nat) (n m : Node) (rest : List Node) :
    ∃ j w a b, mergeNodes (m :: rest).length k n (m :: rest) = .internal j w a b := by
  induction hl : rest.length generalizing k n m rest with
  | zero =>
    obtain ⟨a, b, _, _, rest2, -, -, hlen, hmerge⟩ := mergeNodes_succ rest.length k n m rest
    rw [List.length_cons, hmerge, hl]
    exact ⟨_, _, _, _, rfl⟩
  | succ fuel ih =>
    obtain ⟨a, b, _, _, rest2, -, -, hlen, hmerge⟩ := mergeNodes_succ rest.length k n m rest
    obtain ⟨m', rest', rfl⟩ := List.exists_cons_of_length_eq_add_one (hlen.trans hl)
    rw [List.length_cons, hmerge, ← hlen]
    exact ih _ _ m' rest' (by simp at hlen; omega)

theorem le_of_mem_leafDepths {n : Node} {d : Nat} {p : Nat × Nat} (hp : p ∈ leafDepths n d) : d ≤ p.2 := by
  induction n generalizing d with
  | leaf i w =>
    rw [leafDepths, List.mem_singleton] at hp
    rw [hp]
  | internal k w a b iha ihb =>
    rcases List.mem_append.1 hp with hp | hp
    · exact (Nat.le_succ d).trans (iha hp)
    · exact (Nat.le_succ d).trans (ihb hp)

section
variable {act : List Nat} {weight : Memory 32} {k : Nat}

/-- With two active symbols or more, no leaf is the root (R106). -/
theorem one_le_of_mem_attempt (h2 : 2 ≤ act.length) {p : Nat × Nat} (hp : p ∈ attempt act weight k) : 1 ≤ p.2 := by
  obtain ⟨n, m, rest, hleaves⟩ := exists_attemptLeaves_eq weight k h2
  obtain ⟨j, w, a, b, hroot⟩ := exists_internal_of_mergeNodes 0 n m rest
  rw [attempt_eq hleaves, hroot] at hp
  rcases List.mem_append.1 hp with hp | hp
  · exact le_of_mem_leafDepths hp
  · exact le_of_mem_leafDepths hp

/-- The depths of an attempt satisfy Kraft's equality (R106). -/
theorem kraft_attempt (h2 : 2 ≤ act.length) {m : Nat} (h : ∀ p ∈ attempt act weight k, p.2 ≤ m) :
    ((attempt act weight k).map (fun p => 2 ^ (m - p.2))).sum = 2 ^ m := by
  obtain ⟨n, n', rest, hleaves⟩ := exists_attemptLeaves_eq weight k h2
  rw [attempt_eq hleaves] at h ⊢
  exact kraft_leafDepths _ h

end

/-- Settles O24: merging keeps the leaves, and every internal node has two children. -/
theorem attemptDepthsAreThoseOfAFullTree : Obligations.AttemptDepthsAreThoseOfAFullTree := by
  unfold Obligations.AttemptDepthsAreThoseOfAFullTree
  exact fun act weight k m h2 =>
    ⟨map_fst_attempt_perm act weight k, fun _ => one_le_of_mem_attempt h2, kraft_attempt h2⟩

end Sys2Proof.Machine

/-! PROOFS. When `HLB` faults (40_length_builder.md R110): too many active symbols fit under no height, and with all weights
shrunk to 1 the tree is as low as can be. -/

namespace Sys2Proof.Machine

/-! ## More active symbols than `2^MAXLEN` -/

/-- A tree of height at most `m` has at most `2^m` leaves, by Kraft's equality (R106). -/
theorem length_le_of_fits {act : List Nat} {weight : Memory 32} {k m : Nat} (h2 : 2 ≤ act.length)
    (h : fits m (attempt act weight k) = true) : act.length ≤ 2 ^ m := by
  have hlen : act.length = ((attempt act weight k).map (fun p => 2 ^ (m - p.2))).length := by
    rw [← (map_fst_attempt_perm act weight k).length_eq, List.length_map, List.length_map]
  rw [← kraft_attempt h2 (fits_iff.1 h), hlen]
  refine List.length_le_sum_of_one_le _ fun x hx => ?_
  obtain ⟨p, -, rfl⟩ := List.mem_map.1 hx
  exact Nat.one_le_two_pow

/-- With more active symbols than `2^MAXLEN`, no attempt fits (R110). -/
theorem buildLengths_of_tooMany {n m : Nat} {weight : Memory 32} (h : 2 ^ m < (activeSymbols n weight).length) :
    buildLengths n m weight = .error (activeSymbols n weight).length := by
  have hpos : 1 ≤ 2 ^ m := Nat.one_le_two_pow
  have h2 : 2 ≤ (activeSymbols n weight).length := by omega
  refine buildLengths_of_none h2 (retryFrom_eq_none.2 fun k _ _ => ?_)
  rw [← Bool.not_eq_true]
  exact fun hfit => absurd (length_le_of_fits h2 hfit) (not_le.2 h)

/-- Settles O27: Kraft's equality bounds the leaves of a tree that fits. -/
theorem hlbFaultsWhenTooManyActive : Obligations.HlbFaultsWhenTooManyActive := by
  unfold Obligations.HlbFaultsWhenTooManyActive
  exact fun s hs h => exec_hlb_of_error hs (buildLengths_of_tooMany h)

/-! ## Equal weights -/

/-- The height of the tree below a node. -/
def height : Node → Nat
  | .leaf _ _ => 0
  | .internal _ _ a b => max (height a) (height b) + 1

/-- No leaf is deeper than the height (R106, R107). -/
theorem depth_le_height {n : Node} {d : Nat} {p : Nat × Nat} (hp : p ∈ leafDepths n d) : p.2 ≤ d + height n := by
  induction n generalizing d with
  | leaf i w =>
    rw [leafDepths, List.mem_singleton] at hp
    rw [hp]
    exact Nat.le_add_right ..
  | internal k w a b iha ihb =>
    rw [height]
    rcases List.mem_append.1 hp with hp | hp
    · have := iha hp
      omega
    · have := ihb hp
      omega

/-- The weights of a queue together. -/
def totalWeight (q : List Node) : Nat := (q.map nodeWeight).sum

/-- A turn keeps the total weight (R105). -/
theorem totalWeight_turn {k : Nat} {q q' : List Node} (h : MergeTurn k q q') : totalWeight q' = totalWeight q := by
  obtain ⟨a, b, rest, hp, -, -, rfl⟩ := h
  rw [totalWeight, totalWeight, (hp.map nodeWeight).sum_eq]
  simp [nodeWeight, Nat.add_assoc]

/-- The weight of a full tree of height `h`, and no greater height. -/
def Full (h : Nat) (x : Node) : Prop := nodeWeight x = 2 ^ h ∧ height x ≤ h

/-- A weight strictly between those of the full trees of heights `h` and `h + 1`, and no greater height. -/
def Between (h : Nat) (x : Node) : Prop := 2 ^ h < nodeWeight x ∧ nodeWeight x < 2 ^ (h + 1) ∧ height x ≤ h + 1

/-- Full of height `h` or `h + 1`, or between the two. -/
abbrev OfLevel (h : Nat) (x : Node) : Prop := Full h x ∨ Full (h + 1) x ∨ Between h x

/-- Merging leaves of weight 1 goes level by level: the nodes are full of height `h` or `h + 1`, but for at most one between
the two. -/
def Level (h : Nat) (q : List Node) : Prop :=
  (∀ x ∈ q, OfLevel h x) ∧ q.Pairwise (fun x y => ¬(Between h x ∧ Between h y))

theorem Level.perm {h : Nat} {q q' : List Node} (hq : Level h q) (hp : q.Perm q') : Level h q' :=
  ⟨fun x hx => hq.1 x (hp.mem_iff.2 hx), (hp.pairwise_iff fun hxy hyx => hxy hyx.symm).1 hq.2⟩

/-- Two full trees of height `h` make one of height `h + 1`. -/
theorem full_internal {h k : Nat} {a b : Node} (ha : Full h a) (hb : Full h b) :
    Full (h + 1) (.internal k (nodeWeight a + nodeWeight b) a b) := by
  obtain ⟨hwa, hha⟩ := ha
  obtain ⟨hwb, hhb⟩ := hb
  refine ⟨?_, Nat.succ_le_succ (max_le hha hhb)⟩
  rw [nodeWeight, hwa, hwb, pow_succ, Nat.mul_two]

/-- What a node of level `h` weighs, and how high it is. -/
theorem level_bounds {h : Nat} {x : Node} (hx : OfLevel h x) :
    2 ^ h ≤ nodeWeight x ∧ nodeWeight x ≤ 2 ^ (h + 1) ∧ height x ≤ h + 1 := by
  have hpow : 2 ^ (h + 1) = 2 ^ h * 2 := pow_succ 2 h
  rcases hx with ⟨hw, hh⟩ | ⟨hw, hh⟩ | ⟨hlo, hhi, hh⟩ <;> omega

theorem full_of_level {h : Nat} {x : Node} (hx : OfLevel h x) (hw : nodeWeight x = 2 ^ h) : Full h x := by
  rcases hx with hx | ⟨hw', -⟩ | ⟨hlo, -⟩
  · exact hx
  · have hlt : 2 ^ h < 2 ^ (h + 1) := Nat.pow_lt_pow_succ Nat.one_lt_two
    omega
  · omega

theorem full_succ_of_level {h : Nat} {x : Node} (hx : OfLevel h x) (hw : 2 ^ h < nodeWeight x)
    (hb : ¬Between h x) : Full (h + 1) x := by
  rcases hx with hx | hx | hx
  · exact absurd hx.1 hw.ne'
  · exact hx
  · exact absurd hx hb

theorem Full.not_between {h : Nat} {x : Node} (hx : Full h x) : ¬Between h x := fun hb => hb.1.ne' hx.1

theorem Full.not_between_pred {h : Nat} {x : Node} (hx : Full (h + 1) x) : ¬Between h x := fun hb => hb.2.1.ne hx.1

/-- A node taken before another is not heavier (R104, clause 1). -/
theorem nodeWeight_le_of_nodeBefore {a b : Node} (h : nodeBefore a b = true) : nodeWeight a ≤ nodeWeight b :=
  ((nodeBefore_iff a b).1 h).elim le_of_lt fun he => he.1.le

section
variable {h k : Nat} {a b : Node} {rest : List Node}

/-- A turn on two full nodes of height `h` stays at the level. -/
theorem Level.turn_of_full (hq : Level h (a :: b :: rest)) (ha : Full h a) (hb : Full h b) :
    Level h (.internal k (nodeWeight a + nodeWeight b) a b :: rest) := by
  obtain ⟨hall, hpair⟩ := hq
  have hc := full_internal (k := k) ha hb
  refine ⟨List.forall_mem_cons.2 ⟨.inr (.inl hc), fun x hx => hall x (by simp [hx])⟩, List.pairwise_cons.2 ⟨?_, ?_⟩⟩
  · exact fun x _ hboth => hc.not_between_pred hboth.1
  · exact hpair.of_cons.of_cons

/-- When the second node taken is heavier than `2^h`, those left, no lighter, are full of height `h + 1`: at most one node
is between. -/
theorem Level.full_rest (hq : Level h (a :: b :: rest)) (hb : 2 ^ h < nodeWeight b)
    (hrest : ∀ x ∈ rest, nodeWeight b ≤ nodeWeight x) : ∀ x ∈ rest, Full (h + 1) x := by
  obtain ⟨hall, hpair⟩ := hq
  intro x hx
  refine full_succ_of_level (hall x (by simp [hx])) (hb.trans_le (hrest x hx)) fun hbetween => ?_
  obtain ⟨-, -, hheight⟩ := level_bounds (hall b (by simp))
  have hbb : Between h b := ⟨hb, (hrest x hx).trans_lt hbetween.2.1, hheight⟩
  exact (List.pairwise_cons.1 hpair.of_cons).1 x hx ⟨hbb, hbetween⟩

/-- A turn that leaves only full nodes of height `h + 1` goes up to that level. -/
theorem Level.turn_of_full_rest (hq : Level h (a :: b :: rest)) (hb : 2 ^ h < nodeWeight b)
    (hrest : ∀ x ∈ rest, Full (h + 1) x) : Level (h + 1) (.internal k (nodeWeight a + nodeWeight b) a b :: rest) := by
  obtain ⟨hwa, hwa', hha⟩ := level_bounds (hq.1 a (by simp))
  obtain ⟨-, hwb', hhb⟩ := level_bounds (hq.1 b (by simp))
  have hheight : height (.internal k (nodeWeight a + nodeWeight b) a b) ≤ h + 1 + 1 := Nat.succ_le_succ (max_le hha hhb)
  have hpow : 2 ^ (h + 1) = 2 ^ h * 2 := pow_succ 2 h
  have hpow' : 2 ^ (h + 1 + 1) = 2 ^ (h + 1) * 2 := pow_succ 2 (h + 1)
  refine ⟨List.forall_mem_cons.2 ⟨?_, fun x hx => .inl (hrest x hx)⟩, List.pairwise_cons.2 ⟨?_, ?_⟩⟩
  · by_cases hsum : nodeWeight a + nodeWeight b = 2 ^ (h + 1 + 1)
    · exact .inr (.inl ⟨hsum, hheight⟩)
    · have hlo : 2 ^ (h + 1) < nodeWeight a + nodeWeight b := by omega
      have hhi : nodeWeight a + nodeWeight b < 2 ^ (h + 1 + 1) := by omega
      exact .inr (.inr ⟨hlo, hhi, hheight⟩)
  · exact fun x hx hboth => (hrest x hx).not_between hboth.2
  · exact List.pairwise_of_forall_mem_list fun x hx _ _ hboth => (hrest x hx).not_between hboth.1

end

/-- A turn stays at its level, or, when at most one light node is left, goes up to the next. -/
theorem Level.turn {h k : Nat} {q q' : List Node} (hq : Level h q) (ht : MergeTurn k q q') : ∃ h', Level h' q' := by
  obtain ⟨a, b, rest, hp, hfirst, hsecond, rfl⟩ := ht
  have hq := hq.perm hp
  have ha := hq.1 a (by simp)
  have hb := hq.1 b (by simp)
  have hab := nodeWeight_le_of_nodeBefore (hfirst b List.mem_cons_self)
  obtain ⟨hwa, -⟩ := level_bounds ha
  rcases (level_bounds hb).1.eq_or_lt with hlight | hheavy
  · exact ⟨h, hq.turn_of_full (full_of_level ha (le_antisymm (hab.trans_eq hlight.symm) hwa))
      (full_of_level hb hlight.symm)⟩
  · have hrest := hq.full_rest hheavy fun x hx => nodeWeight_le_of_nodeBefore (hsecond x hx)
    exact ⟨h + 1, hq.turn_of_full_rest hheavy hrest⟩

/-- A root of at most `2^m` leaves of weight 1 is at most `m` high. -/
theorem height_le_of_level {h m : Nat} {root : Node} (hq : Level h [root]) (hw : nodeWeight root ≤ 2 ^ m) :
    height root ≤ m := by
  rcases hq.1 root (List.mem_singleton.2 rfl) with ⟨he, hh⟩ | ⟨he, hh⟩ | ⟨hlt, -, hh⟩
  · exact hh.trans ((Nat.pow_le_pow_iff_right Nat.one_lt_two).1 (he ▸ hw))
  · exact hh.trans ((Nat.pow_le_pow_iff_right Nat.one_lt_two).1 (he ▸ hw))
  · exact hh.trans ((Nat.pow_lt_pow_iff_right Nat.one_lt_two).1 (hlt.trans_le hw))

/-- With exponent 32 every weight is shrunk to 1 (R102, R110). -/
theorem mem_attemptLeaves_last {act : List Nat} {weight : Memory 32} {x : Node}
    (hx : x ∈ attemptLeaves act weight 32) : ∃ i, x = .leaf i 1 := by
  obtain ⟨i, -, rfl⟩ := List.mem_map.1 hx
  refine ⟨i, ?_⟩
  rw [transformed, Nat.div_eq_of_lt (weight.read i).isLt]
  rfl

theorem totalWeight_attemptLeaves_last (act : List Nat) (weight : Memory 32) :
    totalWeight (attemptLeaves act weight 32) = act.length := by
  rw [totalWeight, List.eq_replicate_of_mem (a := 1) (l := (attemptLeaves act weight 32).map nodeWeight) ?_]
  · simp [length_attemptLeaves]
  · intro w hw
    obtain ⟨x, hx, rfl⟩ := List.mem_map.1 hw
    obtain ⟨i, rfl⟩ := mem_attemptLeaves_last hx
    rfl

theorem level_attemptLeaves_last (act : List Nat) (weight : Memory 32) : Level 0 (attemptLeaves act weight 32) := by
  refine ⟨fun x hx => ?_, List.pairwise_of_forall_mem_list fun x hx _ _ => ?_⟩
  · obtain ⟨i, rfl⟩ := mem_attemptLeaves_last hx
    exact .inl ⟨rfl, le_rfl⟩
  · obtain ⟨i, rfl⟩ := mem_attemptLeaves_last hx
    rintro ⟨⟨hlt, -⟩, -⟩
    exact absurd hlt (lt_irrefl 1)

/-- With at most `2^m` active symbols the attempt with exponent 32 fits (R110). -/
theorem fits_attempt_last {act : List Nat} {weight : Memory 32} {m : Nat} (h2 : 2 ≤ act.length) (h : act.Nodup)
    (hle : act.length ≤ 2 ^ m) : fits m (attempt act weight 32) = true := by
  obtain ⟨q, root, hq0, hturns, hroot, hattempt⟩ := exists_attemptTurns weight 32 h2 h
  have hkeep : ∀ j ≤ act.length - 1, (∃ h, Level h (q j)) ∧ totalWeight (q j) = act.length := by
    intro j
    induction j with
    | zero =>
      exact fun _ => hq0 ▸ ⟨⟨0, level_attemptLeaves_last act weight⟩, totalWeight_attemptLeaves_last act weight⟩
    | succ j ih =>
      intro hj
      obtain ⟨⟨h, hlevel⟩, htotal⟩ := ih (Nat.le_of_succ_le hj)
      exact ⟨hlevel.turn (hturns j hj), (totalWeight_turn (hturns j hj)).trans htotal⟩
  obtain ⟨⟨h, hlevel⟩, htotal⟩ := hkeep _ le_rfl
  rw [hroot] at hlevel htotal
  have hweight : nodeWeight root = act.length := by simpa [totalWeight] using htotal
  rw [hattempt, fits_iff]
  intro p hp
  calc p.2 ≤ 0 + height root := depth_le_height hp
    _ ≤ m := by rw [Nat.zero_add]; exact height_le_of_level hlevel (hweight ▸ hle)

/-- With at most `2^MAXLEN` active symbols `HLB` computes a length table (R110). -/
theorem exists_buildLengths_ok {n m : Nat} {weight : Memory 32} (h : (activeSymbols n weight).length ≤ 2 ^ m) :
    ∃ l sh, buildLengths n m weight = .ok (l, sh) := by
  rcases buildLengths_cases n m weight with ⟨-, e⟩ | ⟨a, -, e⟩ | ⟨-, d, k, -, e⟩ | ⟨h2, hnone, -⟩
  · exact ⟨_, _, e⟩
  · exact ⟨_, _, e⟩
  · exact ⟨_, _, e⟩
  · have hfit := fits_attempt_last (weight := weight) h2 (nodup_activeSymbols n weight) h
    exact absurd hfit (by simp [retryFrom_eq_none.1 hnone 32 (Nat.zero_le _) (by decide)])

/-- Settles O28: the attempt with exponent 32 fits, so the retry loop ends there at the latest. -/
theorem hlbSucceedsWhenFeasible : Obligations.HlbSucceedsWhenFeasible := by
  unfold Obligations.HlbSucceedsWhenFeasible
  intro s hs h
  obtain ⟨l, sh, hb⟩ := exists_buildLengths_ok h
  have hsh := shrink_le_of_buildLengths_ok hb
  refine ⟨_, _, (toNat_ofNat_shrink hsh).trans_le hsh, exec_hlb_of_ok hs hb, fun i hi => ?_⟩
  exact read_replaceBelow_of_ge _ _ hi

end Sys2Proof.Machine

/-! PROOFS. What a successful `HLB` guarantees (40_length_builder.md R109): the lengths of its table, their Kraft sum, and
what they depend on. -/

namespace Sys2Proof.Machine

/-! ## The Kraft sum of a table of depths -/

/-- The Kraft sum depends on the words of LEN below `p` alone. -/
theorem kraftScaled_congr {m p : Nat} {len len' : Memory 8} (h : ∀ i < p, len.read i = len'.read i) :
    kraftScaled m p len = kraftScaled m p len' :=
  Finset.sum_congr rfl fun i hi => by rw [h i (Finset.mem_range.1 hi)]

/-- The Kraft value of `a` active symbols under a cap of `m` (R109, item 3), scaled. -/
def huffmanKraft (m a : Nat) : Nat := if a = 0 then 0 else if a = 1 then 2 ^ (m - 1) else 2 ^ m

theorem huffmanKraft_le (m a : Nat) : huffmanKraft m a ≤ 2 ^ m := by
  unfold huffmanKraft
  split_ifs
  · exact Nat.zero_le _
  · exact Nat.pow_le_pow_right (by decide) (Nat.sub_le m 1)
  · exact le_rfl

/-- Recorded depths as `HLB` makes them: one for each active symbol, between 1 and `m`, with the Kraft value of R109. -/
structure LegalDepths (m : Nat) (act : List Nat) (d : List (Nat × Nat)) : Prop where
  symbols : (d.map Prod.fst).Perm act
  bounds : ∀ p ∈ d, 1 ≤ p.2 ∧ p.2 ≤ m
  kraft : (d.map (fun p => 2 ^ (m - p.2))).sum = huffmanKraft m act.length

/-- Every success of the length builder is a table of such depths (R101, R106, R108). -/
theorem legalDepths_of_buildLengths_ok {n m sh : Nat} {weight : Memory 32} {l : Memory 8} (hm : 1 ≤ m)
    (h : buildLengths n m weight = .ok (l, sh)) :
    ∃ d, l = lengthTable d ∧ LegalDepths m (activeSymbols n weight) d := by
  rcases buildLengths_cases n m weight with ⟨hact, e⟩ | ⟨a, hact, e⟩ | ⟨h2, d, k, hr, e⟩ | ⟨-, -, e⟩ <;>
    cases h.symm.trans e
  · refine ⟨[], rfl, ?_⟩
    rw [hact]
    exact ⟨List.Perm.refl [], nofun, rfl⟩
  · refine ⟨[(a, 1)], rfl, ?_⟩
    rw [hact]
    exact ⟨List.Perm.refl [a], by simpa using hm, by simp [huffmanKraft]⟩
  · obtain ⟨-, -, rfl, hfit, -⟩ := retryFrom_eq_some hr
    rw [fits_iff] at hfit
    refine ⟨_, rfl, map_fst_attempt_perm _ weight _, fun p hp => ⟨one_le_of_mem_attempt h2 hp, hfit p hp⟩, ?_⟩
    rw [kraft_attempt h2 hfit, huffmanKraft, if_neg (by omega), if_neg (by omega)]

section
variable {m : Nat} {act : List Nat} {d : List (Nat × Nat)} (h : LegalDepths m act d) (hact : act.Nodup) (hm : m < 256)
include h hact hm

/-- The word of an active symbol is its recorded depth; every other word is 0 (R100). -/
theorem LegalDepths.read_cases (i : Nat) :
    (∃ x, (i, x) ∈ d ∧ ((lengthTable d).read i).toNat = x ∧ 1 ≤ x ∧ x ≤ m) ∨
      (i ∉ act ∧ (lengthTable d).read i = 0) := by
  have hnodup := h.symbols.nodup_iff.2 hact
  by_cases hi : i ∈ act
  · obtain ⟨⟨j, x⟩, hx, rfl⟩ := List.mem_map.1 (h.symbols.mem_iff.2 hi)
    obtain ⟨hpos, hle⟩ : 1 ≤ x ∧ x ≤ m := h.bounds _ hx
    exact .inl ⟨x, hx, toNat_read_lengthTable hnodup hx (by omega), hpos, hle⟩
  · exact .inr ⟨hi, (read_lengthTable hnodup i).2 (mt h.symbols.mem_iff.1 hi)⟩

theorem LegalDepths.read_ne_zero_iff (i : Nat) : (lengthTable d).read i ≠ 0 ↔ i ∈ act := by
  rcases h.read_cases hact hm i with ⟨x, hx, hread, hpos, -⟩ | ⟨hi, hread⟩
  · have hmem : i ∈ act := h.symbols.mem_iff.1 (List.mem_map_of_mem hx)
    have hne : (lengthTable d).read i ≠ 0 := BitVec.toNat_ne_iff_ne.1 (by rw [hread]; exact Nat.ne_of_gt hpos)
    exact iff_of_true hne hmem
  · exact iff_of_false (not_not.2 hread) hi

theorem LegalDepths.read_le (i : Nat) : ((lengthTable d).read i).toNat ≤ m := by
  rcases h.read_cases hact hm i with ⟨x, -, hread, -, hle⟩ | ⟨-, hread⟩
  · rwa [hread]
  · rw [hread]
    exact Nat.zero_le m

/-- The pairs of the table are the recorded depths. -/
theorem LegalDepths.sortedPairs_perm {p : Nat} (hp : ∀ i ∈ act, i < p) :
    (sortedPairs p (lengthTable d)).Perm (d.map Prod.swap) := by
  have hnodup : d.Nodup := .of_map Prod.fst (h.symbols.nodup_iff.2 hact)
  refine (List.perm_ext_iff_of_nodup (.of_map Prod.snd (sortedPairs_nodup_symbols ..))
    (hnodup.map Prod.swap_injective)).2 ?_
  rintro ⟨x, i⟩
  have hswap : (x, i) ∈ d.map Prod.swap ↔ (i, x) ∈ d := by simp
  rw [mem_sortedPairs, hswap]
  constructor
  · rintro ⟨-, hne, rfl⟩
    rcases h.read_cases hact hm i with ⟨x, hx, rfl, -⟩ | ⟨-, hread⟩
    · exact hx
    · exact absurd hread hne
  · intro hx
    have hi : i ∈ act := h.symbols.mem_iff.1 (List.mem_map_of_mem hx)
    obtain ⟨-, hle⟩ : 1 ≤ x ∧ x ≤ m := h.bounds _ hx
    exact ⟨hp i hi, (h.read_ne_zero_iff hact hm i).2 hi,
      (toNat_read_lengthTable (h.symbols.nodup_iff.2 hact) hx (by omega)).symm⟩

theorem LegalDepths.kraftScaled_eq {p : Nat} (hp : ∀ i ∈ act, i < p) :
    kraftScaled m p (lengthTable d) = huffmanKraft m act.length := by
  rw [← pairSum_sortedPairs, pairSum_perm m (h.sortedPairs_perm hact hm hp), ← h.kraft, pairSum, List.map_map]
  rfl

end

/-- What a success of the length builder computes (R109, items 1 to 3). -/
theorem buildLengths_ok_guarantee {n m sh : Nat} {weight : Memory 32} {l : Memory 8} (hm : 1 ≤ m) (hm' : m < 256)
    (h : buildLengths n m weight = .ok (l, sh)) :
    (∀ i, l.read i ≠ 0 ↔ i < n ∧ weight.read i ≠ 0) ∧ (∀ i, (l.read i).toNat ≤ m) ∧
      ∀ p, n ≤ p → kraftScaled m p l = huffmanKraft m (activeSymbols n weight).length := by
  obtain ⟨d, rfl, hd⟩ := legalDepths_of_buildLengths_ok hm h
  have hact := nodup_activeSymbols n weight
  refine ⟨fun i => ?_, hd.read_le hact hm', fun p hp => hd.kraftScaled_eq hact hm' fun i hi => ?_⟩
  · rw [hd.read_ne_zero_iff hact hm', mem_activeSymbols]
  · exact (mem_activeSymbols.1 hi).1.trans_le hp

theorem nsym_le_npad (s : State) : s.nsym.toNat ≤ npad s := Nat.le_add_right ..

theorem maxlen_lt_256 (s : State) : s.maxlen.toNat < 256 := s.maxlen.isLt.trans (by decide)

/-- `HLB` in a live block that ends live has computed a length table. -/
theorem buildLengths_ok_of_exec_hlb {s t : State} (hs : s.err = 0) (h : exec .hlb s = .next t) (ht : t.err = 0) :
    ∃ l sh, buildLengths s.nsym.toNat s.maxlen.toNat s.weight = .ok (l, sh) ∧
      t = { s with
        len := Memory.replaceBelow (npad s) l s.len, shrink := BitVec.ofNat 6 sh, codev := false, dtabv := false } := by
  rcases hb : buildLengths s.nsym.toNat s.maxlen.toNat s.weight with a | ⟨l, sh⟩
  · rw [exec_hlb_of_error hs hb] at h
    cases h
    exact absurd ht (code_ne_zero .lengthLimitInfeasible)
  · rw [exec_hlb_of_ok hs hb] at h
    exact ⟨l, sh, rfl, (Host.Outcome.next.inj h).symm⟩

/-- Settles O26: below `NPAD`, LEN is the table the length builder computed. -/
theorem hlbLengthsGuarantee : Obligations.HlbLengthsGuarantee := by
  unfold Obligations.HlbLengthsGuarantee
  intro s t hs hm h ht
  obtain ⟨l, sh, hb, rfl⟩ := buildLengths_ok_of_exec_hlb hs h ht
  obtain ⟨hactive, hle, hkraft⟩ := buildLengths_ok_guarantee hm (maxlen_lt_256 s) hb
  have hread : ∀ i < npad s, (Memory.replaceBelow (npad s) l s.len).read i = l.read i :=
    fun i => read_replaceBelow_of_lt l s.len
  refine ⟨fun i hi => ?_, fun i hi => ?_, ?_, fun i hn hi => ?_⟩
  · rw [hread i hi]
    exact hactive i
  · rw [hread i hi]
    exact hle i
  · exact (kraftScaled_congr hread).trans (hkraft _ (nsym_le_npad s))
  · rw [hread i hi]
    by_contra hne
    exact absurd ((hactive i).1 hne).1 (not_lt.2 hn)

/-! ## What the lengths depend on -/

section
variable {n : Nat} {weight weight' : Memory 32} (h : ∀ i < n, weight.read i = weight'.read i)
include h

theorem activeSymbols_congr : activeSymbols n weight = activeSymbols n weight' :=
  List.filter_congr fun i hi => by rw [h i (List.mem_range.1 hi)]

theorem attempt_congr (k : Nat) :
    attempt (activeSymbols n weight) weight k = attempt (activeSymbols n weight) weight' k := by
  have hleaves : attemptLeaves (activeSymbols n weight) weight k = attemptLeaves (activeSymbols n weight) weight' k :=
    List.map_congr_left fun i hi => by rw [h i (mem_activeSymbols.1 hi).1]
  rw [attempt, attempt, hleaves]

theorem retryFrom_congr (m fuel k : Nat) :
    retryFrom (activeSymbols n weight) weight m fuel k = retryFrom (activeSymbols n weight) weight' m fuel k := by
  induction fuel generalizing k with
  | zero => rfl
  | succ fuel ih => rw [retryFrom, retryFrom, attempt_congr h, ih]

/-- The length builder depends on the weights below `n` alone (R109, item 6). -/
theorem buildLengths_congr (m : Nat) : buildLengths n m weight = buildLengths n m weight' := by
  have hretry := retryFrom_congr h m (Config.sCap + 1) 0
  rw [buildLengths, buildLengths, ← activeSymbols_congr h]
  generalize activeSymbols n weight = act at hretry ⊢
  match act with
  | [] => rfl
  | [a] => rfl
  | a :: b :: rest => simp only [hretry]

end

/-- Settles O29: both blocks run the same `buildLengths`. -/
theorem hlbDependsOnWeightsAlone : Obligations.HlbDependsOnWeightsAlone := by
  unfold Obligations.HlbDependsOnWeightsAlone
  intro s s' t t' hs hs' hnsym hmaxlen hweight h h'
  have hsame : buildLengths s.nsym.toNat s.maxlen.toNat s.weight =
      buildLengths s'.nsym.toNat s'.maxlen.toNat s'.weight := by
    rw [buildLengths_congr hweight, hnsym, hmaxlen]
  have hnpad : npad s = npad s' := by rw [npad, npad, hnsym]
  rcases hb : buildLengths s.nsym.toNat s.maxlen.toNat s.weight with a | ⟨l, sh⟩
  · rw [exec_hlb_of_error hs hb] at h
    rw [exec_hlb_of_error hs' (hsame.symm.trans hb)] at h'
    cases h
    cases h'
    exact ⟨rfl, fun _ => rfl, fun h0 => absurd h0 (code_ne_zero .lengthLimitInfeasible)⟩
  · rw [exec_hlb_of_ok hs hb] at h
    rw [exec_hlb_of_ok hs' (hsame.symm.trans hb)] at h'
    cases h
    cases h'
    refine ⟨hs.trans hs'.symm, fun hne => absurd hs hne, fun _ => ⟨rfl, fun i hi => ?_⟩⟩
    rw [read_replaceBelow_of_lt _ _ hi, read_replaceBelow_of_lt _ _ (hnpad ▸ hi)]

end Sys2Proof.Machine

/-! PROOFS. The code assigner (41_code_assigner.md): its two checks (R122, R123), the codes in closed form (R121, R124), and
what they depend on (R125). -/

namespace Sys2Proof.Machine

/-! ## The two checks -/

section
variable {s : State} (hs : s.err = 0)
include hs

theorem exec_cca_of_ok {c : Memory 16} (h : assignCodes (npad s) s.maxlen.toNat s.len = .ok c) :
    exec .cca s = .next { s with code := Memory.replaceBelow (npad s) c s.code, codev := true, dtabv := false } := by
  change Host.Outcome.next (ifLive s (assignEffect s)) = _
  rw [ifLive_of_live hs, assignEffect, h]
  rfl

theorem exec_cca_of_error {i : Nat} (h : assignCodes (npad s) s.maxlen.toNat s.len = .error i) :
    exec .cca s = .next { s with err := 6, errinfo := BitVec.ofNat 32 i } := by
  change Host.Outcome.next (ifLive s (assignEffect s)) = _
  rw [ifLive_of_live hs, assignEffect, h]
  rfl

end

/-- Settles O30: the length bound is checked first. -/
theorem ccaReportsTheLowestOverlongEntry : Obligations.CcaReportsTheLowestOverlongEntry := by
  unfold Obligations.CcaReportsTheLowestOverlongEntry
  intro s i hs hi hlong hlowest
  refine exec_cca_of_error hs ?_
  rw [assignCodes, overlong_of_lowest hi hlong hlowest]

section
variable {p m : Nat} {len : Memory 8} (hlen : ∀ i < p, (len.read i).toNat ≤ m)
include hlen

/-- With legal lengths the check of the Kraft sum is all that is left (R122). -/
theorem assignCodes_of_legal : assignCodes p m len = assignFrom (sortedPairs p len) 0 1 [] := by
  rw [assignCodes, overlong_eq_none.2 hlen]

theorem sortedPairs_bounds_of_legal : ∀ a ∈ sortedPairs p len, 1 ≤ a.1 ∧ a.1 ≤ m := by
  rintro ⟨l, i⟩ ha
  obtain ⟨hi, hne, rfl⟩ := mem_sortedPairs.1 ha
  exact ⟨Nat.one_le_iff_ne_zero.2 (BitVec.toNat_ne_iff_ne.2 hne), hlen i hi⟩

/-- With legal lengths and a Kraft sum of at most 1, the assignment succeeds: the code of a pair, scaled by `2^m`, is the
Kraft sum of the pairs before it, and other symbols have code 0 (R121, R123, R124). -/
theorem assignCodes_spec (hkraft : kraftScaled m p len ≤ 2 ^ m) :
    ∃ c, assignCodes p m len = .ok c ∧ (∀ i, i ∉ (sortedPairs p len).map Prod.snd → c.read i = 0) ∧
      ∀ pre l i post, sortedPairs p len = pre ++ (l, i) :: post →
        ∃ b, c.read i = BitVec.ofNat 16 b ∧ b < 2 ^ l ∧ b * 2 ^ (m - l) = pairSum m pre := by
  have hb := sortedPairs_bounds_of_legal hlen
  rw [← pairSum_sortedPairs] at hkraft
  obtain ⟨c, e, -, hunused, hcode⟩ := assignFrom_ok (bits := 0) (cur := 1) (sortedPairs_pairwise_length p len)
    (sortedPairs_nodup_symbols p len) (fun a ha => (hb a ha).1) (fun a ha => (hb a ha).2) Memory.wf_nil
    (by simpa using hkraft)
  refine ⟨c, (assignCodes_of_legal hlen).trans e, hunused, fun pre l i post hsplit => ?_⟩
  obtain ⟨b, hread, hlt, hsum⟩ := hcode pre l i post hsplit
  exact ⟨b, hread, hlt, by simpa using hsum⟩

/-- With legal lengths and a Kraft sum above 1, the assignment fails where the running sum passes 1 (R123). -/
theorem assignCodes_of_oversubscribed (hkraft : 2 ^ m < kraftScaled m p len) :
    ∃ pre l i post, sortedPairs p len = pre ++ (l, i) :: post ∧ assignCodes p m len = .error i ∧
      pairSum m pre ≤ 2 ^ m ∧ 2 ^ m < 2 ^ (m - l) + pairSum m pre := by
  have hb := sortedPairs_bounds_of_legal hlen
  rw [← pairSum_sortedPairs] at hkraft
  obtain ⟨pre, l, i, post, hsplit, e, hle, hlt⟩ := assignFrom_error (c0 := []) (bits := 0) (cur := 1)
    (sortedPairs_pairwise_length p len) (fun a ha => (hb a ha).1) (fun a ha => (hb a ha).2) (by simp)
    (by simpa using hkraft)
  exact ⟨pre, l, i, post, hsplit, (assignCodes_of_legal hlen).trans e, by omega, by omega⟩

end

/-- A pair of the sorted list is an active symbol with its length (R121). -/
theorem active_of_split {p l i : Nat} {len : Memory 8} {pre post : List (Nat × Nat)}
    (h : sortedPairs p len = pre ++ (l, i) :: post) : activeIn p len i ∧ l = (len.read i).toNat := by
  obtain ⟨hi, hne, hl⟩ := mem_sortedPairs.1 (h ▸ List.mem_append_right pre List.mem_cons_self)
  exact ⟨⟨hi, hne⟩, hl⟩

/-- Settles O31: the pairs before the failing one are those of shorter length, or of the same length and lower symbol. -/
theorem ccaReportsWhereTheKraftSumPassesOne : Obligations.CcaReportsWhereTheKraftSumPassesOne := by
  unfold Obligations.CcaReportsWhereTheKraftSumPassesOne
  intro s hs hlen hkraft
  obtain ⟨pre, l, i, post, hsplit, e, hle, hlt⟩ := assignCodes_of_oversubscribed hlen hkraft
  obtain ⟨hactive, rfl⟩ := active_of_split hsplit
  rw [pairSum_before hsplit] at hle hlt
  exact ⟨i, hactive, exec_cca_of_error hs e, hle, hlt⟩

/-! ## The codes -/

section
variable {p m : Nat} {len : Memory 8} {c : Memory 16} (h : assignCodes p m len = .ok c)
include h

/-- A symbol that is not active has code 0 (R124, item 1). -/
theorem code_eq_zero_of_assignCodes_ok {i : Nat} (hi : ¬activeIn p len i) : c.read i = 0 := by
  obtain ⟨c', e, hunused, -⟩ :=
    assignCodes_spec (fun i => length_le_of_assignCodes_ok h) (kraftScaled_le_of_assignCodes_ok h)
  cases h.symm.trans e
  refine hunused i fun hmem => hi ?_
  obtain ⟨⟨l, j⟩, hj, rfl⟩ := List.mem_map.1 hmem
  obtain ⟨hlt, hne, -⟩ := mem_sortedPairs.1 hj
  exact ⟨hlt, hne⟩

/-- The code of a pair, scaled by `2^m`, is the Kraft sum of the pairs before it (R124, item 1). -/
theorem code_scaled_of_split (hm : m ≤ 15) {l i : Nat} {pre post : List (Nat × Nat)}
    (hsplit : sortedPairs p len = pre ++ (l, i) :: post) : (c.read i).toNat * 2 ^ (m - l) = pairSum m pre := by
  obtain ⟨c', e, -, hcode⟩ :=
    assignCodes_spec (fun i => length_le_of_assignCodes_ok h) (kraftScaled_le_of_assignCodes_ok h)
  cases h.symm.trans e
  obtain ⟨b, hread, hlt, hsum⟩ := hcode pre l i post hsplit
  obtain ⟨⟨hi, -⟩, rfl⟩ := active_of_split hsplit
  have hle := length_le_of_assignCodes_ok h hi
  have hpow : 2 ^ (len.read i).toNat ≤ 2 ^ 15 := Nat.pow_le_pow_right (by decide) (hle.trans hm)
  rw [hread, BitVec.toNat_ofNat, Nat.mod_eq_of_lt (by omega), hsum]

/-- The closed form of the codes (R124, item 1). -/
theorem code_closed_form (hm : m ≤ 15) {i : Nat} (hi : activeIn p len i) :
    (c.read i).toNat = ∑ j ∈ Finset.range p,
      if len.read j ≠ 0 ∧ ((len.read j).toNat < (len.read i).toNat ∨ ((len.read j).toNat = (len.read i).toNat ∧ j < i))
      then 2 ^ ((len.read i).toNat - (len.read j).toNat) else 0 := by
  obtain ⟨pre, post, hsplit⟩ := sortedPairs_split hi
  have hle := length_le_of_assignCodes_ok h hi.1
  have hscaled := code_scaled_of_split h hm hsplit
  rw [pairSum_before hsplit] at hscaled
  refine Nat.eq_of_mul_eq_mul_right (Nat.two_pow_pos (m - (len.read i).toNat)) (hscaled.trans ?_)
  rw [Finset.sum_mul]
  refine Finset.sum_congr rfl fun j _ => ?_
  split_ifs with hj
  · rw [← pow_add]
    congr 1
    omega
  · rw [Nat.zero_mul]

end

theorem maxlen_le_15 (s : State) : s.maxlen.toNat ≤ 15 := Nat.le_of_lt_succ s.maxlen.isLt

/-- Settles O32: the checks pass, and the closed form holds below the commit. -/
theorem ccaAssignsCanonicalCodes : Obligations.CcaAssignsCanonicalCodes := by
  unfold Obligations.CcaAssignsCanonicalCodes
  intro s hs hlen hkraft
  obtain ⟨c, hc, -⟩ := assignCodes_spec hlen hkraft
  refine ⟨_, exec_cca_of_ok hs hc, fun i hi => ?_, fun i hi hzero => ?_, fun i hi => ?_⟩
  · rw [read_replaceBelow_of_lt _ _ hi.1]
    exact code_closed_form hc (maxlen_le_15 s) hi
  · rw [read_replaceBelow_of_lt _ _ hi]
    exact code_eq_zero_of_assignCodes_ok hc fun hactive => hactive.2 hzero
  · exact read_replaceBelow_of_ge _ _ hi

/-- Once the checks pass, the length table alone decides the codes, `MAXLEN` does not (R124 item 6, R125). -/
theorem assignCodes_ok_unique {p m m' : Nat} {len len' : Memory 8} {c c' : Memory 16}
    (h : assignCodes p m len = .ok c) (h' : assignCodes p m' len' = .ok c')
    (hlen : ∀ i < p, len.read i = len'.read i) : c = c' := by
  have e := assignFrom_of_assignCodes_ok h
  rw [sortedPairs_congr hlen, assignFrom_of_assignCodes_ok h'] at e
  exact (Except.ok.inj e).symm

/-- `CCA` in a live block that ends live has assigned codes. -/
theorem assignCodes_ok_of_exec_cca {s t : State} (hs : s.err = 0) (h : exec .cca s = .next t) (ht : t.err = 0) :
    ∃ c, assignCodes (npad s) s.maxlen.toNat s.len = .ok c ∧
      t = { s with code := Memory.replaceBelow (npad s) c s.code, codev := true, dtabv := false } := by
  rcases hc : assignCodes (npad s) s.maxlen.toNat s.len with i | c
  · rw [exec_cca_of_error hs hc] at h
    cases h
    exact absurd ht (code_ne_zero .invalidLengthTable)
  · rw [exec_cca_of_ok hs hc] at h
    exact ⟨c, rfl, (Host.Outcome.next.inj h).symm⟩

/-- Settles O33: both blocks computed the same code table. -/
theorem codesDependOnLengthsAlone : Obligations.CodesDependOnLengthsAlone := by
  unfold Obligations.CodesDependOnLengthsAlone
  intro s s' t t' hs hs' hnsym hlen h h' ht ht' i hi
  have hnpad : npad s' = npad s := by rw [npad, npad, hnsym]
  obtain ⟨c, hc, rfl⟩ := assignCodes_ok_of_exec_cca hs h ht
  obtain ⟨c', hc', rfl⟩ := assignCodes_ok_of_exec_cca hs' h' ht'
  rw [hnpad] at hc'
  rw [read_replaceBelow_of_lt _ _ hi, read_replaceBelow_of_lt _ _ (hnpad.symm ▸ hi), assignCodes_ok_unique hc hc' hlen]

/-! ## The ranges of slots -/

/-- A value below the Kraft sum of the pairs is in the range of one of them. -/
theorem exists_split_of_lt_pairSum {m v : Nat} {ps : List (Nat × Nat)} (h : v < pairSum m ps) :
    ∃ pre l i post, ps = pre ++ (l, i) :: post ∧ pairSum m pre ≤ v ∧ v < pairSum m pre + 2 ^ (m - l) := by
  induction ps using List.reverseRecOn with
  | nil => exact absurd h (Nat.not_lt_zero v)
  | append_singleton ps a ih =>
    obtain ⟨l, i⟩ := a
    by_cases hv : v < pairSum m ps
    · obtain ⟨pre, l', i', post, rfl, hle, hlt⟩ := ih hv
      exact ⟨pre, l', i', post ++ [(l, i)], by simp, hle, hlt⟩
    · rw [pairSum_append, pairSum_cons, pairSum_nil, Nat.add_zero] at h
      exact ⟨ps, l, i, [], rfl, not_lt.1 hv, h⟩

section
variable {p m : Nat} {len : Memory 8} {c : Memory 16} (h : assignCodes p m len = .ok c) (hm : m ≤ 15)
include h hm

/-- The range of a pair's slots starts at the Kraft sum of the pairs before it (R131). -/
theorem covers_iff_of_split {l i v : Nat} {pre post : List (Nat × Nat)}
    (hsplit : sortedPairs p len = pre ++ (l, i) :: post) :
    Covers m len c i v ↔ pairSum m pre ≤ v ∧ v < pairSum m pre + 2 ^ (m - l) := by
  have hscaled := code_scaled_of_split h hm hsplit
  obtain ⟨⟨-, hne⟩, rfl⟩ := active_of_split hsplit
  rw [Covers, hscaled]
  exact and_iff_right hne

/-- The range of a pair ends before that of a later pair starts. -/
theorem not_covers_of_later {i j v : Nat} {pre post : List (Nat × Nat)}
    (hsplit : sortedPairs p len = pre ++ ((len.read i).toNat, i) :: post) (hmem : ((len.read j).toNat, j) ∈ post)
    (hvi : Covers m len c i v) : ¬Covers m len c j v := by
  obtain ⟨mid, rest, rfl⟩ := List.append_of_mem hmem
  have hsplit' : sortedPairs p len = (pre ++ ((len.read i).toNat, i) :: mid) ++ ((len.read j).toNat, j) :: rest := by
    rw [hsplit, List.append_assoc, List.cons_append]
  rw [covers_iff_of_split h hm hsplit] at hvi
  rw [covers_iff_of_split h hm hsplit', pairSum_append, pairSum_cons]
  dsimp only
  omega

/-- The ranges are disjoint (R124, item 4; R132). -/
theorem eq_of_covers {i j v : Nat} (hi : activeIn p len i) (hj : activeIn p len j) (hvi : Covers m len c i v)
    (hvj : Covers m len c j v) : i = j := by
  obtain ⟨pre, post, hsplit⟩ := sortedPairs_split hi
  have hmem : ((len.read j).toNat, j) ∈ pre ++ ((len.read i).toNat, i) :: post :=
    hsplit ▸ mem_sortedPairs.2 ⟨hj.1, hj.2, rfl⟩
  rcases List.mem_append.1 hmem with hpre | hpost
  · obtain ⟨pre', mid, rfl⟩ := List.append_of_mem hpre
    have hsplit' : sortedPairs p len = pre' ++ ((len.read j).toNat, j) :: (mid ++ ((len.read i).toNat, i) :: post) := by
      rw [hsplit, List.append_assoc, List.cons_append]
    exact absurd hvi (not_covers_of_later h hm hsplit' (by simp) hvj)
  · rcases List.mem_cons.1 hpost with he | hpost
    · exact (Prod.mk.inj he).2.symm
    · exact absurd hvj (not_covers_of_later h hm hsplit hpost hvi)

/-- Together the ranges are the first `2^m * K` slots, `K` the Kraft sum (R132). -/
theorem exists_covers_iff {v : Nat} : (∃ i, activeIn p len i ∧ Covers m len c i v) ↔ v < kraftScaled m p len := by
  rw [← pairSum_sortedPairs]
  constructor
  · rintro ⟨i, hi, hv⟩
    obtain ⟨pre, post, hsplit⟩ := sortedPairs_split hi
    obtain ⟨-, hlt⟩ := (covers_iff_of_split h hm hsplit).1 hv
    rw [hsplit, pairSum_append, pairSum_cons]
    dsimp only
    omega
  · intro hv
    obtain ⟨pre, l, i, post, hsplit, hrange⟩ := exists_split_of_lt_pairSum hv
    exact ⟨i, (active_of_split hsplit).1, (covers_iff_of_split h hm hsplit).2 hrange⟩

end

end Sys2Proof.Machine

/-! PROOFS. The encoder's and the decoder's tables (43_encoder.md R140, 44_decoder.md R150): each is built in two steps that
`HLB`, `CCA` and `HDT` do one by one; and the causes of the faults (60_exceptions.md R173). -/

namespace Sys2Proof.Machine

/-! ## `ENCB` -/

/-- A length table that `HLB` made passes both checks of `CCA` (R140). -/
theorem exists_assignCodes_ok_of_buildLengths_ok {n m sh p : Nat} {weight : Memory 32} {l : Memory 8} (hm : 1 ≤ m)
    (hm' : m < 256) (hp : n ≤ p) (h : buildLengths n m weight = .ok (l, sh)) : ∃ c, assignCodes p m l = .ok c := by
  obtain ⟨-, hle, hkraft⟩ := buildLengths_ok_guarantee hm hm' h
  obtain ⟨c, hc, -⟩ := assignCodes_spec (fun i (_ : i < p) => hle i) ((hkraft p hp).trans_le (huffmanKraft_le ..))
  exact ⟨c, hc⟩

section
variable {s : State} (hs : s.err = 0)
include hs

theorem exec_encb_of_ok {l : Memory 8} {sh : Nat} {c : Memory 16}
    (hl : buildLengths s.nsym.toNat s.maxlen.toNat s.weight = .ok (l, sh))
    (hc : assignCodes (npad s) s.maxlen.toNat l = .ok c) :
    exec .encb s = .next { s with
      len := Memory.replaceBelow (npad s) l s.len, code := Memory.replaceBelow (npad s) c s.code,
      shrink := BitVec.ofNat 6 sh, codev := true, dtabv := false } := by
  change Host.Outcome.next (ifLive s (encoderEffect s)) = _
  simp only [ifLive_of_live hs, encoderEffect, hl, hc]
  rfl

theorem exec_encb_of_error {a : Nat} (h : buildLengths s.nsym.toNat s.maxlen.toNat s.weight = .error a) :
    exec .encb s = .next { s with err := 5, errinfo := BitVec.ofNat 32 a } := by
  change Host.Outcome.next (ifLive s (encoderEffect s)) = _
  rw [ifLive_of_live hs, encoderEffect, h]
  rfl

end

/-- Settles O37: `CCA` reads the committed length table below `NPAD` only, and that table passes its checks. -/
theorem encbEqualsHlbThenCca : Obligations.EncbEqualsHlbThenCca := by
  unfold Obligations.EncbEqualsHlbThenCca
  intro s t hs hm h
  refine ⟨fun ht => ?_, fun ht => ?_⟩
  · obtain ⟨l, sh, hl, rfl⟩ := buildLengths_ok_of_exec_hlb hs h ht
    obtain ⟨c, hc⟩ := exists_assignCodes_ok_of_buildLengths_ok hm (maxlen_lt_256 s) (nsym_le_npad s) hl
    have hc' := (assignCodes_congr fun i => read_replaceBelow_of_lt l s.len).trans hc
    rw [exec_encb_of_ok hs hl hc]
    exact (exec_cca_of_ok (s := { s with
      len := Memory.replaceBelow (npad s) l s.len, shrink := BitVec.ofNat 6 sh, codev := false, dtabv := false })
      hs hc').symm
  · rcases hb : buildLengths s.nsym.toNat s.maxlen.toNat s.weight with a | ⟨l, sh⟩
    · rw [exec_encb_of_error hs hb, ← exec_hlb_of_error hs hb, h]
    · rw [exec_hlb_of_ok hs hb] at h
      cases h
      exact absurd hs ht

/-- Settles O38: `HLB` succeeds (R110), its table passes the checks of `CCA`, and both commit below `NPAD`. -/
theorem encbCompletesWhenFeasible : Obligations.EncbCompletesWhenFeasible := by
  unfold Obligations.EncbCompletesWhenFeasible
  intro s hs hm hfeasible
  obtain ⟨l, sh, hl⟩ := exists_buildLengths_ok hfeasible
  obtain ⟨c, hc⟩ := exists_assignCodes_ok_of_buildLengths_ok hm (maxlen_lt_256 s) (nsym_le_npad s) hl
  obtain ⟨hactive, -⟩ := buildLengths_ok_guarantee hm (maxlen_lt_256 s) hl
  refine ⟨_, _, _, exec_encb_of_ok hs hl hc, fun i hi => ?_, fun i hi => ?_⟩
  · rw [read_replaceBelow_of_lt _ _ hi]
    exact hactive i
  · exact ⟨read_replaceBelow_of_ge _ _ hi, read_replaceBelow_of_ge _ _ hi⟩

/-! ## `HDT` and `DECB` -/

section
variable {s : State} (hs : s.err = 0)
include hs

theorem exec_hdt_of_codev (hc : s.codev = true) :
    exec .hdt s = .next { s with
      dtab := Memory.replaceBelow (2 ^ s.maxlen.toNat) (buildTable (npad s) s.maxlen.toNat s.len s.code) s.dtab,
      dtabv := true } := by
  change Host.Outcome.next (ifLive s (tableEffect s)) = _
  rw [ifLive_of_live hs, tableEffect, if_pos hc]
  rfl

theorem exec_decb_of_ok {c : Memory 16} (h : assignCodes (npad s) s.maxlen.toNat s.len = .ok c) :
    exec .decb s = .next { s with
      code := Memory.replaceBelow (npad s) c s.code,
      dtab := Memory.replaceBelow (2 ^ s.maxlen.toNat) (buildTable (npad s) s.maxlen.toNat s.len c) s.dtab,
      codev := true, dtabv := true } := by
  change Host.Outcome.next (ifLive s (decoderEffect s)) = _
  rw [ifLive_of_live hs, decoderEffect, h]
  rfl

theorem exec_decb_of_error {i : Nat} (h : assignCodes (npad s) s.maxlen.toNat s.len = .error i) :
    exec .decb s = .next { s with err := 6, errinfo := BitVec.ofNat 32 i } := by
  change Host.Outcome.next (ifLive s (decoderEffect s)) = _
  rw [ifLive_of_live hs, decoderEffect, h]
  rfl

end

/-- Settles O41: `HDT` reads the committed code table below `NPAD` only. -/
theorem decbEqualsCcaThenHdt : Obligations.DecbEqualsCcaThenHdt := by
  unfold Obligations.DecbEqualsCcaThenHdt
  intro s t hs h
  refine ⟨fun ht => ?_, fun ht => ?_⟩
  · obtain ⟨c, hc, rfl⟩ := assignCodes_ok_of_exec_cca hs h ht
    have htable : buildTable (npad s) s.maxlen.toNat s.len (Memory.replaceBelow (npad s) c s.code) =
        buildTable (npad s) s.maxlen.toNat s.len c :=
      buildTable_congr (fun _ _ => rfl) fun i => read_replaceBelow_of_lt c s.code
    refine ⟨_, exec_hdt_of_codev hs rfl, ?_, hs, rfl, rfl⟩
    rw [exec_decb_of_ok hs hc, ← htable]
    rfl
  · rcases hc : assignCodes (npad s) s.maxlen.toNat s.len with i | c
    · rw [exec_decb_of_error hs hc, ← exec_cca_of_error hs hc, h]
    · rw [exec_cca_of_ok hs hc] at h
      cases h
      exact absurd hs ht

/-- Settles O42: the checks of `CCA` are all that `DECB` has. -/
theorem decbCompletesOnALegalTable : Obligations.DecbCompletesOnALegalTable := by
  unfold Obligations.DecbCompletesOnALegalTable
  intro s hs hlen hkraft
  obtain ⟨c, hc, -⟩ := assignCodes_spec hlen hkraft
  refine ⟨_, _, exec_decb_of_ok hs hc, fun i hi => ?_, fun v hv => ?_⟩
  · exact read_replaceBelow_of_ge _ _ hi
  · exact read_replaceBelow_of_ge _ _ hv

/-! ## The causes of the faults -/

/-- The address of a bad table access as a number (R26, R66). -/
theorem addr_zeroExtend (r : BitVec 4) (k : BitVec 16) :
    (addr r k).zeroExtend 32 = BitVec.ofNat 32 (r.toNat * 65536 + k.toNat) := by
  rw [zeroExtend_eq_ofNat, addr_toNat]

/-- The length builder fails only with its active count, when none of the 33 attempts fits (R108). -/
theorem buildLengths_error {n m a : Nat} {weight : Memory 32} (h : buildLengths n m weight = .error a) :
    a = (activeSymbols n weight).length ∧
      ∀ k ≤ 32, fits m (attempt (activeSymbols n weight) weight k) = false := by
  rcases buildLengths_cases n m weight with ⟨-, e⟩ | ⟨_, -, e⟩ | ⟨-, _, _, -, e⟩ | ⟨-, hnone, e⟩ <;>
    cases h.symm.trans e
  exact ⟨rfl, fun k hk => retryFrom_eq_none.1 hnone k (Nat.zero_le k) (by omega)⟩

/-- The code assigner fails only at an active symbol, when a length or the Kraft sum is too large (R122, R123). -/
theorem assignCodes_error {p m k : Nat} {len : Memory 8} (h : assignCodes p m len = .error k) :
    activeIn p len k ∧ (m < (len.read k).toNat ∨ 2 ^ m < kraftScaled m p len) := by
  rcases assignCodes_cases p m len with ⟨i, ho, e⟩ | ⟨ho, -⟩
  · cases h.symm.trans e
    obtain ⟨hi, hlong, -⟩ := overlong_eq_some ho
    have hne : len.read k ≠ 0 := BitVec.toNat_ne_iff_ne.1 (Nat.ne_of_gt ((Nat.zero_le m).trans_lt hlong))
    exact ⟨⟨hi, hne⟩, .inl hlong⟩
  · have hlen := overlong_eq_none.1 ho
    by_cases hkraft : kraftScaled m p len ≤ 2 ^ m
    · obtain ⟨c, hc, -⟩ := assignCodes_spec hlen hkraft
      cases h.symm.trans hc
    · obtain ⟨_, l, i, _, hsplit, e, -⟩ := assignCodes_of_oversubscribed hlen (not_le.1 hkraft)
      cases h.symm.trans e
      exact ⟨(active_of_split hsplit).1, .inr (not_le.1 hkraft)⟩

/-- What R173 says of a fault of instruction `i` with code `err` and record `errinfo`: its row, its cause, its record. -/
def FaultRow (i : Instr) (s : State) (err : BitVec 8) (errinfo : Word) : Prop :=
  (err = 2 ∧ ∃ (k : BitVec 16) (r : Nat), errinfo = BitVec.ofNat 32 (r * 65536 + k.toNat) ∧
      ((Config.nCap ≤ k.toNat ∧ ((r = 1 ∧ (i = .rdWeight k ∨ ∃ v, i = .wrWeight k v)) ∨
          (r = 2 ∧ (i = .rdLen k ∨ ∃ v, i = .wrLen k v)) ∨ (r = 3 ∧ i = .rdCode k))) ∨
        (32768 ≤ k.toNat ∧ r = 4 ∧ i = .rdDtab k))) ∨
    (err = 3 ∧ ∃ v, errinfo = v ∧ ((i = .wrNsym v ∧ Config.nCap < v.toNat) ∨
      (i = .wrMaxlen v ∧ ¬(1 ≤ v.toNat ∧ v.toNat ≤ 15)) ∨ ∃ k, i = .wrLen k v ∧ 256 ≤ v.toNat)) ∨
    (err = 4 ∧ ((i = .hdt ∧ s.codev = false ∧ errinfo = 3) ∨
      (∃ sym : BitVec 16, i = .enc sym ∧ s.codev = false ∧ errinfo = BitVec.ofNat 32 (sym.toNat * 65536 + 6)) ∨
      (i = .dec ∧ s.dtabv = false ∧ errinfo = 7))) ∨
    (err = 5 ∧ (i = .hlb ∨ i = .encb) ∧
      errinfo = BitVec.ofNat 32 (activeSymbols s.nsym.toNat s.weight).length ∧
      ∀ k ≤ 32, fits s.maxlen.toNat (attempt (activeSymbols s.nsym.toNat s.weight) s.weight k) = false) ∨
    (err = 6 ∧ (i = .cca ∨ i = .decb) ∧ ∃ k, activeIn (npad s) s.len k ∧ errinfo = BitVec.ofNat 32 k ∧
      (s.maxlen.toNat < (s.len.read k).toNat ∨ 2 ^ s.maxlen.toNat < kraftScaled s.maxlen.toNat (npad s) s.len)) ∨
    (err = 7 ∧ ∃ sym : BitVec 16, i = .enc sym ∧ s.codev = true ∧ errinfo = BitVec.ofNat 32 sym.toNat ∧
      (npad s ≤ sym.toNat ∨ s.len.read sym.toNat = 0)) ∨
    (err = 8 ∧ i = .dec ∧ s.dtabv = true ∧ s.src.length - s.srcpos < s.maxlen.toNat ∧
      errinfo = BitVec.ofNat 32 (s.src.length - s.srcpos)) ∨
    (err = 9 ∧ i = .dec ∧ s.dtabv = true ∧ ∃ v, v = srcPeek s.maxlen.toNat s ∧ errinfo = BitVec.ofNat 32 v ∧
      slotValid (s.dtab.read v) = false)

section
variable {i : Instr} {s : State}

/-- Code 2: an index outside `WEIGHT`, `LEN` or `CODE`. -/
theorem faultRow_table {k : BitVec 16} {r : BitVec 4} (hk : ¬inTable k)
    (hi : (r.toNat = 1 ∧ (i = .rdWeight k ∨ ∃ v, i = .wrWeight k v)) ∨
      (r.toNat = 2 ∧ (i = .rdLen k ∨ ∃ v, i = .wrLen k v)) ∨ (r.toNat = 3 ∧ i = .rdCode k)) :
    FaultRow i s 2 ((addr r k).zeroExtend 32) :=
  .inl ⟨rfl, k, r.toNat, addr_zeroExtend r k, .inl ⟨not_lt.1 hk, hi⟩⟩

/-- Code 3: a value out of range. -/
theorem faultRow_value {v : Word} (h : (i = .wrNsym v ∧ Config.nCap < v.toNat) ∨
    (i = .wrMaxlen v ∧ ¬(1 ≤ v.toNat ∧ v.toNat ≤ 15)) ∨ ∃ k, i = .wrLen k v ∧ 256 ≤ v.toNat) : FaultRow i s 3 v :=
  .inr (.inl ⟨rfl, v, rfl, h⟩)

/-- Code 4: the table that is needed is not built. -/
theorem faultRow_notReady {info : Word} (h : (i = .hdt ∧ s.codev = false ∧ info = 3) ∨
    (∃ sym : BitVec 16, i = .enc sym ∧ s.codev = false ∧ info = BitVec.ofNat 32 (sym.toNat * 65536 + 6)) ∨
    (i = .dec ∧ s.dtabv = false ∧ info = 7)) : FaultRow i s 4 info :=
  .inr (.inr (.inl ⟨rfl, h⟩))

/-- Code 5: no attempt fits. -/
theorem faultRow_lengths {a : Nat} (hi : i = .hlb ∨ i = .encb)
    (h : buildLengths s.nsym.toNat s.maxlen.toNat s.weight = .error a) : FaultRow i s 5 (BitVec.ofNat 32 a) := by
  obtain ⟨rfl, hfits⟩ := buildLengths_error h
  exact .inr (.inr (.inr (.inl ⟨rfl, hi, rfl, hfits⟩)))

/-- Code 6: a check of the length table fails. -/
theorem faultRow_codes {k : Nat} (hi : i = .cca ∨ i = .decb)
    (h : assignCodes (npad s) s.maxlen.toNat s.len = .error k) : FaultRow i s 6 (BitVec.ofNat 32 k) := by
  obtain ⟨hactive, hcheck⟩ := assignCodes_error h
  exact .inr (.inr (.inr (.inr (.inl ⟨rfl, hi, k, hactive, rfl, hcheck⟩))))

/-- One row after another; the second fault of `ENCB` needs `MAXLEN = 0` (R140, log 7). -/
theorem FaultCause.row {f : FaultName} {info : Word} (h : FaultCause s i f info) (hm : 1 ≤ s.maxlen.toNat) :
    FaultRow i s f.code info := by
  cases h with
  | rdWeight hk => exact faultRow_table hk (by simp)
  | wrWeight hk => exact faultRow_table hk (by simp)
  | rdLen hk => exact faultRow_table hk (by simp)
  | wrLen hk => exact faultRow_table hk (by simp)
  | rdCode hk => exact faultRow_table hk (by simp)
  | rdDtab hk => exact .inl ⟨rfl, _, 4, addr_zeroExtend 4 _, .inr ⟨not_lt.1 hk, rfl, rfl⟩⟩
  | nsymValue hv => exact faultRow_value (.inl ⟨rfl, not_le.1 hv⟩)
  | maxlenValue hv => exact faultRow_value (.inr (.inl ⟨rfl, hv⟩))
  | lenValue hv =>
    rw [legalLen_iff] at hv
    exact faultRow_value (.inr (.inr ⟨_, rfl, by omega⟩))
  | hlb hb => exact faultRow_lengths (.inl rfl) hb
  | encbLengths hb => exact faultRow_lengths (.inr rfl) hb
  | encbCodes hl hc =>
    obtain ⟨c, hok⟩ := exists_assignCodes_ok_of_buildLengths_ok hm (maxlen_lt_256 s) (nsym_le_npad s) hl
    cases hc.symm.trans hok
  | cca hc => exact faultRow_codes (.inl rfl) hc
  | decb hc => exact faultRow_codes (.inr rfl) hc
  | hdt hc => exact faultRow_notReady (.inl ⟨rfl, hc, rfl⟩)
  | encNotReady hc => exact faultRow_notReady (.inr (.inl ⟨_, rfl, hc, commandWord_eq_ofNat _ 6⟩))
  | decNotReady hd => exact faultRow_notReady (.inr (.inr ⟨rfl, hd, rfl⟩))
  | encSymbol hc h =>
    refine .inr (.inr (.inr (.inr (.inr (.inl ⟨rfl, _, rfl, hc, zeroExtend_eq_ofNat _, h.imp_right ?_⟩)))))
    exact fun hzero => BitVec.toNat_inj.1 hzero
  | decTruncated hd hav => exact .inr (.inr (.inr (.inr (.inr (.inr (.inl ⟨rfl, rfl, hd, hav, rfl⟩))))))
  | decCode hd hv => exact .inr (.inr (.inr (.inr (.inr (.inr (.inr ⟨rfl, rfl, hd, _, rfl, rfl, hv⟩))))))

end

/-- Settles O20: a faulted answer of a live block is one of the instruction's fault rows. -/
theorem eachFaultHasItsCause : Obligations.EachFaultHasItsCause := by
  unfold Obligations.EachFaultHasItsCause
  intro i s t hs hm h ht
  by_cases hi : ∃ w, i = .wrCmd w
  · exact .inl hi
  · refine .inr ?_
    cases exec_answers (not_exists.1 hi) h with
    | ignored hne => exact absurd hs hne
    | cleared => exact absurd rfl ht
    | replied => exact absurd hs ht
    | done _ _ hd => exact absurd (hd.err_eq.trans hs) ht
    | raised _ _ hf => exact hf.row hm
    | badRead _ _ hf => exact hf.row hm

end Sys2Proof.Machine

/-! PROOFS. What holds in a legal state while the flags are set (10_state.md R40): no codeword begins another
(41_code_assigner.md R124), the decode table names them (42_decode_table.md R132), and `DEC` inverts them (44_decoder.md
R154). -/

namespace Sys2Proof.Machine

/-! ## Codewords and ranges of slots -/

theorem covers_congr {m i v : Nat} {len : Memory 8} {code code' : Memory 16} (h : code.read i = code'.read i) :
    Covers m len code i v ↔ Covers m len code' i v := by
  rw [Covers, Covers, h]

namespace Inv

section
variable {s : State} (h : Inv s) (hc : s.codev = true)
include h hc

/-- While `CODEV = 1` the ranges of slots are disjoint (R124, R132). -/
theorem eq_of_covers {i j v : Nat} (hi : activeIn (npad s) s.len i) (hj : activeIn (npad s) s.len j)
    (hvi : Covers s.maxlen.toNat s.len s.code i v) (hvj : Covers s.maxlen.toNat s.len s.code j v) : i = j := by
  obtain ⟨c, hok, hread⟩ := h.codes hc
  rw [covers_congr (hread i hi.1)] at hvi
  rw [covers_congr (hread j hj.1)] at hvj
  exact Machine.eq_of_covers hok (maxlen_le_15 s) hi hj hvi hvj

/-- While `CODEV = 1` the ranges are the first `2^MAXLEN * K` slots (R132). -/
theorem exists_covers_iff {v : Nat} :
    (∃ i, activeIn (npad s) s.len i ∧ Covers s.maxlen.toNat s.len s.code i v) ↔
      v < kraftScaled s.maxlen.toNat (npad s) s.len := by
  obtain ⟨c, hok, hread⟩ := h.codes hc
  rw [← Machine.exists_covers_iff hok (maxlen_le_15 s)]
  exact exists_congr fun i => and_congr_right fun hi => covers_congr (hread i hi.1)

/-- A codeword begins the bit pattern of a slot iff the slot is in its range (R131). -/
theorem codeword_prefix_iff {i v : Nat} (hi : activeIn (npad s) s.len i) (hv : v < 2 ^ s.maxlen.toNat) :
    codeword s i <+: bitsMsbFirst s.maxlen.toNat v ↔ Covers s.maxlen.toNat s.len s.code i v := by
  obtain ⟨-, hle⟩ := h.length_bounds_of_active hc hi
  rw [codeword, prefix_bitsMsbFirst hle (h.codes.code_lt hc hi) hv, Covers]
  exact (and_iff_right hi.2).symm

/-- Every codeword begins the pattern of a slot: the first of its range. -/
theorem exists_slot_of_codeword {i : Nat} (hi : activeIn (npad s) s.len i) :
    ∃ v < 2 ^ s.maxlen.toNat, codeword s i <+: bitsMsbFirst s.maxlen.toNat v := by
  obtain ⟨-, hle⟩ := h.length_bounds_of_active hc hi
  have hlt := (lt_iff_scaled hle).1 (h.codes.code_lt hc hi)
  refine ⟨_, hlt, (h.codeword_prefix_iff hc hi hlt).2 ⟨hi.2, le_rfl, ?_⟩⟩
  exact Nat.lt_add_of_pos_right (Nat.two_pow_pos _)

/-- No codeword begins another: a slot that begins with both would be in both ranges (R124, item 4). -/
theorem eq_of_codeword_prefix {i j : Nat} (hi : activeIn (npad s) s.len i) (hj : activeIn (npad s) s.len j)
    (hij : codeword s i <+: codeword s j) : i = j := by
  obtain ⟨v, hv, hpre⟩ := h.exists_slot_of_codeword hc hj
  exact h.eq_of_covers hc hi hj ((h.codeword_prefix_iff hc hi hv).1 (hij.trans hpre))
    ((h.codeword_prefix_iff hc hj hv).1 hpre)

/-- Two codewords that begin the same bits are those of one symbol. -/
theorem eq_of_common_prefix {i j : Nat} {bs : List Bool} (hi : activeIn (npad s) s.len i)
    (hj : activeIn (npad s) s.len j) (hpi : codeword s i <+: bs) (hpj : codeword s j <+: bs) : i = j := by
  rcases List.prefix_or_prefix_of_prefix hpi hpj with hij | hji
  · exact h.eq_of_codeword_prefix hc hi hj hij
  · exact (h.eq_of_codeword_prefix hc hj hi hji).symm

/-- `HDT` gives a slot in the range of an active symbol to that symbol (R131). -/
theorem read_buildTable_of_covers {i v : Nat} (hi : activeIn (npad s) s.len i)
    (hv : Covers s.maxlen.toNat s.len s.code i v) :
    (buildTable (npad s) s.maxlen.toNat s.len s.code).read v = validSlot (BitVec.ofNat 16 i) := by
  rcases read_buildTable_cases (npad s) s.maxlen.toNat s.len s.code v with ⟨hnone, -⟩ | ⟨j, hj, hcov, -, hread⟩
  · exact absurd hv (hnone i hi.1)
  · rw [hread, h.eq_of_covers hc ⟨hj, hcov.1⟩ hi hcov hv]

end

end Inv

/-- A slot in no range is `(0, 0)` (R130). -/
theorem read_buildTable_of_not_covers {p m v : Nat} {len : Memory 8} {code : Memory 16}
    (h : ∀ i, activeIn p len i → ¬Covers m len code i v) : (buildTable p m len code).read v = 0 := by
  rcases read_buildTable_cases p m len code v with ⟨-, hread⟩ | ⟨i, hi, hcov, -⟩
  · exact hread
  · exact absurd hcov (h i ⟨hi, hcov.1⟩)

/-- The number of an active symbol fits in a slot (R4, R35). -/
theorem Inv.toNat_ofNat_of_active {s : State} (h : Inv s) {i : Nat} (hi : activeIn (npad s) s.len i) :
    (BitVec.ofNat 16 i).toNat = i := by
  have hp := npad_le_of_registersLegal h.registers
  rw [BitVec.toNat_ofNat]
  exact Nat.mod_eq_of_lt (hi.1.trans_le hp)

/-- Settles O34: the codes fit, and the ranges of two symbols are disjoint. -/
theorem codewordsArePrefixFree : Obligations.CodewordsArePrefixFree := by
  unfold Obligations.CodewordsArePrefixFree
  intro s h hc i hi
  exact ⟨h.codes.code_lt hc hi, fun j hj hne hpre => hne (h.eq_of_codeword_prefix hc hi hj hpre)⟩

/-- Settles O35: a codeword begins a slot's pattern iff the slot is in its range. -/
theorem hdtFillsEverySlot : Obligations.HdtFillsEverySlot := by
  unfold Obligations.HdtFillsEverySlot
  intro s h hs hc
  refine ⟨_, exec_hdt_of_codev hs hc, fun v hv => ⟨fun i hi hpre => ?_, fun hnone => ?_⟩, fun v hv => ?_⟩
  · rw [read_replaceBelow_of_lt _ _ hv, h.read_buildTable_of_covers hc hi ((h.codeword_prefix_iff hc hi hv).1 hpre)]
    exact ⟨slotValid_validSlot _, by rw [slotSym_validSlot, h.toNat_ofNat_of_active hi]⟩
  · rw [read_replaceBelow_of_lt _ _ hv]
    exact read_buildTable_of_not_covers fun i hi hcov => hnone i hi ((h.codeword_prefix_iff hc hi hv).2 hcov)
  · exact read_replaceBelow_of_ge _ _ hv

/-! ## The slots of a current decode table -/

namespace Inv

section
variable {s : State} (h : Inv s) (hd : s.dtabv = true)
include h hd

/-- While `DTABV = 1` a slot in the range of an active symbol names it (R132). -/
theorem read_dtab_of_covers {i v : Nat} (hv : v < 2 ^ s.maxlen.toNat) (hi : activeIn (npad s) s.len i)
    (hcov : Covers s.maxlen.toNat s.len s.code i v) : s.dtab.read v = validSlot (BitVec.ofNat 16 i) :=
  (h.table hd v hv).trans (h.read_buildTable_of_covers (h.codev_of_dtabv hd) hi hcov)

/-- While `DTABV = 1` a valid slot is in the range of the active symbol it names (R132). -/
theorem covers_of_slotValid {v : Nat} (hv : v < 2 ^ s.maxlen.toNat) (hvalid : slotValid (s.dtab.read v) = true) :
    Covers s.maxlen.toNat s.len s.code (slotSym (s.dtab.read v)).toNat v := by
  rw [h.table hd v hv] at hvalid ⊢
  exact (covers_slotSym_of_slotValid (npad_le_of_registersLegal h.registers) hvalid).2

/-- While `DTABV = 1` the valid slots are the first `2^MAXLEN * K` (R132). -/
theorem slotValid_iff {v : Nat} (hv : v < 2 ^ s.maxlen.toNat) :
    slotValid (s.dtab.read v) = true ↔ v < kraftScaled s.maxlen.toNat (npad s) s.len := by
  rw [← h.exists_covers_iff (h.codev_of_dtabv hd)]
  constructor
  · exact fun hvalid => ⟨_, h.activeIn_slotSym hd hv hvalid, h.covers_of_slotValid hd hv hvalid⟩
  · rintro ⟨i, hi, hcov⟩
    rw [h.read_dtab_of_covers hd hv hi hcov]
    exact slotValid_validSlot _

end

end Inv

/-- Settles O36: the ranges tile the first slots. -/
theorem validSlotsAreTheFirstKraftMany : Obligations.ValidSlotsAreTheFirstKraftMany := by
  unfold Obligations.ValidSlotsAreTheFirstKraftMany
  exact fun s h hd v hv => h.slotValid_iff hd hv

/-- Settles O45: with Kraft sum 1 every slot is valid. -/
theorem completeCodeNeverInvalid : Obligations.CompleteCodeNeverInvalid := by
  unfold Obligations.CompleteCodeNeverInvalid
  intro s t h hs hd hkraft ht
  have hvalid : slotValid (peekedSlot s) = true := (h.slotValid_iff hd srcPeek_lt).2 (hkraft ▸ srcPeek_lt)
  by_cases hav : s.maxlen.toNat ≤ avail s
  · rw [exec_dec_of_valid hs hd hav hvalid] at ht
    cases ht
    exact .inl hs
  · rw [exec_dec_of_truncated hs hd (not_le.1 hav)] at ht
    cases ht
    exact .inr rfl

/-! ## The bits at the cursor -/

/-- The value of a bit sequence, bit by bit (R6). -/
theorem bitsValue_eq_sum (bs : List Bool) :
    bitsValue bs = ∑ i ∈ Finset.range bs.length, (bs.getD i false).toNat * 2 ^ (bs.length - 1 - i) := by
  induction bs with
  | nil => rfl
  | cons b bs ih =>
    rw [bitsValue_cons, List.length_cons, Finset.sum_range_succ', ih, Nat.add_comm]
    refine congrArg₂ (· + ·) (Finset.sum_congr rfl fun i _ => ?_) rfl
    have hi : bs.length + 1 - 1 - (i + 1) = bs.length - 1 - i := by omega
    rw [hi, List.getD_cons_succ]

/-- The bits a peek of `n` takes, when so many are available (R63). -/
theorem length_take_at_cursor {s : State} {n : Nat} (hav : n ≤ avail s) :
    ((s.src.drop s.srcpos).take n).length = n := by
  rw [List.length_take, List.length_drop]
  exact Nat.min_eq_left hav

/-- Settles O43: the sum over the bits taken at the cursor. -/
theorem srcPeekIsTheValueOfTheNextBits : Obligations.SrcPeekIsTheValueOfTheNextBits := by
  unfold Obligations.SrcPeekIsTheValueOfTheNextBits
  intro s n _ _ hav
  refine ⟨?_, srcPeek_lt⟩
  rw [srcPeek_eq, bitsValue_eq_sum, length_take_at_cursor hav]
  refine Finset.sum_congr rfl fun i hi => ?_
  have hbit : ((s.src.drop s.srcpos).take n).getD i false = s.src.getD (s.srcpos + i) false := by
    rw [List.getD_eq_getElem?_getD, List.getElem?_take_of_lt (Finset.mem_range.1 hi), List.getElem?_drop,
      List.getD_eq_getElem?_getD]
  rw [hbit]

/-- The peeked value's bits are those at the cursor (R63). -/
theorem bitsMsbFirst_srcPeek {s : State} {n : Nat} (hav : n ≤ avail s) :
    bitsMsbFirst n (srcPeek n s) = (s.src.drop s.srcpos).take n := by
  have := bitsMsbFirst_bitsValue ((s.src.drop s.srcpos).take n)
  rwa [length_take_at_cursor hav] at this

theorem length_codeword (s : State) (i : Nat) : (codeword s i).length = (s.len.read i).toNat := length_bitsMsbFirst ..

namespace Inv

section
variable {s : State} (h : Inv s) (hd : s.dtabv = true) (hav : s.maxlen.toNat ≤ avail s)
include h hd hav

/-- The codeword of an active symbol is at the cursor iff its range has the slot that `DEC` looks up (R151). -/
theorem codeword_at_cursor_iff {i : Nat} (hi : activeIn (npad s) s.len i) :
    codeword s i <+: s.src.drop s.srcpos ↔
      Covers s.maxlen.toNat s.len s.code i (srcPeek s.maxlen.toNat s) := by
  have hc := h.codev_of_dtabv hd
  have hle : (codeword s i).length ≤ s.maxlen.toNat := by
    rw [length_codeword]
    exact (h.length_bounds_of_active hc hi).2
  rw [← h.codeword_prefix_iff hc hi srcPeek_lt, bitsMsbFirst_srcPeek hav, List.prefix_take_iff]
  exact (and_iff_left hle).symm

end

/-- R154: `DEC` returns the symbol whose codeword is at the cursor and skips the codeword. -/
theorem exec_dec_of_codeword {s : State} (h : Inv s) (hs : s.err = 0) (hd : s.dtabv = true)
    (hav : s.maxlen.toNat ≤ avail s) {sym : BitVec 16} (hi : activeIn (npad s) s.len sym.toNat)
    (hpre : codeword s sym.toNat <+: s.src.drop s.srcpos) :
    exec .dec s = .next { s with result := sym, srcpos := s.srcpos + (s.len.read sym.toNat).toNat } := by
  have hslot : peekedSlot s = validSlot sym := by
    have hread := h.read_dtab_of_covers hd srcPeek_lt hi ((h.codeword_at_cursor_iff hd hav hi).1 hpre)
    rwa [BitVec.ofNat_toNat, BitVec.setWidth_eq] at hread
  rw [exec_dec_of_valid hs hd hav (hslot ▸ slotValid_validSlot sym), hslot, slotSym_validSlot]
  rfl

/-- A successful `DEC` has found the codeword of an active symbol at the cursor (R151, R154). -/
theorem codeword_of_exec_dec {s t : State} (h : Inv s) (hs : s.err = 0) (ht : exec .dec s = .next t)
    (hok : t.err = 0) :
    s.dtabv = true ∧ ∃ sym : BitVec 16, activeIn (npad s) s.len sym.toNat ∧
      codeword s sym.toNat <+: s.src.drop s.srcpos ∧
      t = { s with result := sym, srcpos := s.srcpos + (s.len.read sym.toNat).toNat } := by
  cases exec_answers (i := .dec) nofun ht with
  | ignored hne => exact absurd hs hne
  | cleared hclr => cases hclr
  | raised => exact absurd hok (code_ne_zero _)
  | replied _ hr => cases hr.choose_spec
  | badRead _ hr => cases hr.choose_spec
  | done _ _ hdone =>
    cases hdone with
    | dec hd hav hv =>
      have hi := h.activeIn_slotSym hd srcPeek_lt hv
      have hcov := h.covers_of_slotValid hd srcPeek_lt hv
      exact ⟨hd, _, hi, (h.codeword_at_cursor_iff hd hav hi).2 hcov, rfl⟩

end Inv

/-- Settles O47: the slot that is looked up names the symbol. -/
theorem decInvertsTheCodeword : Obligations.DecInvertsTheCodeword := by
  unfold Obligations.DecInvertsTheCodeword
  exact fun s sym h hs hd hi hav hpre => h.exec_dec_of_codeword hs hd hav hi hpre

/-- Two legal blocks with the same length table have the same codewords, whatever their `MAXLEN` (R125). -/
theorem codeword_eq_of_same_lengths {s s' : State} (h : Inv s) (h' : Inv s') (hc : s.codev = true)
    (hc' : s'.codev = true) (hnpad : npad s = npad s') (hlen : ∀ i < npad s, s.len.read i = s'.len.read i) {i : Nat}
    (hi : i < npad s) : codeword s i = codeword s' i := by
  obtain ⟨c, hok, hread⟩ := h.codes hc
  obtain ⟨c', hok', hread'⟩ := h'.codes hc'
  rw [← hnpad] at hok' hread'
  rw [codeword, codeword, hlen i hi, hread i hi, hread' i hi, assignCodes_ok_unique hok hok' hlen]

/-- Settles O46: both symbols' codewords are at the common cursor. -/
theorem decodedSymbolIndependentOfMaxlen : Obligations.DecodedSymbolIndependentOfMaxlen := by
  unfold Obligations.DecodedSymbolIndependentOfMaxlen
  intro s s' t t' h h' hs hs' hnsym hlen hsrc hsrcpos ht ht' hok hok'
  have hnpad : npad s = npad s' := by rw [npad, npad, hnsym]
  obtain ⟨hd, sym, hi, hpre, rfl⟩ := h.codeword_of_exec_dec hs ht hok
  obtain ⟨hd', sym', hi', hpre', rfl⟩ := h'.codeword_of_exec_dec hs' ht' hok'
  have hc := h.codev_of_dtabv hd
  have hlt : sym'.toNat < npad s := hnpad ▸ hi'.1
  have hactive : activeIn (npad s) s.len sym'.toNat := ⟨hlt, by rw [hlen _ hlt]; exact hi'.2⟩
  rw [← codeword_eq_of_same_lengths h h' hc (h'.codev_of_dtabv hd') hnpad hlen hlt, ← hsrc, ← hsrcpos] at hpre'
  have hsym : sym = sym' := BitVec.eq_of_toNat_eq (h.eq_of_common_prefix hc hi hactive hpre hpre')
  subst hsym
  refine ⟨rfl, ?_⟩
  change s.srcpos + _ = s'.srcpos + _
  rw [hsrcpos, hlen _ hi.1]

/-! ## Streams -/

theorem execAll_cons {i : Instr} {rest : List Instr} {s t : State} (h : exec i s = .next t) :
    execAll (i :: rest) s = execAll rest t := by
  rw [execAll, h]

/-- Settles O48: each `ENC` puts its codeword and leaves all that the next one looks at. -/
theorem encodingAListPutsItsCodewords : Obligations.EncodingAListPutsItsCodewords := by
  unfold Obligations.EncodingAListPutsItsCodewords
  intro s syms hs hc hactive
  induction syms generalizing s with
  | nil => simp [execAll]
  | cons y syms ih =>
    obtain ⟨⟨hlt, hne⟩, hrest⟩ := List.forall_mem_cons.1 hactive
    have hput := exec_enc_of_active hs hc hlt (BitVec.toNat_ne_iff_ne.2 hne)
    have hnext := ih (sinkPut (lenOf s y) (codeOf s y) s) hs hc hrest
    rw [List.map_cons, execAll_cons hput, List.flatMap_cons, ← List.append_assoc]
    exact hnext

/-- A codeword in a list of codewords is no longer than they are together. -/
theorem length_codeword_le_flatMap {s : State} {l : List (BitVec 16)} {x : BitVec 16} (hx : x ∈ l) :
    (s.len.read x.toNat).toNat ≤ (l.flatMap fun y => codeword s y.toNat).length := by
  rw [← length_codeword, List.length_flatMap]
  exact List.le_sum_of_mem (List.mem_map.2 ⟨x, hx, rfl⟩)

/-- With the padding of R153 after the last codeword, `MAXLEN` bits are available at the first. -/
theorem maxlen_le_avail_of_stream {s : State} {done rest : List (BitVec 16)} {y : BitVec 16} {pad : List Bool}
    (hsrc : s.src.drop s.srcpos = (done ++ y :: rest).flatMap (fun x => codeword s x.toNat) ++ pad)
    (hpad : s.maxlen.toNat - (s.len.read ((y :: rest).getLast (List.cons_ne_nil _ _)).toNat).toNat ≤ pad.length) :
    s.maxlen.toNat ≤ avail s := by
  have hlast : (y :: rest).getLast (List.cons_ne_nil _ _) ∈ done ++ y :: rest :=
    List.mem_append_right done (List.getLast_mem _)
  have hle := length_codeword_le_flatMap (s := s) hlast
  have hlen := congrArg List.length hsrc
  rw [List.length_drop, List.length_append] at hlen
  unfold avail
  omega

/-- Settles O49: every `DEC` finds the next codeword at the cursor, with `MAXLEN` bits available, and leaves a legal
state. -/
theorem decodingAStreamReturnsItsSymbols : Obligations.DecodingAStreamReturnsItsSymbols := by
  unfold Obligations.DecodingAStreamReturnsItsSymbols
  intro s done y rest pad h hs hd hactive hsrc hpad
  induction done generalizing s with
  | nil =>
    have hpre : codeword s y.toNat <+: s.src.drop s.srcpos := by
      rw [hsrc, List.nil_append, List.flatMap_cons, List.append_assoc]
      exact List.prefix_append ..
    have hdec := h.exec_dec_of_codeword hs hd (maxlen_le_avail_of_stream hsrc hpad) (hactive y List.mem_cons_self) hpre
    rw [List.length_nil, List.replicate_one, execAll_cons hdec, execAll, List.nil_append, List.flatMap_singleton,
      length_codeword]
  | cons x done ih =>
    obtain ⟨hx, hothers⟩ := List.forall_mem_cons.1 hactive
    have hav := maxlen_le_avail_of_stream hsrc hpad
    rw [List.cons_append, List.flatMap_cons, List.append_assoc] at hsrc
    have hdec := h.exec_dec_of_codeword hs hd hav hx (hsrc ▸ List.prefix_append ..)
    have hinv := h.of_change ((exec_answers (i := .dec) nofun hdec).change nofun)
    have hnext := ih _ hinv hs hd hothers (by
      rw [← List.drop_drop, hsrc]
      exact List.drop_left' (length_codeword s x.toNat)) hpad
    rw [List.length_cons, List.replicate_succ, execAll_cons hdec, List.cons_append, List.flatMap_cons,
      List.length_append, length_codeword, ← Nat.add_assoc]
    exact hnext

end Sys2Proof.Machine

/-! PROOFS. The host port's reads and writes, one by one (10_state.md R24 to R35), and the commands in the reset state
(70_reset_and_hazards.md R201). -/

namespace Sys2Proof.Machine

/-! ## Reads -/

/-- `STATUS` as a number, lowest field first (R25). -/
theorem statusWord_eq_ofNat_low_first (s : State) :
    statusWord s = BitVec.ofNat 32 (s.codev.toNat + 2 * s.dtabv.toNat + 256 * s.err.toNat) := by
  rw [← statusWord_toNat, BitVec.ofNat_toNat, BitVec.setWidth_eq]

theorem npad_mod_two (s : State) : npad s % 2 = 0 := by
  unfold npad
  omega

theorem npad_le_succ (s : State) : npad s ≤ s.nsym.toNat + 1 := by
  unfold npad
  omega

/-- Settles O10: each register read is one `reply`. -/
theorem registerReadsComplete : Obligations.RegisterReadsComplete := by
  unfold Obligations.RegisterReadsComplete
  intro s
  refine ⟨rfl, ?_, rfl, ?_, ?_, ?_, ?_, npad s, rfl, npad_mod_two s, nsym_le_npad s, npad_le_succ s, npad_le_nCap⟩
  · rw [← statusWord_eq_ofNat_low_first]
    rfl
  · rw [← zeroExtend_eq_ofNat]
    rfl
  · rw [← zeroExtend_eq_ofNat]
    rfl
  · rw [← zeroExtend_eq_ofNat]
    rfl
  · rw [← zeroExtend_eq_ofNat]
    rfl

/-- A slot is its `valid` bit over its symbol (R35). -/
theorem slot_toNat (x : BitVec 17) : x.toNat = (slotValid x).toNat * 65536 + (slotSym x).toNat := by
  have hx := x.isLt
  have hsym : (slotSym x).toNat = x.toNat % 65536 := by
    simp only [slotSym, BitVec.extractLsb'_toNat, Nat.shiftRight_zero]
  rw [hsym, slotValid_eq]
  by_cases hvalid : 65536 ≤ x.toNat
  · rw [decide_eq_true hvalid, Bool.toNat_true]
    omega
  · rw [decide_eq_false hvalid, Bool.toNat_false]
    omega

/-- Settles O11: a mapped table read is one `reply`. -/
theorem tableReadsComplete : Obligations.TableReadsComplete := by
  unfold Obligations.TableReadsComplete
  refine fun s i => ⟨fun hi => ?_, fun hi => ?_⟩
  · exact ⟨exec_rdWeight_of_inTable hi, exec_rdLen_of_inTable hi, exec_rdCode_of_inTable hi⟩
  · rw [← slot_toNat]
    exact exec_rdDtab_of_inDtab hi

/-! ## Writes -/

/-- Settles O13: a legal value fits its register. -/
theorem registerWritesComplete : Obligations.RegisterWritesComplete := by
  unfold Obligations.RegisterWritesComplete
  refine fun s v hs => ⟨fun hv => ⟨_, ?_, exec_wrNsym_of_legal hs hv⟩,
    fun hpos hle => ⟨_, ?_, exec_wrMaxlen_of_legal hs ⟨hpos, hle⟩⟩⟩
  · rw [BitVec.ofNat_toNat]
    exact toNat_setWidth_of_legalNsym hv
  · rw [BitVec.ofNat_toNat]
    exact toNat_setWidth_of_legalMaxlen ⟨hpos, hle⟩

/-- Settles O14: a write changes the word at its index, in a table in canonical form. -/
theorem tableWritesComplete : Obligations.TableWritesComplete := by
  unfold Obligations.TableWritesComplete
  rintro s i v hs ⟨⟨⟨hweight, -⟩, -⟩, ⟨⟨hlen, -⟩, -⟩, -, -⟩ hi
  refine ⟨⟨_, exec_wrWeight_of_inTable hs hi, fun j => ?_⟩, fun hv => ⟨_, exec_wrLen_of_legal hs hi ?_, fun j => ?_⟩⟩
  · simp only [Memory.read_write hweight, eq_comm (a := i.toNat) (b := j)]
  · exact (legalLen_iff v).2 (Nat.div_eq_of_lt hv)
  · simp only [Memory.read_write hlen, eq_comm (a := i.toNat) (b := j), apply_ite BitVec.toNat,
      BitVec.toNat_ofNat, Nat.mod_eq_of_lt hv]

/-! ## The reset state -/

/-- Settles O8: in the empty alphabet every table that is computed is empty. -/
theorem resetStateIsTheEmptyAlphabet : Obligations.ResetStateIsTheEmptyAlphabet := by
  unfold Obligations.ResetStateIsTheEmptyAlphabet
  rintro sink src srcpos script _ rfl
  refine ⟨fun sym => ⟨_, exec_enc_of_notReady rfl rfl⟩, ⟨_, exec_dec_of_notReady rfl rfl⟩,
    ⟨_, exec_hdt_of_notReady rfl rfl⟩, ?_, ?_, ?_, ?_, ?_⟩
  · exact exec_hlb_of_ok rfl (buildLengths_of_nil rfl)
  · exact exec_cca_of_ok (c := []) rfl rfl
  · exact exec_encb_of_ok (c := []) rfl (buildLengths_of_nil rfl) rfl
  · exact exec_decb_of_ok (c := []) rfl rfl
  · exact exec_hdt_of_codev rfl rfl

end Sys2Proof.Machine
